-- ==== Sys2Proof/Word.lean ====
section
/-! DEFINITION. The word of every port, and the number format FMT with its value domain `Num`
(00_scope.md R6, R11, R12). FMT is an argument of all of it. Arithmetic on `Num` is in
Machine/Arith.lean. -/

namespace Sys2Proof

/-- One word of a port, W = 32 bits (00_scope.md R6; 20_memory.md R85). -/
abbrev Word := BitVec 32

/-- One byte, used only where words are stored outside the hardware (20_memory.md R83). -/
abbrev Byte := BitVec 8

/-- FMT, an IEEE 754 binary format (R6, R11; 92_eei_decisions.md D1): the widths of the exponent and
fraction fields of an encoding. -/
structure Fmt where
  expBits : Nat
  fracBits : Nat
  two_le_expBits : 2 ≤ expBits
  one_le_fracBits : 1 ≤ fracBits
  deriving DecidableEq, Repr

/-- Exponent bias (R11). -/
abbrev Fmt.bias (F : Fmt) : Nat := 2 ^ (F.expBits - 1) - 1

/-- The greatest magnitude code of a finite value: every code below the all-ones exponent is finite. A
magnitude code is the exponent field followed by the fraction field, read as one number. -/
abbrev Fmt.maxMag (F : Fmt) : Nat := (2 ^ F.expBits - 1) * 2 ^ F.fracBits - 1

/-- How many finite magnitudes the format has; the next magnitude code is that of the infinities. -/
abbrev Fmt.magCount (F : Fmt) : Nat := F.maxMag + 1

/-- The finite values are whole multiples of 2^(-unitExp), the least subnormal. -/
abbrev Fmt.unitExp (F : Fmt) : Nat := F.bias + F.fracBits - 1

/-- The values of FMT (R11), one term per value: a single abstract NaN (R12), the two infinities,
and a finite value given by its sign and its magnitude code. -/
inductive Num (F : Fmt) where
  /-- The one NaN (R12). -/
  | nan
  /-- An infinity, `neg` its sign bit. -/
  | inf (neg : Bool)
  /-- A finite value: sign bit and magnitude code, zero and subnormals included. -/
  | fin (neg : Bool) (mag : Fin F.magCount)
  deriving DecidableEq, Repr

end Sys2Proof
end

