-- ==== Sys2Proof/Config.lean ====
section
/-! DEFINITION. The parameters of the hardware (00_scope.md R6; 92_eei_decisions.md section 5), each
under its own name, and the free values, which are opaque constants. Every rule of the machine takes
the format `F` and the parameters as arguments; what is at a fixed format stands under `Config`. -/

namespace Sys2Proof

/-- A decimal constant as the spec prints it, `num / den`; it stands for its rounding to FMT (R17),
taken by `Num.ofDec`. -/
structure Dec where
  num : Nat
  den : Nat
  deriving DecidableEq, Repr

/-- A finite value of FMT, the range of fcos, fsin and flog10 between their special cases
(R20, R22, R24). -/
structure FiniteNum (F : Fmt) where
  neg : Bool
  mag : Fin F.magCount
  deriving DecidableEq, Repr, Inhabited

/-- A value of FMT in [+0, +∞] by its magnitude code, the range of fexp and fpow between their
special cases (R21, R23): results overflow to +∞ and underflow to +0 and are never negative. -/
abbrev Magnitude (F : Fmt) := Fin (F.magCount + 1)

/-- The record TF of R24: what the implementation's transcendental functions return between the
special cases of R20 to R23, which Machine/Trans.lean fixes for every TF. The accuracy bound of R24
is the named property `Safety.TfAccurate`, and TF_ref is the property `Safety.TfReference`. -/
structure TF (F : Fmt) where
  cos : Num F → FiniteNum F
  sin : Num F → FiniteNum F
  exp : Num F → Magnitude F
  log10 : Num F → FiniteNum F
  pow : Num F → Num F → Magnitude F
  deriving Inhabited

/-- What NEG_INF_DB may be (R6; 92_eei_decisions.md section 5): a finite negative level, given by
its magnitude code less one, or the format's −∞. -/
inductive SilenceLevel (F : Fmt) where
  | negInf
  | finite (magPred : Fin F.maxMag)
  deriving DecidableEq, Repr, Inhabited

/-- The level as a value of FMT. -/
def SilenceLevel.toNum {F : Fmt} : SilenceLevel F → Num F
  | .finite m => .fin true m.succ
  | .negInf => .inf true

/-- A binary32 NaN encoding (R12): a sign and a nonzero 23-bit fraction, given as the fraction less
one. -/
structure NanCode where
  neg : Bool
  fracPred : Fin 0x7FFFFF
  deriving DecidableEq, Repr, Inhabited

/-- The parameters a model takes as arguments (R6, 92_eei_decisions.md section 5), with the two
constants of R17 whose rounding depends on FMT. Every micro-operation takes them; the machine runs at
`Config.params`. NCH_MAX, which only INIT reads, is the field `nchMax` of the state. -/
structure Params (F : Fmt) where
  tf : TF F
  /-- NEG_INF_DB. -/
  negInfDb : Num F
  /-- DECAY_MS, in milliseconds. -/
  decayMs : Dec
  /-- DECAY_RATIO. -/
  decayRatio : Dec
  /-- `PI`, the rounding of π (R17). -/
  pi : Num F
  /-- `BUTTER_Q`, the rounding of 1/√2 (R17). -/
  butterQ : Num F

/-- FMT of the machine at the ports, IEEE 754 binary32: a port word is W = 32 bits, the width of FMT
(R6), and binary32 is the IEEE 754 binary format of 32 bits. It is the spec's default, and the rules
of the model are written for every format (DESIGN CHOICE, log entry 1). -/
abbrev Config.fmt : Fmt := ⟨8, 23, by decide, by decide⟩

/-- A value of the machine's FMT. -/
abbrev Value := Num Config.fmt

/-- TF of the machine: FREE (R24, D4; log entry 2). -/
opaque Config.tf : TF Config.fmt

/-- NEG_INF_DB of the machine: FREE over the range the spec gives (R6, D3; log entry 3). -/
opaque Config.silence : SilenceLevel Config.fmt

/-- The value of NCH_MAX in `State.reset`: DESIGN CHOICE, the spec's default (R6, D23; log entry 4).
The machine reads NCH_MAX from its state, at any value 0 to 255. -/
def Config.nchMaxDefault : BitVec 8 := 2

/-- DECAY_MS = 150 (R6, R211). -/
def Config.decayMs : Dec := ⟨150, 1⟩

/-- DECAY_RATIO = 0.25 (R6, R211; 90_conflicts.md C6). -/
def Config.decayRatio : Dec := ⟨25, 100⟩

/-- `PI` as R17 prints it for binary32: the word 0x40490FDB. -/
def Config.pi : Value := .fin false ⟨0x40490FDB, by decide⟩

/-- `BUTTER_Q` as R17 prints it for binary32: the word 0x3F3504F3. -/
def Config.butterQ : Value := .fin false ⟨0x3F3504F3, by decide⟩

/-- The parameters of the machine. -/
def Config.params : Params Config.fmt where
  tf := Config.tf
  negInfDb := Config.silence.toNum
  decayMs := Config.decayMs
  decayRatio := Config.decayRatio
  pi := Config.pi
  butterQ := Config.butterQ

/-- The NaN encoding that crosses a port at the given draw: FREE (R12, U18; log entry 5). -/
opaque Config.nanCode : Nat → NanCode

/-- The draw behind a UI port read: FREE (R87, U19; log entry 6). -/
opaque Config.uiDraw : Nat → Nat

/-- HYST_HZ (R6, R152). -/
def Config.hystHz : Dec := ⟨5, 10⟩

/-- LOW_MIN_HZ (R6, R153). -/
def Config.lowMinHz : Dec := ⟨10, 1⟩

/-- LOW_MAX_FRAC (R6, R153). -/
def Config.lowMaxFrac : Dec := ⟨8, 10⟩

/-- SEP_MIN_HZ (R6, R153). -/
def Config.sepMinHz : Dec := ⟨10, 1⟩

/-- HIGH_MAX_FRAC (R6, R153). -/
def Config.highMaxFrac : Dec := ⟨99, 100⟩

/-- RATIO_MIN (R6, R177). -/
def Config.ratioMin : Dec := ⟨1, 1⟩

/-- TIME_FLOOR_MS in seconds, 0.0001 (R6, R177; D25). -/
def Config.timeFloorS : Dec := ⟨1, 10000⟩

end Sys2Proof
end

