-- ==== Sys2Proof/Machine/Arith.lean ====
section
/-! DEFINITION. The numeric primitives of 00_scope.md R11 to R19: words to values, rounding, the four
operations, negation, absolute value, comparisons, floor at a constant, clamp, constants. All but the
port words is at any format. -/

namespace Sys2Proof

variable {F : Fmt}

/-- The exact value of a magnitude code, in units of the least subnormal (R11): the exponent field 0
is zero and the subnormals, a greater one an implicit leading 1. -/
def Num.magUnits (F : Fmt) (m : Nat) : Nat :=
  if m < 2 ^ F.fracBits then m
  else (2 ^ F.fracBits + m % 2 ^ F.fracBits) * 2 ^ (m / 2 ^ F.fracBits - 1)

/-- The exact value of a finite sign and magnitude, in units of the least subnormal. -/
def Num.signedUnits (F : Fmt) (neg : Bool) (m : Nat) : Int :=
  if neg then -(Num.magUnits F m : Int) else (Num.magUnits F m : Int)

/-- The finite value of a magnitude code, or the infinity from the overflow threshold on (R13). -/
def Num.ofMag (neg : Bool) (m : Nat) : Num F :=
  if h : m < F.magCount then .fin neg ⟨m, h⟩ else .inf neg

/-- The zero of a sign. -/
def Num.signedZero (neg : Bool) : Num F := .fin neg 0

/-- The whole number nearest to n / d, the even one on a tie (R13). -/
def Num.roundHalfEven (n d : Nat) : Nat :=
  if 2 * (n % d) < d then n / d
  else if d < 2 * (n % d) then n / d + 1
  else if n / d % 2 = 0 then n / d
  else n / d + 1

/-- RN (R13): the magnitude n / d, in units of the least subnormal, rounded to the nearest value of
FMT, ties to the even last significand bit, ±∞ from the overflow threshold on, subnormals kept.
`2 ^ k` units is the spacing of the values around n / d, and consecutive values have consecutive
magnitude codes. -/
def Num.round (neg : Bool) (n d : Nat) : Num F :=
  let k := Nat.log2 (n / d) - F.fracBits
  Num.ofMag neg (k * 2 ^ F.fracBits + Num.roundHalfEven n (d * 2 ^ k))

/-- A decimal constant stands for its rounding (R17). -/
def Num.ofDec (c : Dec) : Num F := Num.round false (c.num * 2 ^ F.unitExp) c.den

/-- The value of a whole number, rounded (R17). -/
def Num.ofNat (n : Nat) : Num F := Num.ofDec ⟨n, 1⟩

/-- The value of a sign and of the bits below it in an encoding: the finite magnitude codes, then the
infinity, then the NaN encodings, every one of which is the one NaN (R11, R12). -/
def Num.ofSignMag (neg : Bool) (m : Nat) : Num F :=
  if h : m < F.magCount then .fin neg ⟨m, h⟩
  else if m = F.magCount then .inf neg
  else .nan

/-- The value of a port word, bit 31 its sign (R11): any pattern is accepted (R104). -/
def Num.ofWord (w : Word) : Value := Num.ofSignMag w.msb (w.toNat % 2 ^ 31)

/-- The port word of a sign and a magnitude code (R11): bit 31 the sign, bits 30:0 the code. -/
def Num.signMagWord (neg : Bool) (m : Nat) : Word :=
  BitVec.ofNat 32 ((if neg then 2 ^ 31 else 0) + m)

/-- The value is a zero of either sign. -/
def Num.isZero : Num F → Bool
  | .fin _ m => m.val == 0
  | _ => false

/-- The value is NaN. -/
def Num.isNan : Num F → Bool
  | .nan => true
  | _ => false

/-- The value is finite. -/
def Num.isFinite : Num F → Bool
  | .fin _ _ => true
  | _ => false

/-- The sign bit; the abstract NaN has none and counts as unsigned. -/
def Num.signBit : Num F → Bool
  | .nan => false
  | .inf neg => neg
  | .fin neg _ => neg

/-- `−a`: the sign bit changed (R14). -/
def Num.neg : Num F → Num F
  | .nan => .nan
  | .inf s => .inf (!s)
  | .fin s m => .fin (!s) m

/-- `|a|`: the sign bit cleared (R14). -/
def Num.abs : Num F → Num F
  | .nan => .nan
  | .inf _ => .inf false
  | .fin _ m => .fin false m

/-- The rounding of an exact sum of units; a zero sum is −0 only when both operands are negative
zeros, which is when both sign bits are set (R13). -/
def Num.ofSum (bothNeg : Bool) (u : Int) : Num F :=
  if u = 0 then Num.signedZero bothNeg else Num.round (decide (u < 0)) u.natAbs 1

/-- `a + b` (R13). -/
def Num.add : Num F → Num F → Num F
  | .nan, _ => .nan
  | .inf _, .nan => .nan
  | .inf s, .inf t => if s = t then .inf s else .nan
  | .inf s, .fin _ _ => .inf s
  | .fin _ _, .nan => .nan
  | .fin _ _, .inf t => .inf t
  | .fin s m, .fin t n => Num.ofSum (s && t) (Num.signedUnits F s m + Num.signedUnits F t n)

/-- `a − b`: the sum with the opposite of b (R13, R14). -/
def Num.sub (a b : Num F) : Num F := a.add b.neg

/-- `a · b` (R13). -/
def Num.mul : Num F → Num F → Num F
  | .nan, _ => .nan
  | .inf _, .nan => .nan
  | .inf s, .inf t => .inf (s ^^ t)
  | .inf s, .fin t n => if n.val = 0 then .nan else .inf (s ^^ t)
  | .fin _ _, .nan => .nan
  | .fin s m, .inf t => if m.val = 0 then .nan else .inf (s ^^ t)
  | .fin s m, .fin t n =>
    Num.round (s ^^ t) (Num.magUnits F m * Num.magUnits F n) (2 ^ F.unitExp)

/-- `a / b` (R13). The quotients R13 does not list, an infinity over a finite value and a finite
value over an infinity, are IEEE 754's: ±∞ and ±0 (DEDUCED, log entry 15). -/
def Num.div : Num F → Num F → Num F
  | .nan, _ => .nan
  | .inf _, .nan => .nan
  | .inf _, .inf _ => .nan
  | .inf s, .fin t _ => .inf (s ^^ t)
  | .fin _ _, .nan => .nan
  | .fin s _, .inf t => Num.signedZero (s ^^ t)
  | .fin s m, .fin t n =>
    if n.val = 0 then (if m.val = 0 then .nan else .inf (s ^^ t))
    else Num.round (s ^^ t) (Num.magUnits F m * 2 ^ F.unitExp) (Num.magUnits F n)

/-- The place of a non-NaN value in the order of R15: both zeros at 0, the infinities outermost. -/
def Num.key : Num F → Int
  | .nan => 0
  | .inf s => if s then -(F.magCount : Int) else F.magCount
  | .fin s m => if s then -(m.val : Int) else m.val

/-- `a < b`, false on NaN (R15). -/
def Num.lt (a b : Num F) : Bool := !a.isNan && !b.isNan && decide (a.key < b.key)

/-- `a ≤ b`, false on NaN (R15). -/
def Num.le (a b : Num F) : Bool := !a.isNan && !b.isNan && decide (a.key ≤ b.key)

/-- `a > b`, false on NaN (R15). -/
def Num.gt (a b : Num F) : Bool := b.lt a

/-- `a ≥ b`, false on NaN (R15). -/
def Num.ge (a b : Num F) : Bool := b.le a

/-- `fmaxc(x, C)`, the floor of x at the constant C; a NaN gives C (R18). -/
def Num.fmaxc (x c : Num F) : Num F := if x.gt c then x else c

/-- `clamp(v, lo, hi)`; a NaN v passes through. Its callers test `lo ≤ hi` first (R19). -/
def Num.clamp (v lo hi : Num F) : Num F :=
  if v.lt lo then lo else if v.gt hi then hi else v

/-- The constant 0, which is +0 (R17). -/
def Num.zero : Num F := Num.signedZero false

/-- The constant 1 (R17). -/
def Num.one : Num F := Num.ofNat 1

/-- The constant 2 (R17). -/
def Num.two : Num F := Num.ofNat 2

end Sys2Proof
end

