-- ==== Sys2Proof/Syntax.lean ====
section
/-! DEFINITION. The command set, one constructor per row of spec/opcode_table.json
(30_encoding.md R107), with the header fields of R102 and the operand words of R101. -/

namespace Sys2Proof

/-- A command of MBC-CMD 1.0. Header fields are the unsigned fields of R104: `nch` and `c` bits
23:16, `k` bits 10:8, `b` bits 9:8, `f` bit 8, `addr` bits 23:0. Operand words are bit patterns,
taken as they are (R104). -/
inductive Instr where
  /-- INIT nch, fs (R191). -/
  | init (nch : BitVec 8) (fs : Word)
  /-- BLK.BEG (R193). -/
  | blkBeg
  /-- SAMPLE c, x (R195). -/
  | sample (c : BitVec 8) (x : Word)
  /-- BLK.END (R197). -/
  | blkEnd
  /-- BQ.SETLP c, k, freq, fs (R135). -/
  | bqSetlp (c : BitVec 8) (k : BitVec 3) (freq fs : Word)
  /-- BQ.SETHP c, k, freq, fs (R136). -/
  | bqSethp (c : BitVec 8) (k : BitVec 3) (freq fs : Word)
  /-- BQ.STEP c, k, x (R137). -/
  | bqStep (c : BitVec 8) (k : BitVec 3) (x : Word)
  /-- XO.UPD req_lo_mid, req_mid_hi (R154). -/
  | xoUpd (reqLoMid reqMidHi : Word)
  /-- XO.SPLIT c, x (R158). -/
  | xoSplit (c : BitVec 8) (x : Word)
  /-- BC.SET b, threshold_db, ratio, attack_ms, release_ms, makeup_db (R178). -/
  | bcSet (b : BitVec 2) (thresholdDb ratio attackMs releaseMs makeupDb : Word)
  /-- BC.STEP c, b, x (R179). -/
  | bcStep (c : BitVec 8) (b : BitVec 2) (x : Word)
  /-- PK.ATT f (R210). -/
  | pkAtt (f : BitVec 1)
  /-- PK.UPD block_peak (R213). -/
  | pkUpd (blockPeak : Word)
  /-- PK.READ (R214). -/
  | pkRead
  /-- REG.RD addr (R226). -/
  | regRd (addr : BitVec 24)
  deriving DecidableEq, Repr

end Sys2Proof
end

