-- ==== Sys2Proof/WellFormed.lean ====
section
/-! DEFINITION. Which terms of `Instr` are legal commands. Every field's width is in its type, so the
one check left is the band field (30_encoding.md R108, R109 (c)). -/

namespace Sys2Proof

/-- A band field takes 0, 1, 2 (R108); b = 3 is illegal (R109 (c)). -/
abbrev bandLegal (b : BitVec 2) : Bool := b != 3#2

/-- The command's header is legal (R109): true of every term but a BC.SET or BC.STEP with b = 3. -/
def Instr.WellFormed : Instr → Bool
  | .bcSet b _ _ _ _ _ => bandLegal b
  | .bcStep _ b _ => bandLegal b
  | .init _ _ | .blkBeg | .sample _ _ | .blkEnd | .bqSetlp _ _ _ _ | .bqSethp _ _ _ _
  | .bqStep _ _ _ | .xoUpd _ _ | .xoSplit _ _ | .pkAtt _ | .pkUpd _ | .pkRead | .regRd _ => true

end Sys2Proof
end

