-- ==== Sys2Proof/Decode.lean ====
section
/-! DEFINITION. Command formats, the opcode map, the decoder and the encoder (30_encoding.md R101 to
R111, R116) and the byte layout of stored words (20_memory.md R83). -/

namespace Sys2Proof

/-- The fifteen assigned opcodes (R107). -/
inductive Opcode where
  | init | blkBeg | sample | blkEnd
  | bqSetlp | bqSethp | bqStep
  | xoUpd | xoSplit
  | bcSet | bcStep
  | pkAtt | pkUpd | pkRead
  | regRd
  deriving DecidableEq, Repr

/-- OP, bits 31:24 (R106, R107). -/
def Opcode.code : Opcode → BitVec 8
  | .init => 0x01 | .blkBeg => 0x02 | .sample => 0x03 | .blkEnd => 0x04
  | .bqSetlp => 0x10 | .bqSethp => 0x11 | .bqStep => 0x12
  | .xoUpd => 0x20 | .xoSplit => 0x21
  | .bcSet => 0x30 | .bcStep => 0x31
  | .pkAtt => 0x40 | .pkUpd => 0x41 | .pkRead => 0x42
  | .regRd => 0x50

/-- The row of the opcode map that an OP byte selects, if any (R107). -/
def Opcode.ofCode (op : BitVec 8) : Option Opcode :=
  match op with
  | 0x01#8 => some .init | 0x02#8 => some .blkBeg | 0x03#8 => some .sample | 0x04#8 => some .blkEnd
  | 0x10#8 => some .bqSetlp | 0x11#8 => some .bqSethp | 0x12#8 => some .bqStep
  | 0x20#8 => some .xoUpd | 0x21#8 => some .xoSplit
  | 0x30#8 => some .bcSet | 0x31#8 => some .bcStep
  | 0x40#8 => some .pkAtt | 0x41#8 => some .pkUpd | 0x42#8 => some .pkRead
  | 0x50#8 => some .regRd
  | _ => none

/-- The `match` column of R107. -/
def Opcode.pattern : Opcode → Word
  | .init => 0x01000000 | .blkBeg => 0x02000000 | .sample => 0x03000000 | .blkEnd => 0x04000000
  | .bqSetlp => 0x10000000 | .bqSethp => 0x11000000 | .bqStep => 0x12000000
  | .xoUpd => 0x20000000 | .xoSplit => 0x21000000
  | .bcSet => 0x30000000 | .bcStep => 0x31000000
  | .pkAtt => 0x40000000 | .pkUpd => 0x41000000 | .pkRead => 0x42000000
  | .regRd => 0x50000000

/-- The `mask` column of R107: a 1 where the header bit is fixed. -/
def Opcode.mask : Opcode → Word
  | .init | .sample | .xoSplit => 0xFF00FFFF
  | .blkBeg | .blkEnd | .xoUpd | .pkUpd | .pkRead => 0xFFFFFFFF
  | .bqSetlp | .bqSethp | .bqStep => 0xFF00F8FF
  | .bcSet => 0xFFFFFCFF
  | .bcStep => 0xFF00FCFF
  | .pkAtt => 0xFFFFFEFF
  | .regRd => 0xFF000000

/-- The number of operand words (R107). -/
def Opcode.operandCount : Opcode → Nat
  | .bcSet => 5
  | .bqSetlp | .bqSethp | .xoUpd => 2
  | .init | .sample | .bqStep | .xoSplit | .bcStep | .pkUpd => 1
  | .blkBeg | .blkEnd | .pkAtt | .pkRead | .regRd => 0

/-- The number of result words of a success response (R105, R107). -/
def Opcode.resultCount : Opcode → Nat
  | .xoSplit => 3
  | .sample | .bqStep | .xoUpd | .bcStep | .pkRead | .regRd => 1
  | .init | .blkBeg | .blkEnd | .bqSetlp | .bqSethp | .bcSet | .pkAtt | .pkUpd => 0

/-- The format has a band field, for which b = 3 is excluded (R107, R109 (c)). -/
def Opcode.hasBand : Opcode → Bool
  | .bcSet | .bcStep => true
  | _ => false

/-- OP = H[31:24] (R102). -/
def opField (h : Word) : BitVec 8 := h.extractLsb' 24 8

/-- c or nch = H[23:16] (R104). -/
def chanField (h : Word) : BitVec 8 := h.extractLsb' 16 8

/-- k = H[10:8] (R104). -/
def biquadField (h : Word) : BitVec 3 := h.extractLsb' 8 3

/-- b = H[9:8] (R104). -/
def bandField (h : Word) : BitVec 2 := h.extractLsb' 8 2

/-- f = H[8] (R104). -/
def flagField (h : Word) : BitVec 1 := h.extractLsb' 8 1

/-- ADDR = H[23:0] (R104). -/
def addrField (h : Word) : BitVec 24 := h.extractLsb' 0 24

/-- A header from its fields, `OP << 24 | A << 16 | B << 8`, with Z = 0 (R102, R116). -/
def header (op a b : BitVec 8) : Word :=
  op.setWidth 32 <<< 24 ||| a.setWidth 32 <<< 16 ||| b.setWidth 32 <<< 8

/-- The header of REG.RD, `OP << 24 | addr` (R102, R116). -/
def addrHeader (op : BitVec 8) (addr : BitVec 24) : Word := op.setWidth 32 <<< 24 ||| addr.setWidth 32

/-- Why a header is illegal, the cases (a), (b), (c) of R109. -/
inductive IllegalCause where
  /-- OP is none of the fifteen (a). -/
  | unknownOp
  /-- A must-be-0 bit of the format is 1 (b). -/
  | reservedBit
  /-- The band field is 3 (c). -/
  | bandThree
  deriving DecidableEq, Repr

/-- What the words waiting on the command port hold (R110). -/
inductive Decoded where
  /-- Fewer words than the first word's length: nothing is consumed. -/
  | needMore
  /-- A legal command and the words after it. -/
  | legal (i : Instr) (rest : List Word)
  /-- An illegal command, its OP byte, and the words after it. -/
  | illegal (why : IllegalCause) (op : BitVec 8) (rest : List Word)
  deriving DecidableEq, Repr

/-- Why the header is illegal for the row its OP selects, if it is (R109 (b), (c)). -/
def headerFault (o : Opcode) (h : Word) : Option IllegalCause :=
  if h &&& o.mask ≠ o.pattern then some .reservedBit
  else if o.hasBand ∧ bandField h = 3#2 then some .bandThree
  else none

/-- The command with opcode `o`, header `h` and operand words `w 0`, `w 1`, … (R103, R104). -/
def Opcode.build (o : Opcode) (h : Word) (w : Nat → Word) : Instr :=
  match o with
  | .init => .init (chanField h) (w 0)
  | .blkBeg => .blkBeg
  | .sample => .sample (chanField h) (w 0)
  | .blkEnd => .blkEnd
  | .bqSetlp => .bqSetlp (chanField h) (biquadField h) (w 0) (w 1)
  | .bqSethp => .bqSethp (chanField h) (biquadField h) (w 0) (w 1)
  | .bqStep => .bqStep (chanField h) (biquadField h) (w 0)
  | .xoUpd => .xoUpd (w 0) (w 1)
  | .xoSplit => .xoSplit (chanField h) (w 0)
  | .bcSet => .bcSet (bandField h) (w 0) (w 1) (w 2) (w 3) (w 4)
  | .bcStep => .bcStep (chanField h) (bandField h) (w 0)
  | .pkAtt => .pkAtt (flagField h)
  | .pkUpd => .pkUpd (w 0)
  | .pkRead => .pkRead
  | .regRd => .regRd (addrField h)

/-- The decoder, total on any words (R110): an unknown OP is an illegal command of one word, a known
one takes its whole length, legal or not (R103, R109). -/
def decode : List Word → Decoded
  | [] => .needMore
  | h :: tl =>
    match Opcode.ofCode (opField h) with
    | none => .illegal .unknownOp (opField h) tl
    | some o =>
      if tl.length < o.operandCount then .needMore
      else
        match headerFault o h with
        | some why => .illegal why (opField h) (tl.drop o.operandCount)
        | none => .legal (o.build h (fun j => tl.getD j 0)) (tl.drop o.operandCount)

/-- The opcode of a command. -/
def Instr.opcode : Instr → Opcode
  | .init _ _ => .init
  | .blkBeg => .blkBeg
  | .sample _ _ => .sample
  | .blkEnd => .blkEnd
  | .bqSetlp _ _ _ _ => .bqSetlp
  | .bqSethp _ _ _ _ => .bqSethp
  | .bqStep _ _ _ => .bqStep
  | .xoUpd _ _ => .xoUpd
  | .xoSplit _ _ => .xoSplit
  | .bcSet _ _ _ _ _ _ => .bcSet
  | .bcStep _ _ _ => .bcStep
  | .pkAtt _ => .pkAtt
  | .pkUpd _ => .pkUpd
  | .pkRead => .pkRead
  | .regRd _ => .regRd

/-- The words of a command (R101, R103, R116). -/
def encode : Instr → List Word
  | .init nch fs => [header 0x01 nch 0, fs]
  | .blkBeg => [header 0x02 0 0]
  | .sample c x => [header 0x03 c 0, x]
  | .blkEnd => [header 0x04 0 0]
  | .bqSetlp c k freq fs => [header 0x10 c (k.setWidth 8), freq, fs]
  | .bqSethp c k freq fs => [header 0x11 c (k.setWidth 8), freq, fs]
  | .bqStep c k x => [header 0x12 c (k.setWidth 8), x]
  | .xoUpd lo hi => [header 0x20 0 0, lo, hi]
  | .xoSplit c x => [header 0x21 c 0, x]
  | .bcSet b thr ratio att rel makeup => [header 0x30 0 (b.setWidth 8), thr, ratio, att, rel, makeup]
  | .bcStep c b x => [header 0x31 c (b.setWidth 8), x]
  | .pkAtt f => [header 0x40 0 (f.setWidth 8)]
  | .pkUpd p => [header 0x41 0 0, p]
  | .pkRead => [header 0x42 0 0]
  | .regRd addr => [addrHeader 0x50 addr]

/-- A word from its four stored bytes, lowest offset first: bits 7:0 come first (R83). -/
def wordOfBytes (b0 b1 b2 b3 : Byte) : Word :=
  b3.setWidth 32 <<< 24 ||| b2.setWidth 32 <<< 16 ||| b1.setWidth 32 <<< 8 ||| b0.setWidth 32

/-- A stored byte string as words (R83); bytes short of a whole word are left out. -/
def wordsOfBytes : List Byte → List Word
  | b0 :: b1 :: b2 :: b3 :: tl => wordOfBytes b0 b1 b2 b3 :: wordsOfBytes tl
  | _ => []

/-- Words as a stored byte string (R83). -/
def bytesOfWords (ws : List Word) : List Byte :=
  ws.flatMap fun w =>
    [w.extractLsb' 0 8, w.extractLsb' 8 8, w.extractLsb' 16 8, w.extractLsb' 24 8]

/-- The words of the longest command, 6 (R111), of an instruction whose bits are `w`, numbered as
spec/opcode_table.json numbers them; bits from `nbits` on are 0. -/
def tableWords (nbits w : Nat) : List Word :=
  (List.range 6).map fun j => BitVec.ofNat 32 (w % 2 ^ nbits / 2 ^ (32 * j))

/-- The command the decoder reads from an instruction whose bits are `w`. -/
def decodeTableWord (nbits w : Nat) : Option Instr :=
  match decode (tableWords nbits w) with
  | .legal i _ => some i
  | _ => none

end Sys2Proof
end

