-- ==== Sys2Proof/Machine/State.lean ====
section
/-! DEFINITION. The state of the machine (10_state.md R40 to R55), the model's own fields for its
ports (30_encoding.md R100), the reasons a step can stop, and the reset state (10_state.md R61). -/

namespace Sys2Proof.Machine

/-- One Biquad: five coefficients and two state words (R41, R130). -/
structure Biquad (F : Fmt) where
  b0 : Num F
  b1 : Num F
  b2 : Num F
  a1 : Num F
  a2 : Num F
  z1 : Num F
  z2 : Num F
  deriving DecidableEq, Repr

/-- The eight Biquads of a channel, BQ[c][0] to BQ[c][7], under the names of R41. -/
structure BiquadBank (F : Fmt) where
  lowLp0 : Biquad F
  lowLp1 : Biquad F
  midHp0 : Biquad F
  midHp1 : Biquad F
  midLp0 : Biquad F
  midLp1 : Biquad F
  highHp0 : Biquad F
  highHp1 : Biquad F
  deriving DecidableEq, Repr

/-- One Band Compressor: the envelope and the gain reduction, in dB (R44, R170). -/
structure Compressor (F : Fmt) where
  env : Num F
  gr : Num F
  deriving DecidableEq, Repr

/-- The three Band Compressors of a channel, BC[c][0] to BC[c][2] (R44). -/
structure CompBank (F : Fmt) where
  low : Compressor F
  mid : Compressor F
  high : Compressor F
  deriving DecidableEq, Repr

/-- The bank of one channel, in both files of R40. -/
structure Channel (F : Fmt) where
  bq : BiquadBank F
  bc : CompBank F
  deriving DecidableEq, Repr

/-- One settings snapshot SET[b] (R45). -/
structure Settings (F : Fmt) where
  thr : Num F
  ratio : Num F
  att : Num F
  rel : Num F
  makeup : Num F
  deriving DecidableEq, Repr

/-- SET[0], SET[1], SET[2], each `none` exactly while its SET_VALID bit is 0 (R50, R53). -/
structure SettingsFile (F : Fmt) where
  low : Option (Settings F)
  mid : Option (Settings F)
  high : Option (Settings F)
  deriving DecidableEq, Repr

/-- FS and DECAY_W, the two registers guarded by INITED (R46, R49, R53). -/
structure RateRegs (F : Fmt) where
  fs : Num F
  decayW : Num F
  deriving DecidableEq, Repr

/-- LOW_FREQ and HIGH_FREQ, the two registers guarded by XO_VALID (R48, R53). -/
structure XoRegs (F : Fmt) where
  lowFreq : Num F
  highFreq : Num F
  deriving DecidableEq, Repr

/-- The tuple of R40: the whole state of the hardware. The flags INITED, XO_VALID and SET_VALID[b]
are the tags of the optional registers they guard, `some` for 1 (R53; log entry 9). -/
structure Regs (F : Fmt) where
  /-- INITED with FS and DECAY_W. -/
  rate : Option (RateRegs F)
  /-- NCH (R47). -/
  nch : BitVec 8
  /-- The Biquad file BQ and the Band Compressor file BC, one bank per channel c < NCH (R41, R44). -/
  chans : List (Channel F)
  /-- XO_VALID with LOW_FREQ and HIGH_FREQ. -/
  xo : Option (XoRegs F)
  /-- SET_VALID and SET. -/
  set : SettingsFile F
  /-- BLOCK_PEAK (R49). -/
  blockPeak : Num F
  /-- PEAK (R49). -/
  peak : Num F
  /-- UI, "a UI is attached" (R50). -/
  ui : Bool
  /-- FAULT (R52). -/
  fault : BitVec 8
  /-- PEAK_HIST, oldest first (R54). -/
  peakHist : List (Num F)
  /-- UI_SEEN (R54). -/
  uiSeen : Nat
  deriving DecidableEq, Repr

/-- A band, b = 0, 1, 2 (R44). -/
inductive Band where
  | low
  | mid
  | high
  deriving DecidableEq, Repr

/-- The fault causes of 60_exceptions.md R239. -/
inductive FaultCode where
  /-- F_ILLEGAL: the header is not a legal command. -/
  | illegal
  /-- F_UNINIT: INITED = 0. -/
  | uninit
  /-- F_CHANNEL: c ≥ NCH. -/
  | channel
  /-- F_UNSET: a register whose validity flag is 0 would be read. -/
  | unset
  /-- F_ADDR: REG.RD of an unmapped address. -/
  | addr
  /-- F_PARAM: INIT with nch > NCH_MAX. -/
  | param
  /-- F_RANGE: the clamp bounds of XO.UPD are crossed or NaN. -/
  | range
  deriving DecidableEq, Repr

/-- One result of a command (R105): a value of FMT, or an unsigned integer. -/
inductive ResultWord (F : Fmt) where
  | num (x : Num F)
  | int (w : Word)
  deriving DecidableEq, Repr

/-- What the outside does to the block next (R80, R100; log entries 6, 7, 8). -/
inductive Input where
  /-- A word of AUDIO arrives on the command port. -/
  | word (w : Word)
  /-- UI reads the UI port. -/
  | uiRead
  /-- The reset input is asserted. -/
  | resetOn
  /-- The reset input is released. -/
  | resetOff
  deriving DecidableEq, Repr

/-- The MODEL's own fields, not the spec's: the streams of the four ports (R55, R100; log entries 5
to 8). -/
structure Ports where
  /-- Command port: words that have arrived and are not consumed. -/
  cmd : List Word
  /-- Response port: words sent, oldest first. -/
  resp : List Word
  /-- UI port: words returned, oldest first. -/
  uiOut : List Word
  /-- Outside events still to come, the next one first. -/
  inputs : List Input
  /-- Level of the reset input. -/
  inReset : Bool
  /-- How many free values have been drawn. -/
  draws : Nat
  deriving DecidableEq, Repr

/-- The state of the machine: NCH_MAX of this block, the spec's tuple and the ports. -/
structure State where
  /-- NCH_MAX, the largest channel count this block can be initialised with, 0 to 255 (00_scope.md R6;
  92_eei_decisions.md D23). It is an OPEN parameter, the MODEL's own field and not the spec's: no step
  changes it (log entry 4). -/
  nchMax : BitVec 8
  regs : Regs Config.fmt
  ports : Ports
  deriving DecidableEq, Repr

/-- Why a step stops with a fault: never. The one exception of this hardware is the sticky fault,
whose entry 60_exceptions.md R240 describes and which is a next state here, so this type has no
constructor. Safe (log entry 10). -/
inductive Fault where
  deriving DecidableEq, Repr

/-- Why the model refuses a step. -/
inductive Refusal where
  /-- Raised by `exec` alone, in the arm of an instruction that has no meaning yet; no arm of this
  model raises it. Safe. -/
  | notModelled (mnemonic : String)
  deriving DecidableEq, Repr

/-- The registers after hardware reset (R61, R260). -/
def Regs.reset {F : Fmt} : Regs F where
  rate := none
  nch := 0#8
  chans := []
  xo := none
  set := ⟨none, none, none⟩
  blockPeak := Num.zero
  peak := Num.zero
  ui := false
  fault := 0#8
  peakHist := [Num.zero]
  uiSeen := 0

/-- The machine right after hardware reset: the registers as R61 gives them, nothing on any port,
the reset input released. DESIGN CHOICE for the port fields (log entries 5, 7, 8) and NCH_MAX (log
entry 4). -/
def State.reset : State where
  nchMax := Config.nchMaxDefault
  regs := Regs.reset
  ports := { cmd := [], resp := [], uiOut := [], inputs := [], inReset := false, draws := 0 }

end Sys2Proof.Machine
end

