-- ==== Sys2Proof/Machine/Flags.lean ====
section
/-! DEFINITION. The flags and the STATUS view (10_state.md R50, R51, R53). No arithmetic result sets
a flag (R50), so there is no flag computation beyond these views. -/

namespace Sys2Proof.Machine

variable {F : Fmt}

/-- SET[b], `none` while SET_VALID[b] = 0 (R45, R53). -/
def SettingsFile.get (f : SettingsFile F) : Band → Option (Settings F)
  | .low => f.low
  | .mid => f.mid
  | .high => f.high

/-- SET[b] <- v and SET_VALID[b] <- 1 (R178). -/
def SettingsFile.put (f : SettingsFile F) (b : Band) (v : Settings F) : SettingsFile F :=
  match b with
  | .low => { f with low := some v }
  | .mid => { f with mid := some v }
  | .high => { f with high := some v }

/-- INITED (R50). -/
def Regs.inited (r : Regs F) : Bool := r.rate.isSome

/-- XO_VALID (R50). -/
def Regs.xoValid (r : Regs F) : Bool := r.xo.isSome

/-- SET_VALID[b] (R50). -/
def Regs.setValid (r : Regs F) (b : Band) : Bool := (r.set.get b).isSome

/-- One flag at one bit of STATUS. -/
def flagBit (f : Bool) (i : Nat) : Word := if f then BitVec.ofNat 32 (2 ^ i) else 0

/-- STATUS (R51): INITED at bit 0, UI at 1, XO_VALID at 2, SET_VALID[0..2] at 8 to 10. -/
def Regs.statusWord (r : Regs F) : Word :=
  flagBit r.inited 0 ||| flagBit r.ui 1 ||| flagBit r.xoValid 2 ||| flagBit (r.setValid .low) 8 |||
    flagBit (r.setValid .mid) 9 ||| flagBit (r.setValid .high) 10

end Sys2Proof.Machine
end

