-- ==== Sys2Proof/Machine/Operands.lean ====
section
/-! DEFINITION. Operand forms (30_encoding.md R104): the register a header field names, and how a
value becomes a word at a port (00_scope.md R12; 30_encoding.md R105). -/

namespace Sys2Proof.Machine

variable {F : Fmt}

/-- The band a legal b field names (R44, R108); none for b = 3 (R109 (c)). -/
def Band.ofField (b : BitVec 2) : Option Band :=
  match b with
  | 0#2 => some .low
  | 1#2 => some .mid
  | 2#2 => some .high
  | _ => none

/-- BQ[c][k] (R41). -/
def BiquadBank.get (f : BiquadBank F) (k : BitVec 3) : Biquad F :=
  match k with
  | 0#3 => f.lowLp0
  | 1#3 => f.lowLp1
  | 2#3 => f.midHp0
  | 3#3 => f.midHp1
  | 4#3 => f.midLp0
  | 5#3 => f.midLp1
  | 6#3 => f.highHp0
  | _ => f.highHp1

/-- BQ[c][k] <- v (R41). -/
def BiquadBank.put (f : BiquadBank F) (k : BitVec 3) (v : Biquad F) : BiquadBank F :=
  match k with
  | 0#3 => { f with lowLp0 := v }
  | 1#3 => { f with lowLp1 := v }
  | 2#3 => { f with midHp0 := v }
  | 3#3 => { f with midHp1 := v }
  | 4#3 => { f with midLp0 := v }
  | 5#3 => { f with midLp1 := v }
  | 6#3 => { f with highHp0 := v }
  | _ => { f with highHp1 := v }

/-- BC[c][b] (R44). -/
def CompBank.get (f : CompBank F) : Band → Compressor F
  | .low => f.low
  | .mid => f.mid
  | .high => f.high

/-- BC[c][b] <- v (R44). -/
def CompBank.put (f : CompBank F) (b : Band) (v : Compressor F) : CompBank F :=
  match b with
  | .low => { f with low := v }
  | .mid => { f with mid := v }
  | .high => { f with high := v }

/-- The word of a NaN encoding: exponent all ones, fraction nonzero (R11, R12). -/
def nanWord (c : NanCode) : Word := Num.signMagWord c.neg (Config.fmt.magCount + c.fracPred.val + 1)

/-- The word of a value at a port when `draws` free values have been drawn: its bit layout (R11), and
for NaN a free NaN encoding (R12). -/
def numWord (draws : Nat) : Value → Word
  | .nan => nanWord (Config.nanCode draws)
  | .inf s => Num.signMagWord s Config.fmt.magCount
  | .fin s m => Num.signMagWord s m

/-- How many free values a value draws when it crosses a port: one for NaN (R12). -/
def numDraws (x : Num F) : Nat := if x.isNan then 1 else 0

/-- The word of one result (R105). -/
def ResultWord.word (draws : Nat) : ResultWord Config.fmt → Word
  | .num x => numWord draws x
  | .int w => w

/-- How many free values one result draws. -/
def ResultWord.draws : ResultWord F → Nat
  | .num x => numDraws x
  | .int _ => 0

/-- The words of the results of a command, in order (R105). -/
def resultWords (draws : Nat) : List (ResultWord Config.fmt) → List Word
  | [] => []
  | r :: rs => r.word draws :: resultWords (draws + r.draws) rs

/-- How many free values the results of a command draw. -/
def resultDraws : List (ResultWord F) → Nat
  | [] => 0
  | r :: rs => r.draws + resultDraws rs

end Sys2Proof.Machine
end

