-- ==== Sys2Proof/Machine/Ops.lean ====
section
/-! DEFINITION. The named operations over registers and ports: responses (30_encoding.md R105), the
checks of 60_exceptions.md R238, taking a fault (R240), the fault state (R241), and the one
transaction every command is (20_memory.md R81). There is no return from a fault (R249); hardware
reset, which is the only way out, is in Machine/Ports.lean. -/

namespace Sys2Proof.Machine

variable {F : Fmt}

/-- The codes of R239. -/
def FaultCode.code : FaultCode → BitVec 8
  | .illegal => 1
  | .uninit => 2
  | .channel => 3
  | .unset => 4
  | .addr => 5
  | .param => 6
  | .range => 7

/-- What a command rule computes: a fault, or the registers it leaves and its results. Every check
comes before every write (R237), so a fault carries no registers. -/
abbrev Effect (F : Fmt) := Except FaultCode (Regs F × List (ResultWord F))

/-- The response header: OP in bits 31:24, bits 23:8 zero, the status in bits 7:0 (R105). -/
def respHeader (op status : BitVec 8) : Word := op.setWidth 32 <<< 24 ||| status.setWidth 32

/-- One response on the response port: the header, then the result words in order (R105). -/
def State.respond (s : State) (op status : BitVec 8) (rs : List (ResultWord Config.fmt)) :
    State :=
  { s with ports :=
    { s.ports with
      resp := s.ports.resp ++ respHeader op status :: resultWords s.ports.draws rs
      draws := s.ports.draws + resultDraws rs } }

/-- `raise Fault(code)` (R240): FAULT takes the code, every other state element keeps its value, the
response carries the code and no result. -/
def State.raise (s : State) (op : BitVec 8) (f : FaultCode) : State :=
  State.respond { s with regs := { s.regs with fault := f.code } } op f.code []

/-- The fault state (R241): the command is answered with the sticky code, nothing changes. -/
def State.refuse (s : State) (op : BitVec 8) : State := s.respond op s.regs.fault []

/-- A command that succeeds: its writes take effect together and its results go out (R9, R105). -/
def State.complete (s : State) (op : BitVec 8) (r : Regs Config.fmt)
    (rs : List (ResultWord Config.fmt)) : State :=
  State.respond { s with regs := r } op 0 rs

/-- One command with opcode byte `op` and the given rule (R81, R238): check 1 first, then the rule's
own checks and effect. -/
def runCommand (op : BitVec 8) (rule : Regs Config.fmt → Effect Config.fmt) (s : State) : State :=
  if s.regs.fault ≠ 0#8 then s.refuse op
  else
    match rule s.regs with
    | .error f => s.raise op f
    | .ok (r, rs) => s.complete op r rs

/-- Check 2 for the band field (R109 (c), R238): b = 3 raises F_ILLEGAL. -/
def needBand (b : BitVec 2) : Except FaultCode Band :=
  match Band.ofField b with
  | some b => .ok b
  | none => .error .illegal

/-- Check 3 (R238, R242): INITED = 0 raises F_UNINIT; else FS and DECAY_W can be read. -/
def Regs.needRate (r : Regs F) : Except FaultCode (RateRegs F) :=
  match r.rate with
  | some e => .ok e
  | none => .error .uninit

/-- The bank of channel c, if there is one: c < NCH (R40, R243). -/
def Regs.chan? (r : Regs F) (c : BitVec 8) : Option (Channel F) :=
  if c.toNat < r.nch.toNat then r.chans[c.toNat]? else none

/-- Check 4 (R238, R243): a channel beyond the allocated bank raises F_CHANNEL. -/
def Regs.needChan (r : Regs F) (c : BitVec 8) : Except FaultCode (Channel F) :=
  match r.chan? c with
  | some ch => .ok ch
  | none => .error .channel

/-- Check 5 (R238, R244): SET_VALID[b] = 0 raises F_UNSET. -/
def Regs.needSet (r : Regs F) (b : Band) : Except FaultCode (Settings F) :=
  match r.set.get b with
  | some v => .ok v
  | none => .error .unset

/-- The bank of channel c replaced. -/
def Regs.putChan (r : Regs F) (c : BitVec 8) (ch : Channel F) : Regs F :=
  { r with chans := r.chans.set c.toNat ch }

/-- BQ[c][k] <- v in the bank of a channel. -/
def Channel.putBq (ch : Channel F) (k : BitVec 3) (v : Biquad F) : Channel F :=
  { ch with bq := ch.bq.put k v }

/-- BC[c][b] <- v in the bank of a channel. -/
def Channel.putBc (ch : Channel F) (b : Band) (v : Compressor F) : Channel F :=
  { ch with bc := ch.bc.put b v }

end Sys2Proof.Machine
end

