-- ==== Sys2Proof/Machine/Trans.lean ====
section
/-! DEFINITION. The transcendental functions, their special cases fixed by 00_scope.md R20 to R23 and
every other value free through TF (R24), and the dB conversions (R25). -/

namespace Sys2Proof

variable {F : Fmt}

/-- A value of FMT from the range type of fcos, fsin and flog10. -/
def FiniteNum.toNum (x : FiniteNum F) : Num F := .fin x.neg x.mag

/-- A value of FMT from the range type of fexp and fpow. -/
def Magnitude.toNum (m : Magnitude F) : Num F := Num.ofMag false m.val

/-- The value is exactly the whole number n. -/
def Num.isNat (n : Nat) : Num F → Bool
  | .fin neg m => decide (Num.signedUnits F neg m = (n * 2 ^ F.unitExp : Nat))
  | _ => false

/-- The exponents n for which 10^n can be exact in FMT: 5^n has to fit the significand, which leaves
0 to 10 in binary32 (R22), and `Num.isNat` decides. -/
def Fmt.tenExponents (F : Fmt) : List Nat := List.range ((F.fracBits + 1) / 2 + 1)

/-- The n whose power of ten the value is, if any (R22). -/
def Num.powerOfTen (a : Num F) : Option Nat := F.tenExponents.find? fun n => a.isNat (10 ^ n)

/-- The whole number n that the value is, if any, with 10^n exact in FMT (R23). -/
def Num.exactExponent (a : Num F) : Option Nat :=
  F.tenExponents.find? fun n => a.isNat n && (Num.ofNat (F := F) (10 ^ n)).isNat (10 ^ n)

/-- `fcos(a)`, radians (R20): NaN for an infinity or NaN, 1 at ±0 (95_test_vectors.md V-BQ-7;
DEDUCED, log entry 2), else free. -/
def TF.fcos (tf : TF F) (a : Num F) : Num F :=
  match a with
  | .nan | .inf _ => .nan
  | .fin _ m => if m.val = 0 then Num.one else (tf.cos a).toNum

/-- `fsin(a)`, radians (R20): NaN for an infinity or NaN, a at ±0 (V-BQ-7; DEDUCED, log entry 2),
else free. -/
def TF.fsin (tf : TF F) (a : Num F) : Num F :=
  match a with
  | .nan | .inf _ => .nan
  | .fin _ m => if m.val = 0 then a else (tf.sin a).toNum

/-- `fexp(a)`, e^a (R21). -/
def TF.fexp (tf : TF F) (a : Num F) : Num F :=
  match a with
  | .nan => .nan
  | .inf neg => if neg then Num.zero else .inf false
  | .fin _ m => if m.val = 0 then Num.one else (tf.exp a).toNum

/-- `flog10(a)` (R22). -/
def TF.flog10 (tf : TF F) (a : Num F) : Num F :=
  match a with
  | .nan => .nan
  | .inf neg => if neg then .nan else .inf false
  | .fin neg m =>
    if m.val = 0 then .inf true
    else if neg then .nan
    else
      match a.powerOfTen with
      | some n => Num.ofNat n
      | none => (tf.log10 a).toNum

/-- `fpow(a, b)`, a^b (R23). The hardware uses it with a = 10 and a = DECAY_RATIO only; at a base for
which R23 gives no special case the value is free. -/
def TF.fpow (tf : TF F) (a b : Num F) : Num F :=
  match b with
  | .nan => .nan
  | .inf neg =>
    if a.gt Num.one then (if neg then Num.zero else .inf false)
    else if a.gt Num.zero && a.lt Num.one then (if neg then .inf false else Num.zero)
    else (tf.pow a b).toNum
  | .fin _ m =>
    if m.val = 0 then Num.one
    else if a.isNat 10 then
      match b.exactExponent with
      | some n => Num.ofNat (10 ^ n)
      | none => (tf.pow a b).toNum
    else (tf.pow a b).toNum

/-- `gain_to_db(g) = 20 · flog10(g)` (R25). -/
def TF.gainToDb (tf : TF F) (g : Num F) : Num F := (Num.ofNat 20).mul (tf.flog10 g)

/-- `db_to_gain(d) = fpow(10, d / 20)` (R25). -/
def TF.dbToGain (tf : TF F) (d : Num F) : Num F := tf.fpow (Num.ofNat 10) (d.div (Num.ofNat 20))

end Sys2Proof
end

