-- ==== Sys2Proof/Machine/Compressor.lean ====
section
/-! DEFINITION. The Band Compressor family (42_compressor.md): the micro-operations bc_process and
settings_resolve, and BC.SET, BC.STEP. -/

namespace Sys2Proof.Machine

variable {F : Fmt}

/-- Step 1 of bc_process, the rectifier (R173): the level in dB, NEG_INF_DB when `|x| > 0` is false. -/
def levelDb (p : Params F) (x : Num F) : Num F :=
  let a := x.abs
  if a.gt Num.zero then p.tf.gainToDb a else p.negInfDb

/-- The one-pole formula of steps 2 and 4: `(state · c) + (input · (1 − c))` (R174, R176). -/
def onePole (state input c : Num F) : Num F := (state.mul c).add (input.mul (Num.one.sub c))

/-- Step 2, the envelope follower (R174). -/
def envelopeStep (s : Settings F) (env level : Num F) : Num F :=
  onePole env level (if level.gt env then s.att else s.rel)

/-- Step 3, the static curve on the new envelope (R175). At ratio 1 the target is NaN also when
`env − thr` overflows, which R175's remark on finite values passes over (DESIGN CHOICE, log entry
24). -/
def targetReduction (s : Settings F) (env : Num F) : Num F :=
  if env.gt s.thr then (env.sub s.thr).neg.mul (Num.one.sub (Num.one.div s.ratio)) else Num.zero

/-- Step 4, the gain-reduction smoother, with the roles of attack and release reversed (R176). -/
def reductionStep (s : Settings F) (gr target : Num F) : Num F :=
  onePole gr target (if target.lt gr then s.att else s.rel)

/-- bc_process(bc, s, x) (R172): the output, and the compressor's new state. -/
def bcProcess (p : Params F) (bc : Compressor F) (s : Settings F) (x : Num F) :
    Num F × Compressor F :=
  let env := envelopeStep s bc.env (levelDb p x)
  let gr := reductionStep s bc.gr (targetReduction s env)
  let g := p.tf.dbToGain (gr.add s.makeup)
  (x.mul g, { env := env, gr := gr })

/-- The pole of a time in milliseconds: converted, floored in seconds, then `fexp(−1 / (t · fs))`
(R177). It follows R13, R21 and R177 at a product −0, where R182 (f), an inference of the spec, says
otherwise: `(−1) / (−0)` is +∞ (R13), so fs = −0 gives the pole +∞ (R21), not the +0 that R182 (f)
lists (DESIGN CHOICE, log entry 21). -/
def poleCoef (tf : TF F) (ms fs : Num F) : Num F :=
  let t := (ms.div (Num.ofNat 1000)).fmaxc (Num.ofDec Config.timeFloorS)
  tf.fexp (Num.one.neg.div (t.mul fs))

/-- settings_resolve (R177). -/
def settingsResolve (tf : TF F) (fs thresholdDb ratio attackMs releaseMs makeupDb : Num F) :
    Settings F where
  thr := thresholdDb
  ratio := ratio.fmaxc (Num.ofDec Config.ratioMin)
  att := poleCoef tf attackMs fs
  rel := poleCoef tf releaseMs fs
  makeup := makeupDb

/-- The rule of BC.SET (R178). -/
def Regs.bcSet (p : Params F) (b : BitVec 2) (thresholdDb ratio attackMs releaseMs makeupDb : Num F)
    (r : Regs F) : Effect F := do
  let b ← needBand b
  let e ← r.needRate
  return ({ r with
    set := r.set.put b (settingsResolve p.tf e.fs thresholdDb ratio attackMs releaseMs makeupDb) }, [])

/-- The rule of BC.STEP (R179). -/
def Regs.bcStep (p : Params F) (c : BitVec 8) (b : BitVec 2) (x : Num F) (r : Regs F) : Effect F := do
  let b ← needBand b
  let _ ← r.needRate
  let ch ← r.needChan c
  let s ← r.needSet b
  let (y, bc) := bcProcess p (ch.bc.get b) s x
  return (r.putChan c (ch.putBc b bc), [.num y])

/-- BC.SET b, threshold_db, ratio, attack_ms, release_ms, makeup_db. -/
def execBcSet (b : BitVec 2) (thresholdDb ratio attackMs releaseMs makeupDb : Word) (s : State) :
    Host.Outcome State Fault Refusal :=
  .next (runCommand Opcode.bcSet.code
    (Regs.bcSet Config.params b (Num.ofWord thresholdDb) (Num.ofWord ratio) (Num.ofWord attackMs)
      (Num.ofWord releaseMs) (Num.ofWord makeupDb)) s)

/-- BC.STEP c, b, x. -/
def execBcStep (c : BitVec 8) (b : BitVec 2) (x : Word) (s : State) :
    Host.Outcome State Fault Refusal :=
  .next (runCommand Opcode.bcStep.code (Regs.bcStep Config.params c b (Num.ofWord x)) s)

end Sys2Proof.Machine
end

