-- ==== Sys2Proof/Machine/Biquad.lean ====
section
/-! DEFINITION. The Biquad family (40_biquad.md): the micro-operations bq_new, bq_set_lowpass,
bq_set_highpass, bq_process, and BQ.SETLP, BQ.SETHP, BQ.STEP. -/

namespace Sys2Proof.Machine

variable {F : Fmt}

/-- bq_new(): the identity Biquad (R132). -/
def bqNew : Biquad F where
  b0 := Num.one
  b1 := Num.zero
  b2 := Num.zero
  a1 := Num.zero
  a2 := Num.zero
  z1 := Num.zero
  z2 := Num.zero

/-- The values bq_design leaves for both designs (R131). -/
structure BqDesign (F : Fmt) where
  cw : Num F
  a0 : Num F
  a1 : Num F
  a2 : Num F
  deriving DecidableEq, Repr

/-- `w = ((2 · PI) · freq) / fs` (R131). R140 (f), an inference of the spec, says NaN for freq = ±∞; the
formula with the IEEE division gives ±∞ unless fs is an infinity or NaN, and the model follows the
formula. Every coefficient is NaN either way (DESIGN CHOICE, log entry 22). -/
def bqOmega (p : Params F) (freq fs : Num F) : Num F := ((Num.two.mul p.pi).mul freq).div fs

/-- bq_design(freq, fs) (R131). -/
def bqDesign (p : Params F) (freq fs : Num F) : BqDesign F :=
  let w := bqOmega p freq fs
  let cw := p.tf.fcos w
  let sw := p.tf.fsin w
  let alpha := sw.div (Num.two.mul p.butterQ)
  let a0 := Num.one.add alpha
  { cw := cw
    a0 := a0
    a1 := (Num.two.neg.mul cw).div a0
    a2 := (Num.one.sub alpha).div a0 }

/-- bq_set_lowpass(bq, freq, fs) (R133): every register of the Biquad is written, z1 and z2 with +0. -/
def bqSetLowpass (p : Params F) (freq fs : Num F) : Biquad F :=
  let d := bqDesign p freq fs
  let t := Num.one.sub d.cw
  let b0 := (t.div Num.two).div d.a0
  { b0 := b0
    b1 := t.div d.a0
    b2 := b0
    a1 := d.a1
    a2 := d.a2
    z1 := Num.zero
    z2 := Num.zero }

/-- bq_set_highpass(bq, freq, fs) (R134): every register of the Biquad is written, z1 and z2 with
+0. -/
def bqSetHighpass (p : Params F) (freq fs : Num F) : Biquad F :=
  let d := bqDesign p freq fs
  let t := Num.one.add d.cw
  let b0 := (t.div Num.two).div d.a0
  { b0 := b0
    b1 := t.neg.div d.a0
    b2 := b0
    a1 := d.a1
    a2 := d.a2
    z1 := Num.zero
    z2 := Num.zero }

/-- bq_process(bq, x) (R138): the output, and the Biquad with its new z1 and z2. -/
def bqProcess (bq : Biquad F) (x : Num F) : Num F × Biquad F :=
  let y := (bq.b0.mul x).add bq.z1
  let z1 := ((bq.b1.mul x).sub (bq.a1.mul y)).add bq.z2
  let z2 := (bq.b2.mul x).sub (bq.a2.mul y)
  (y, { bq with z1 := z1, z2 := z2 })

/-- The rule of BQ.SETLP (R135). -/
def Regs.bqSetlp (p : Params F) (c : BitVec 8) (k : BitVec 3) (freq fs : Num F) (r : Regs F) :
    Effect F := do
  let _ ← r.needRate
  let ch ← r.needChan c
  return (r.putChan c (ch.putBq k (bqSetLowpass p freq fs)), [])

/-- The rule of BQ.SETHP (R136). -/
def Regs.bqSethp (p : Params F) (c : BitVec 8) (k : BitVec 3) (freq fs : Num F) (r : Regs F) :
    Effect F := do
  let _ ← r.needRate
  let ch ← r.needChan c
  return (r.putChan c (ch.putBq k (bqSetHighpass p freq fs)), [])

/-- The rule of BQ.STEP (R137). -/
def Regs.bqStep (c : BitVec 8) (k : BitVec 3) (x : Num F) (r : Regs F) : Effect F := do
  let _ ← r.needRate
  let ch ← r.needChan c
  let (y, bq) := bqProcess (ch.bq.get k) x
  return (r.putChan c (ch.putBq k bq), [.num y])

/-- BQ.SETLP c, k, freq, fs. -/
def execBqSetlp (c : BitVec 8) (k : BitVec 3) (freq fs : Word) (s : State) :
    Host.Outcome State Fault Refusal :=
  .next (runCommand Opcode.bqSetlp.code
    (Regs.bqSetlp Config.params c k (Num.ofWord freq) (Num.ofWord fs)) s)

/-- BQ.SETHP c, k, freq, fs. -/
def execBqSethp (c : BitVec 8) (k : BitVec 3) (freq fs : Word) (s : State) :
    Host.Outcome State Fault Refusal :=
  .next (runCommand Opcode.bqSethp.code
    (Regs.bqSethp Config.params c k (Num.ofWord freq) (Num.ofWord fs)) s)

/-- BQ.STEP c, k, x. -/
def execBqStep (c : BitVec 8) (k : BitVec 3) (x : Word) (s : State) :
    Host.Outcome State Fault Refusal :=
  .next (runCommand Opcode.bqStep.code (Regs.bqStep c k (Num.ofWord x)) s)

end Sys2Proof.Machine
end

