-- ==== Sys2Proof/Machine/Crossover.lean ====
section
/-! DEFINITION. The Crossover family (41_crossover.md): the micro-operations xo_design,
should_recompute, xo_clamp, xo_split, and XO.UPD, XO.SPLIT. -/

namespace Sys2Proof.Machine

variable {F : Fmt}

/-- xo_design(c, low, high, fs) (R151): the eight designs of one channel. -/
def xoDesign (p : Params F) (low high fs : Num F) : BiquadBank F where
  lowLp0 := bqSetLowpass p low fs
  lowLp1 := bqSetLowpass p low fs
  midHp0 := bqSetHighpass p low fs
  midHp1 := bqSetHighpass p low fs
  midLp0 := bqSetLowpass p high fs
  midLp1 := bqSetLowpass p high fs
  highHp0 := bqSetHighpass p high fs
  highHp1 := bqSetHighpass p high fs

/-- should_recompute(requested, current, threshold) (R152). -/
def shouldRecompute (requested current threshold : Num F) : Bool :=
  (requested.sub current).abs.gt threshold

/-- `recompute` of R154: XO_VALID = 0, or either request off its applied frequency by more than
HYST_HZ. -/
def xoMustRecompute (xo : Option (XoRegs F)) (reqLo reqHi : Num F) : Bool :=
  match xo with
  | none => true
  | some f =>
    shouldRecompute reqLo f.lowFreq (Num.ofDec Config.hystHz) ||
      shouldRecompute reqHi f.highFreq (Num.ofDec Config.hystHz)

/-- xo_clamp(req_lo, req_hi, fs) (R153): each pair of bounds is tested before its clamp, and F_RANGE
is raised when `lo ≤ hi` is false (R246). -/
def xoClamp (reqLo reqHi fs : Num F) : Except FaultCode (Num F × Num F) :=
  let nyq := fs.div Num.two
  let loMin := Num.ofDec Config.lowMinHz
  let loHi := nyq.mul (Num.ofDec Config.lowMaxFrac)
  if !loMin.le loHi then .error .range
  else
    let low := reqLo.clamp loMin loHi
    let hiLo := low.add (Num.ofDec Config.sepMinHz)
    let hiHi := nyq.mul (Num.ofDec Config.highMaxFrac)
    if !hiLo.le hiHi then .error .range
    else .ok (low, reqHi.clamp hiLo hiHi)

/-- xo_split(c, x) (R157): low, mid, high, and the bank with its sixteen new state words. -/
def xoSplit (f : BiquadBank F) (x : Num F) : (Num F × Num F × Num F) × BiquadBank F :=
  let (l0, q0) := bqProcess f.lowLp0 x
  let (low, q1) := bqProcess f.lowLp1 l0
  let (m0, q2) := bqProcess f.midHp0 x
  let (m1, q3) := bqProcess f.midHp1 m0
  let (m2, q4) := bqProcess f.midLp0 m1
  let (mid, q5) := bqProcess f.midLp1 m2
  let (h0, q6) := bqProcess f.highHp0 x
  let (high, q7) := bqProcess f.highHp1 h0
  ((low, mid, high), ⟨q0, q1, q2, q3, q4, q5, q6, q7⟩)

/-- The rule of XO.UPD (R154). -/
def Regs.xoUpd (p : Params F) (reqLo reqHi : Num F) (r : Regs F) : Effect F := do
  let e ← r.needRate
  if xoMustRecompute r.xo reqLo reqHi then
    let (low, high) ← xoClamp reqLo reqHi e.fs
    return ({ r with
      xo := some { lowFreq := low, highFreq := high }
      chans := r.chans.map fun ch => { ch with bq := xoDesign p low high e.fs } }, [.int 1])
  else
    return (r, [.int 0])

/-- The rule of XO.SPLIT (R158). -/
def Regs.xoSplit (c : BitVec 8) (x : Num F) (r : Regs F) : Effect F := do
  let _ ← r.needRate
  let ch ← r.needChan c
  let ((low, mid, high), bq) := Machine.xoSplit ch.bq x
  return (r.putChan c { ch with bq := bq }, [.num low, .num mid, .num high])

/-- XO.UPD req_lo_mid, req_mid_hi. -/
def execXoUpd (reqLoMid reqMidHi : Word) (s : State) : Host.Outcome State Fault Refusal :=
  .next (runCommand Opcode.xoUpd.code
    (Regs.xoUpd Config.params (Num.ofWord reqLoMid) (Num.ofWord reqMidHi)) s)

/-- XO.SPLIT c, x. -/
def execXoSplit (c : BitVec 8) (x : Word) (s : State) : Host.Outcome State Fault Refusal :=
  .next (runCommand Opcode.xoSplit.code (Regs.xoSplit c (Num.ofWord x)) s)

end Sys2Proof.Machine
end

