-- ==== Sys2Proof/Machine/PeakMeter.lean ====
section
/-! DEFINITION. The Peak Meter family (44_peak_meter.md): the micro-operations decay_weight and
pk_update, and PK.ATT, PK.UPD, PK.READ. The UI port read is in Machine/Ports.lean. -/

namespace Sys2Proof.Machine

variable {F : Fmt}

/-- decay_weight(fs) (R211). -/
def decayWeight (p : Params F) (fs : Num F) : Num F :=
  let n := (fs.mul (Num.ofDec p.decayMs)).div (Num.ofNat 1000)
  p.tf.fpow (Num.ofDec p.decayRatio) (Num.one.div n)

/-- The value pk_update stores (R212): instant attack, else geometric decay with weight w. R216 (f) and
R200 (c), inferences of the spec, call +∞ in PEAK permanent for every w > 0; the formula of R212 gives
NaN for a further +∞ at w ≥ 1 and for a finite p ≥ 0 at w = +∞, and the model follows the
formula (DESIGN CHOICE, log entry 23). -/
def peakNext (w s blockPeak : Num F) : Num F :=
  if blockPeak.gt s then blockPeak else (s.mul w).add (blockPeak.mul (Num.one.sub w))

/-- pk_update(p) (R212): one store to PEAK, appended to PEAK_HIST. -/
def Regs.pkUpdate (w blockPeak : Num F) (r : Regs F) : Regs F :=
  let v := peakNext w r.peak blockPeak
  { r with peak := v, peakHist := r.peakHist ++ [v] }

/-- The rule of PK.ATT (R210). -/
def Regs.pkAtt (f : BitVec 1) (r : Regs F) : Effect F := .ok ({ r with ui := f == 1 }, [])

/-- The rule of PK.UPD (R213). -/
def Regs.pkUpd (blockPeak : Num F) (r : Regs F) : Effect F := do
  let e ← r.needRate
  return (r.pkUpdate e.decayW blockPeak, [])

/-- The rule of PK.READ (R214). -/
def Regs.pkRead (r : Regs F) : Effect F := .ok (r, [.num r.peak])

/-- PK.ATT f. -/
def execPkAtt (f : BitVec 1) (s : State) : Host.Outcome State Fault Refusal :=
  .next (runCommand Opcode.pkAtt.code (Regs.pkAtt f) s)

/-- PK.UPD block_peak. -/
def execPkUpd (blockPeak : Word) (s : State) : Host.Outcome State Fault Refusal :=
  .next (runCommand Opcode.pkUpd.code (Regs.pkUpd (Num.ofWord blockPeak)) s)

/-- PK.READ. -/
def execPkRead (s : State) : Host.Outcome State Fault Refusal :=
  .next (runCommand Opcode.pkRead.code Regs.pkRead s)

end Sys2Proof.Machine
end

