-- ==== Sys2Proof/Machine/Engine.lean ====
section
/-! DEFINITION. The Engine family (43_engine.md): the micro-operation engine_sample, and INIT,
BLK.BEG, SAMPLE, BLK.END. -/

namespace Sys2Proof.Machine

variable {F : Fmt}

/-- The bank INIT gives a channel (R62, R191): eight identity Biquads, three fresh compressors. -/
def freshChannel (p : Params F) : Channel F where
  bq := ⟨bqNew, bqNew, bqNew, bqNew, bqNew, bqNew, bqNew, bqNew⟩
  bc :=
    let bc : Compressor F := { env := p.negInfDb, gr := Num.zero }
    ⟨bc, bc, bc⟩

/-- The rule of INIT at a block's NCH_MAX (R191): every bank is rebuilt, PEAK, UI, FAULT,
PEAK_HIST and UI_SEEN stay. -/
def Regs.init (p : Params F) (nchMax nch : BitVec 8) (fs : Num F) (r : Regs F) : Effect F :=
  if nchMax.toNat < nch.toNat then .error .param
  else
    .ok ({ r with
      nch := nch
      rate := some { fs := fs, decayW := decayWeight p fs }
      chans := List.replicate nch.toNat (freshChannel p)
      xo := none
      set := ⟨none, none, none⟩
      blockPeak := Num.zero }, [])

/-- The rule of BLK.BEG (R193). -/
def Regs.blkBeg (r : Regs F) : Effect F := do
  let _ ← r.needRate
  return ({ r with blockPeak := Num.zero }, [])

/-- The channel's part of engine_sample (R194): split, compress each band with its snapshot, sum low
plus mid, then high. -/
def engineSample (p : Params F) (sl sm sh : Settings F) (ch : Channel F) (x : Num F) :
    Num F × Channel F :=
  let ((low, mid, high), bq) := xoSplit ch.bq x
  let (yl, cl) := bcProcess p ch.bc.low sl low
  let (ym, cm) := bcProcess p ch.bc.mid sm mid
  let (yh, chh) := bcProcess p ch.bc.high sh high
  ((yl.add ym).add yh, { bq := bq, bc := ⟨cl, cm, chh⟩ })

/-- The running maximum of |output| (R194): a NaN magnitude does not enter it. -/
def blockPeakNext (peak y : Num F) : Num F := if y.abs.gt peak then y.abs else peak

/-- The rule of SAMPLE (R195). -/
def Regs.sample (p : Params F) (c : BitVec 8) (x : Num F) (r : Regs F) : Effect F := do
  let _ ← r.needRate
  let ch ← r.needChan c
  let sl ← r.needSet .low
  let sm ← r.needSet .mid
  let sh ← r.needSet .high
  let (y, ch') := engineSample p sl sm sh ch x
  return ({ r.putChan c ch' with blockPeak := blockPeakNext r.blockPeak y }, [.num y])

/-- The rule of BLK.END (R197). -/
def Regs.blkEnd (r : Regs F) : Effect F := do
  let e ← r.needRate
  if r.ui then return (r.pkUpdate e.decayW r.blockPeak, []) else return (r, [])

/-- INIT nch, fs. -/
def execInit (nch : BitVec 8) (fs : Word) (s : State) : Host.Outcome State Fault Refusal :=
  .next (runCommand Opcode.init.code (Regs.init Config.params s.nchMax nch (Num.ofWord fs)) s)

/-- BLK.BEG. -/
def execBlkBeg (s : State) : Host.Outcome State Fault Refusal :=
  .next (runCommand Opcode.blkBeg.code Regs.blkBeg s)

/-- SAMPLE c, x. -/
def execSample (c : BitVec 8) (x : Word) (s : State) : Host.Outcome State Fault Refusal :=
  .next (runCommand Opcode.sample.code (Regs.sample Config.params c (Num.ofWord x)) s)

/-- BLK.END. -/
def execBlkEnd (s : State) : Host.Outcome State Fault Refusal :=
  .next (runCommand Opcode.blkEnd.code Regs.blkEnd s)

end Sys2Proof.Machine
end

