-- ==== Sys2Proof/Machine/Readback.lean ====
section
/-! DEFINITION. The register address space (20_memory.md R82, R86; 45_readback.md R225 to R229), the
register names of 30_encoding.md R115, and REG.RD. -/

namespace Sys2Proof.Machine

variable {F : Fmt}

/-- The words of SET[b], in the order of R227. -/
inductive SetField where
  | thr | ratio | att | rel | makeup
  deriving DecidableEq, Repr

/-- The words of BQ[c][k], in the order of R227. -/
inductive BqField where
  | b0 | b1 | b2 | a1 | a2 | z1 | z2
  deriving DecidableEq, Repr

/-- The words of BC[c][b], in the order of R227. -/
inductive BcField where
  | env | gr
  deriving DecidableEq, Repr

/-- The registers of the address map (R115, R227). -/
inductive RegName where
  | fault | status | nch | fs | lowFreq | highFreq | decayW | blockPeak | peak
  | set (b : Band) (f : SetField)
  | bq (c : BitVec 8) (k : BitVec 3) (f : BqField)
  | bc (c : BitVec 8) (b : Band) (f : BcField)
  deriving DecidableEq, Repr

/-- b as a number (R44). -/
def Band.index : Band → Nat
  | .low => 0 | .mid => 1 | .high => 2

/-- The band of a number, if there is one. -/
def Band.ofIndex : Nat → Option Band
  | 0 => some .low | 1 => some .mid | 2 => some .high | _ => none

/-- The offset of a word of SET[b] (R227). -/
def SetField.offset : SetField → Nat
  | .thr => 0 | .ratio => 1 | .att => 2 | .rel => 3 | .makeup => 4

/-- The word of SET[b] at an offset; 5, 6, 7 are unmapped (R227). -/
def SetField.ofOffset : Nat → Option SetField
  | 0 => some .thr | 1 => some .ratio | 2 => some .att | 3 => some .rel | 4 => some .makeup
  | _ => none

/-- The offset of a word of BQ[c][k] (R227). -/
def BqField.offset : BqField → Nat
  | .b0 => 0 | .b1 => 1 | .b2 => 2 | .a1 => 3 | .a2 => 4 | .z1 => 5 | .z2 => 6

/-- The word of BQ[c][k] at an offset; 7 is unmapped (R227). -/
def BqField.ofOffset : Nat → Option BqField
  | 0 => some .b0 | 1 => some .b1 | 2 => some .b2 | 3 => some .a1 | 4 => some .a2 | 5 => some .z1
  | 6 => some .z2
  | _ => none

/-- The offset of a word of BC[c][b] (R227). -/
def BcField.offset : BcField → Nat
  | .env => 0 | .gr => 1

/-- The word of BC[c][b] at an offset (R227). -/
def BcField.ofOffset : Nat → Option BcField
  | 0 => some .env | 1 => some .gr | _ => none

/-- The address of a register, as a number (R227). -/
def RegName.addrNat : RegName → Nat
  | .fault => 0 | .status => 1 | .nch => 2 | .fs => 3 | .lowFreq => 4 | .highFreq => 5
  | .decayW => 6 | .blockPeak => 7 | .peak => 8
  | .set b f => 0x10 + 8 * b.index + f.offset
  | .bq c k f => 0x10000 + 0x100 * c.toNat + 8 * k.toNat + f.offset
  | .bc c b f => 0x10000 + 0x100 * c.toNat + 0x40 + 2 * b.index + f.offset

/-- The address of a register (R115, R227). -/
def RegName.addr (n : RegName) : BitVec 24 := BitVec.ofNat 24 n.addrNat

/-- The register of a global address, below 0x10000 (R227). -/
def RegName.ofGlobal (a : Nat) : Option RegName :=
  match a with
  | 0 => some .fault | 1 => some .status | 2 => some .nch | 3 => some .fs | 4 => some .lowFreq
  | 5 => some .highFreq | 6 => some .decayW | 7 => some .blockPeak | 8 => some .peak
  | _ =>
    if 0x10 ≤ a then do
      let b ← Band.ofIndex ((a - 0x10) / 8)
      let f ← SetField.ofOffset ((a - 0x10) % 8)
      return .set b f
    else none

/-- The register at an offset 0 to 0xFF of the bank of channel c (R227). -/
def RegName.ofBank (c : BitVec 8) (off : Nat) : Option RegName :=
  if off < 0x40 then do
    let f ← BqField.ofOffset (off % 8)
    return .bq c (BitVec.ofNat 3 (off / 8)) f
  else do
    let b ← Band.ofIndex ((off - 0x40) / 2)
    let f ← BcField.ofOffset ((off - 0x40) % 2)
    return .bc c b f

/-- The register an address names, whether or not its bank exists (R86, R227). -/
def RegName.ofAddr (addr : BitVec 24) : Option RegName :=
  let a := addr.toNat
  if a < 0x10000 then RegName.ofGlobal a
  else if a < 0x20000 then RegName.ofBank (BitVec.ofNat 8 ((a - 0x10000) / 0x100)) (a % 0x100)
  else none

/-- A word of SET[b]. -/
def Settings.field (s : Settings F) : SetField → Num F
  | .thr => s.thr | .ratio => s.ratio | .att => s.att | .rel => s.rel | .makeup => s.makeup

/-- A word of BQ[c][k]. -/
def Biquad.field (q : Biquad F) : BqField → Num F
  | .b0 => q.b0 | .b1 => q.b1 | .b2 => q.b2 | .a1 => q.a1 | .a2 => q.a2 | .z1 => q.z1 | .z2 => q.z2

/-- A word of BC[c][b]. -/
def Compressor.field (q : Compressor F) : BcField → Num F
  | .env => q.env | .gr => q.gr

/-- A guarded register's word, or F_UNSET while it is unset (R53, R228). -/
def readSet (v : Option (Num F)) : Except FaultCode (ResultWord F) :=
  match v with
  | some x => .ok (.num x)
  | none => .error .unset

/-- A word of a channel's bank, or F_ADDR while the bank does not exist (R227, R228). -/
def readBank (v : Option (Num F)) : Except FaultCode (ResultWord F) :=
  match v with
  | some x => .ok (.num x)
  | none => .error .addr

/-- The word of a register (R227); integer registers are zero-extended. -/
def Regs.read (r : Regs F) : RegName → Except FaultCode (ResultWord F)
  | .fault => .ok (.int (r.fault.setWidth 32))
  | .status => .ok (.int r.statusWord)
  | .nch => .ok (.int (r.nch.setWidth 32))
  | .fs => readSet (r.rate.map (·.fs))
  | .lowFreq => readSet (r.xo.map (·.lowFreq))
  | .highFreq => readSet (r.xo.map (·.highFreq))
  | .decayW => readSet (r.rate.map (·.decayW))
  | .blockPeak => .ok (.num r.blockPeak)
  | .peak => .ok (.num r.peak)
  | .set b f => readSet ((r.set.get b).map (·.field f))
  | .bq c k f => readBank ((r.chan? c).map fun ch => (ch.bq.get k).field f)
  | .bc c b f => readBank ((r.chan? c).map fun ch => (ch.bc.get b).field f)

/-- The rule of REG.RD (R226): unmapped before unset (R238). -/
def Regs.regRd (addr : BitVec 24) (r : Regs F) : Effect F :=
  match RegName.ofAddr addr with
  | none => .error .addr
  | some n => do
    let w ← r.read n
    return (r, [w])

/-- REG.RD addr. -/
def execRegRd (addr : BitVec 24) (s : State) : Host.Outcome State Fault Refusal :=
  .next (runCommand Opcode.regRd.code (Regs.regRd addr) s)

end Sys2Proof.Machine
end

