-- ==== Sys2Proof/Machine/Dispatch.lean ====
section
/-! DEFINITION. One command, by its constructor (30_encoding.md R107). -/

namespace Sys2Proof.Machine

def exec (i : Instr) (s : State) : Host.Outcome State Fault Refusal :=
  match i with
  | .init nch fs => Sys2Proof.Machine.execInit nch fs s
  | .blkBeg => Sys2Proof.Machine.execBlkBeg s
  | .sample c x => Sys2Proof.Machine.execSample c x s
  | .blkEnd => Sys2Proof.Machine.execBlkEnd s
  | .bqSetlp c k freq fs => Sys2Proof.Machine.execBqSetlp c k freq fs s
  | .bqSethp c k freq fs => Sys2Proof.Machine.execBqSethp c k freq fs s
  | .bqStep c k x => Sys2Proof.Machine.execBqStep c k x s
  | .xoUpd reqLoMid reqMidHi => Sys2Proof.Machine.execXoUpd reqLoMid reqMidHi s
  | .xoSplit c x => Sys2Proof.Machine.execXoSplit c x s
  | .bcSet b thresholdDb ratio attackMs releaseMs makeupDb => Sys2Proof.Machine.execBcSet b thresholdDb ratio attackMs releaseMs makeupDb s
  | .bcStep c b x => Sys2Proof.Machine.execBcStep c b x s
  | .pkAtt f => Sys2Proof.Machine.execPkAtt f s
  | .pkUpd blockPeak => Sys2Proof.Machine.execPkUpd blockPeak s
  | .pkRead => Sys2Proof.Machine.execPkRead s
  | .regRd addr => Sys2Proof.Machine.execRegRd addr s

end Sys2Proof.Machine
end

