-- ==== Sys2Proof/Machine/Ports.lean ====
section
/-! DEFINITION. What happens at the ports between commands (30_encoding.md R100): taking a command off
the command port (R110), an illegal command (R109), the UI port read (20_memory.md R87), the reset
input (70_reset_and_hazards.md R260), and the next outside event. -/

namespace Sys2Proof.Machine

/-- The words left on the command port once a command is taken off it (R103). -/
def State.withCmd (s : State) (ws : List Word) : State := { s with ports := { s.ports with cmd := ws } }

/-- What the command port holds next (R110); while reset is asserted no command is accepted (R260). -/
def fetch (s : State) : Decoded := if s.ports.inReset then .needMore else decode s.ports.cmd

/-- An illegal command: check 1, then F_ILLEGAL (R109, R238). -/
def illegalCommand (op : BitVec 8) (s : State) : State := runCommand op (fun _ => .error .illegal) s

/-- Hardware reset (R61, R260): the registers take their reset values and a command that has not
arrived whole is abandoned. What the ports have sent is not taken back. -/
def hardwareReset (s : State) : State :=
  { s with regs := Regs.reset, ports := { s.ports with cmd := [] } }

/-- The index a UI port read returns, a free j with UI_SEEN ≤ j ≤ n − 1 (R87; log entry 6). -/
def uiIndex (s : State) : Nat :=
  s.regs.uiSeen + Config.uiDraw s.ports.draws % (s.regs.peakHist.length - s.regs.uiSeen)

/-- The UI port read (R87, R215): one stored value of PEAK, in every state, the fault state
included. -/
def uiPortRead (s : State) : State :=
  let j := uiIndex s
  let v := s.regs.peakHist.getD j s.regs.peak
  { s with
    regs := { s.regs with uiSeen := j }
    ports :=
      { s.ports with
        uiOut := s.ports.uiOut ++ [numWord (s.ports.draws + 1) v]
        draws := s.ports.draws + 1 + numDraws v } }

/-- The reset input changes level (R260; log entry 8). -/
def setReset (on : Bool) (s : State) : State := { s with ports := { s.ports with inReset := on } }

/-- A word arrives on the command port; while reset is asserted it is lost (R260; log entry 8). -/
def arrive (w : Word) (s : State) : State :=
  if s.ports.inReset then s else s.withCmd (s.ports.cmd ++ [w])

/-- The effect of one outside event (R80, R100). -/
def Input.apply (ev : Input) (s : State) : State :=
  match ev with
  | .word w => arrive w s
  | .uiRead => uiPortRead s
  | .resetOn => setReset true (hardwareReset s)
  | .resetOff => setReset false s

/-- The next outside event happens; with none left the hardware is idle (R60, R256). -/
def takeInput (s : State) : State :=
  match s.ports.inputs with
  | [] => s
  | ev :: tl => ev.apply { s with ports := { s.ports with inputs := tl } }

end Sys2Proof.Machine
end

