-- ==== Sys2Proof/Machine/Step.lean ====
section
/-! DEFINITION. One step: a whole command that stands on the command port is performed (20_memory.md
R81); while there is none, the next outside event happens. -/

namespace Sys2Proof.Machine

/-- One step of the machine. -/
def step (s : State) : Host.Outcome State Fault Refusal :=
  match fetch s with
  | .legal i rest => exec i (s.withCmd rest)
  | .illegal _ op rest => .next (illegalCommand op (s.withCmd rest))
  | .needMore => .next (takeInput s)

/-- The state with the instruction whose bits are `w` on the command port, reset released: the next
step performs it (log entry 7). -/
def State.withFetchWord (s : State) (nbits w : Nat) : State :=
  { s with ports := { s.ports with cmd := tableWords nbits w, inReset := false } }

end Sys2Proof.Machine
end

