-- ==== Sys2Proof/Machine/Asm.lean ====
section
/-! DEFINITION. Assembler lines, operand literals, aliases and pseudo-instructions (30_encoding.md
R113 to R118). A line is a list of characters; it is no part of the machine's step. -/

namespace Sys2Proof.Machine.Asm

/-- Blanks between the parts of a line. -/
def isBlank (ch : Char) : Bool := ch == ' ' || ch == '\t'

/-- A line up to its comment, which a `;` starts (R113). -/
def stripComment (l : List Char) : List Char := l.takeWhile (· != ';')

/-- A part of a line without the blanks around it. -/
def trim (l : List Char) : List Char := ((l.dropWhile isBlank).reverse.dropWhile isBlank).reverse

/-- The parts of a list between separators. -/
def splitAt (sep : Char) : List Char → List (List Char)
  | [] => [[]]
  | ch :: tl =>
    match splitAt sep tl with
    | [] => [[ch]]
    | w :: ws => if ch == sep then [] :: w :: ws else (ch :: w) :: ws

/-- The value of a digit in a base up to 16. The spec writes hexadecimal digits in upper case only; both
cases are accepted (DESIGN CHOICE, log entry 18). -/
def digit (base : Nat) (ch : Char) : Option Nat :=
  let v :=
    if '0' ≤ ch ∧ ch ≤ '9' then ch.toNat - '0'.toNat
    else if 'a' ≤ ch ∧ ch ≤ 'f' then ch.toNat - 'a'.toNat + 10
    else if 'A' ≤ ch ∧ ch ≤ 'F' then ch.toNat - 'A'.toNat + 10
    else 16
  if v < base then some v else none

/-- The value of a digit string, most significant first, after the value read so far. -/
def digitsFrom (base acc : Nat) : List Char → Option Nat
  | [] => some acc
  | ch :: tl => do digitsFrom base (acc * base + (← digit base ch)) tl

/-- The value of a digit string that is not empty. Leading zeros are accepted, in index names too
(DESIGN CHOICE, log entry 18). -/
def digits (base : Nat) (l : List Char) : Option Nat :=
  if l.isEmpty then none else digitsFrom base 0 l

/-- An unsigned integer, decimal or `0x` hexadecimal (R113), with any number of digits and a lower-case
`x` (DESIGN CHOICE, log entry 18). -/
def natLit : List Char → Option Nat
  | '0' :: 'x' :: tl => digits 16 tl
  | l => digits 10 l

/-- A number below a bound. -/
def below (bound : Nat) (n : Option Nat) : Option Nat := n.filter (· < bound)

/-- `c<n>`, c0 to c254 (R113); `c007` is c7 (DESIGN CHOICE, log entry 18). -/
def chanArg : List Char → Option (BitVec 8)
  | 'c' :: tl => (below 255 (digits 10 tl)).map (BitVec.ofNat 8)
  | _ => none

/-- `q<k>`, or a Biquad's alias (R113, R115); `q03` is q3 (DESIGN CHOICE, log entry 18). -/
def biquadArg (l : List Char) : Option (BitVec 3) :=
  match l with
  | 'q' :: tl => (below 8 (digits 10 tl)).map (BitVec.ofNat 3)
  | _ =>
    if l = "low_lp0".toList then some 0
    else if l = "low_lp1".toList then some 1
    else if l = "mid_hp0".toList then some 2
    else if l = "mid_hp1".toList then some 3
    else if l = "mid_lp0".toList then some 4
    else if l = "mid_lp1".toList then some 5
    else if l = "high_hp0".toList then some 6
    else if l = "high_hp1".toList then some 7
    else none

/-- `b<n>`, or a band's alias (R113, R115); `b01` is b1 (DESIGN CHOICE, log entry 18). -/
def bandArg (l : List Char) : Option Band :=
  match l with
  | 'b' :: tl => (digits 10 tl).bind Band.ofIndex
  | _ =>
    if l = "low".toList then some .low
    else if l = "mid".toList then some .mid
    else if l = "high".toList then some .high
    else none

/-- The b field of a band. -/
def bandField (b : Band) : BitVec 2 := BitVec.ofNat 2 b.index

/-- The mantissa of a decimal literal as `num / den`: digits, with at most one point among them. R114
shows no form without a digit before or after the point; `.5` and `5.` are accepted and a point alone
is not (DESIGN CHOICE, log entry 18). -/
def mantissa (l : List Char) : Option Dec :=
  match splitAt '.' l with
  | [whole] => (digits 10 whole).map fun n => ⟨n, 1⟩
  | [whole, frac] => (digits 10 (whole ++ frac)).map fun n => ⟨n, 10 ^ frac.length⟩
  | _ => none

/-- A decimal literal without sign: a mantissa and an optional power of ten (R114). R114 gives four
examples and no grammar. The forms accepted are the model's choice: the exponent follows a lower-case
`e`, with a minus sign or none, so that `1E-3` and `1e+3` are no literals, and the only sign before a
literal is the minus `realArg` reads, so that `+5` is none (DESIGN CHOICE, log entry 18). -/
def decimal (l : List Char) : Option Dec :=
  match splitAt 'e' l with
  | [m] => mantissa m
  | [m, '-' :: e] => do
    let d ← mantissa m
    let n ← digits 10 e
    return ⟨d.num, d.den * 10 ^ n⟩
  | [m, e] => do
    let d ← mantissa m
    let n ← digits 10 e
    return ⟨d.num * 10 ^ n, d.den⟩
  | _ => none

/-- The word of a value that is not NaN. -/
def plainWord : Value → Word
  | .nan => 0x7FC00000
  | .inf s => Num.signMagWord s Config.fmt.magCount
  | .fin s m => Num.signMagWord s m

/-- A real operand: a decimal literal, rounded; `0x` and eight hexadecimal digits, the word itself;
`inf`, `-inf` or `nan` (R114). -/
def realArg (l : List Char) : Option Word :=
  if l = "inf".toList then some (plainWord (.inf false))
  else if l = "-inf".toList then some (plainWord (.inf true))
  else if l = "nan".toList then some 0x7FC00000
  else
    match l with
    | '0' :: 'x' :: tl => if tl.length = 8 then (digits 16 tl).map (BitVec.ofNat 32) else none
    | '-' :: tl => (decimal tl).map fun d => plainWord (Num.ofDec d).neg
    | _ => (decimal l).map fun d => plainWord (Num.ofDec d)

/-- The global registers by name (R115). -/
def globalName (l : List Char) : Option RegName :=
  if l = "FAULT".toList then some .fault
  else if l = "STATUS".toList then some .status
  else if l = "NCH".toList then some .nch
  else if l = "FS".toList then some .fs
  else if l = "LOW_FREQ".toList then some .lowFreq
  else if l = "HIGH_FREQ".toList then some .highFreq
  else if l = "DECAY_W".toList then some .decayW
  else if l = "BLOCK_PEAK".toList then some .blockPeak
  else if l = "PEAK".toList then some .peak
  else none

/-- A word of SET[b] by name. -/
def setFieldName (l : List Char) : Option SetField :=
  if l = "thr".toList then some .thr
  else if l = "ratio".toList then some .ratio
  else if l = "att".toList then some .att
  else if l = "rel".toList then some .rel
  else if l = "makeup".toList then some .makeup
  else none

/-- A word of BQ[c][k] by name. -/
def bqFieldName (l : List Char) : Option BqField :=
  if l = "b0".toList then some .b0
  else if l = "b1".toList then some .b1
  else if l = "b2".toList then some .b2
  else if l = "a1".toList then some .a1
  else if l = "a2".toList then some .a2
  else if l = "z1".toList then some .z1
  else if l = "z2".toList then some .z2
  else none

/-- A word of BC[c][b] by name. -/
def bcFieldName (l : List Char) : Option BcField :=
  if l = "env".toList then some .env else if l = "gr".toList then some .gr else none

/-- A register name of R115. R115 gives the forms `c<n>.q<k>.x`, `c<n>.b<m>.x` and `SET<b>.x`, and does
not say whether an alias may stand for an index inside one. `c0.low_lp0.b0` and `c0.low.env` are
accepted, `SETlow.thr` is not, and `SET01.thr` is SET1 (DESIGN CHOICE, log entry 18). -/
def regName (l : List Char) : Option RegName :=
  match splitAt '.' l with
  | [g] => globalName g
  | ['S' :: 'E' :: 'T' :: b, f] => do
    return .set (← (digits 10 b).bind Band.ofIndex) (← setFieldName f)
  | [c, u, f] =>
    (do return .bq (← chanArg c) (← biquadArg u) (← bqFieldName f)) <|>
      (do return .bc (← chanArg c) (← bandArg u) (← bcFieldName f))
  | _ => none

/-- The operand of REG.RD: an address below 2^24, or a register name (R113, R115). -/
def addrArg (l : List Char) : Option (BitVec 24) :=
  ((below (2 ^ 24) (natLit l)).map (BitVec.ofNat 24)) <|> ((regName l).map RegName.addr)

/-- One command from its mnemonic and arguments (R113), the pseudo-instructions of R117 among
them. -/
def command (m : List Char) (args : List (List Char)) : Option Instr :=
  if m = "INIT".toList then
    match args with
    | [n, fs] => do return .init (BitVec.ofNat 8 (← below 256 (natLit n))) (← realArg fs)
    | _ => none
  else if m = "INITIALIZE".toList then
    match args with
    | [fs, n] => do return .init (BitVec.ofNat 8 (← below 256 (natLit n))) (← realArg fs)
    | _ => none
  else if m = "BLK.BEG".toList then
    if args = [] then some .blkBeg else none
  else if m = "SAMPLE".toList then
    match args with
    | [c, x] => do return .sample (← chanArg c) (← realArg x)
    | _ => none
  else if m = "BLK.END".toList then
    if args = [] then some .blkEnd else none
  else if m = "BQ.SETLP".toList then
    match args with
    | [c, k, f, fs] => do
      return .bqSetlp (← chanArg c) (← biquadArg k) (← realArg f) (← realArg fs)
    | _ => none
  else if m = "BQ.SETHP".toList then
    match args with
    | [c, k, f, fs] => do
      return .bqSethp (← chanArg c) (← biquadArg k) (← realArg f) (← realArg fs)
    | _ => none
  else if m = "BQ.STEP".toList then
    match args with
    | [c, k, x] => do return .bqStep (← chanArg c) (← biquadArg k) (← realArg x)
    | _ => none
  else if m = "XO.UPD".toList ∨
      m = "UPDATE_CROSSOVERS".toList then
    match args with
    | [lo, hi] => do return .xoUpd (← realArg lo) (← realArg hi)
    | _ => none
  else if m = "XO.SPLIT".toList then
    match args with
    | [c, x] => do return .xoSplit (← chanArg c) (← realArg x)
    | _ => none
  else if m = "BC.SET".toList then
    match args with
    | [b, t, r, a, l, g] => do
      return .bcSet (bandField (← bandArg b)) (← realArg t) (← realArg r) (← realArg a)
        (← realArg l) (← realArg g)
    | _ => none
  else if m = "BC.STEP".toList then
    match args with
    | [c, b, x] => do return .bcStep (← chanArg c) (bandField (← bandArg b)) (← realArg x)
    | _ => none
  else if m = "PK.ATT".toList then
    match args with
    | [f] => do return .pkAtt (BitVec.ofNat 1 (← below 2 (natLit f)))
    | _ => none
  else if m = "PK.UPD".toList then
    match args with
    | [p] => do return .pkUpd (← realArg p)
    | _ => none
  else if m = "PK.READ".toList ∨
      m = "READ_PEAK_METER".toList then
    if args = [] then some .pkRead else none
  else if m = "REG.RD".toList then
    match args with
    | [a] => do return .regRd (← addrArg a)
    | _ => none
  else none

/-- The arguments after a mnemonic, none when nothing stands there. -/
def arguments (l : List Char) : List (List Char) :=
  if (trim l).isEmpty then [] else (splitAt ',' l).map trim

/-- One line (R113): no command for a blank line, a comment or an expectation `-> …`, else one. -/
def line (l : List Char) : Option (List Instr) :=
  match trim (stripComment l) with
  | [] => some []
  | '-' :: '>' :: _ => some []
  | l => (command (l.takeWhile (!isBlank ·)) (arguments (l.dropWhile (!isBlank ·)))).map ([·])

/-- The words of a line (R116). -/
def lineWords (l : List Char) : Option (List Word) := (line l).map (·.flatMap encode)

/-- The five operands of one band's BC.SET (R118). -/
structure BandParams where
  thresholdDb : Word
  ratio : Word
  attackMs : Word
  releaseMs : Word
  makeupDb : Word
  deriving DecidableEq, Repr

/-- BC.SET for a band. -/
def BandParams.command (p : BandParams) (b : BitVec 2) : Instr :=
  .bcSet b p.thresholdDb p.ratio p.attackMs p.releaseMs p.makeupDb

/-- The SAMPLE commands of one frame, channel 0 first (R118). -/
def frame (xs : List Word) : List Instr :=
  xs.zipIdx.map fun xc => .sample (BitVec.ofNat 8 xc.2) xc.1

/-- PROCESS_BLOCK (R118): `frames` holds, for each sample index i, the samples of the channels. -/
def processBlock (p0 p1 p2 : BandParams) (loMid midHi : Word) (frames : List (List Word)) :
    List Instr :=
  [p0.command 0, p1.command 1, p2.command 2, .xoUpd loMid midHi, .blkBeg] ++
    frames.flatMap frame ++ [.blkEnd]

end Sys2Proof.Machine.Asm
end

