-- ==== Sys2Proof/Safety.lean ====
section
/-! DEFINITION. What counts as a safe state and the named properties claims are stated in: the
invariants of 10_state.md R63, the pairing of a cascade, the register table of 45_readback.md R227,
RN over the real numbers (00_scope.md R13), the accuracy bound of TF and TF_ref (R24), and eventual
visibility at the UI port (20_memory.md R88). -/

namespace Sys2Proof.Machine

variable {F : Fmt}

/-- The invariants of the registers. -/
structure Regs.Inv (r : Regs F) : Prop where
  /-- INITED = 0 implies NCH = 0, XO_VALID = 0, SET_VALID = 0 (R63 (a)). -/
  uninit : r.rate = none → r.nch = 0#8 ∧ r.xo = none ∧ r.set = ⟨none, none, none⟩
  /-- Both files have exactly NCH channels (R63 (b), R47). -/
  banks : r.chans.length = r.nch.toNat
  /-- BLOCK_PEAK is never NaN and never negative (R63 (e)). -/
  blockPeak : r.blockPeak.isNan = false ∧ r.blockPeak.signBit = false
  /-- PEAK is the last element of PEAK_HIST (R54, R89). -/
  peakLast : r.peakHist.getLast? = some r.peak
  /-- UI_SEEN is an index of PEAK_HIST (R54). -/
  seen : r.uiSeen < r.peakHist.length
  /-- FAULT holds no code above 7 (R239). -/
  fault : r.fault.toNat ≤ 7
  /-- A settings snapshot has ratio ≥ 1 (R45, R182 (e)). -/
  ratio : ∀ b v, r.set.get b = some v → Num.one.le v.ratio = true
  /-- The applied split frequencies: 10 ≤ LOW_FREQ, and LOW_FREQ + 10 ≤ HIGH_FREQ unless HIGH_FREQ is
  NaN (92_eei_decisions.md D16; R156 (c)). -/
  split : ∀ f, r.xo = some f →
    (Num.ofDec Config.lowMinHz).le f.lowFreq = true ∧
      (f.highFreq = .nan ∨ (f.lowFreq.add (Num.ofDec Config.sepMinHz)).le f.highFreq = true)

/-- The invariant of the machine: the registers' invariant, the bound of NCH by this block's NCH_MAX,
and while the reset input is asserted the registers hold their reset values and no command waits
(R260). -/
structure State.Inv (s : State) : Prop where
  regs : s.regs.Inv
  /-- NCH ≤ NCH_MAX (R47). -/
  nchBound : s.regs.nch.toNat ≤ s.nchMax.toNat
  reset : s.ports.inReset = true → s.regs = Regs.reset ∧ s.ports.cmd = []

/-- The five coefficients of two Biquads are equal. -/
def Biquad.SameCoefs (q q' : Biquad F) : Prop :=
  q.b0 = q'.b0 ∧ q.b1 = q'.b1 ∧ q.b2 = q'.b2 ∧ q.a1 = q'.a1 ∧ q.a2 = q'.a2

/-- The coefficients of two banks are equal, Biquad by Biquad. -/
def BiquadBank.SameCoefs (f f' : BiquadBank F) : Prop := ∀ k, (f.get k).SameCoefs (f'.get k)

/-- The two Biquads of every cascade hold equal coefficients (R63 (c), R150). -/
def BiquadBank.Paired (f : BiquadBank F) : Prop :=
  f.lowLp0.SameCoefs f.lowLp1 ∧ f.midHp0.SameCoefs f.midHp1 ∧ f.midLp0.SameCoefs f.midLp1 ∧
    f.highHp0.SameCoefs f.highHp1

/-- Every bank is paired. -/
def Regs.Paired (r : Regs F) : Prop := ∀ ch ∈ r.chans, ch.bq.Paired

end Sys2Proof.Machine

namespace Sys2Proof.Safety

open Sys2Proof.Machine

variable {F : Fmt}

/-- The state after a successful command (R9, R105): the registers it leaves, and its response on the
response port, header first; each NaN result draws one free encoding (R12). -/
def answered (s : State) (r : Regs Config.fmt) (header : Word)
    (results : List (ResultWord Config.fmt)) : State where
  nchMax := s.nchMax
  regs := r
  ports :=
    { s.ports with
      resp := s.ports.resp ++ header :: resultWords s.ports.draws results
      draws := s.ports.draws + resultDraws results }

/-- The state after a fault (R240): FAULT holds the code, the response is the one header, nothing else
changes. -/
def faulted (s : State) (header : Word) (code : BitVec 8) : State where
  nchMax := s.nchMax
  regs := { s.regs with fault := code }
  ports := { s.ports with resp := s.ports.resp ++ [header] }

/-- An address of the table of R227 that exists when NCH is `nch`. -/
def AddrMapped (nch a : Nat) : Prop :=
  a ≤ 8 ∨ (0x10 ≤ a ∧ a < 0x28 ∧ (a - 0x10) % 8 ≤ 4) ∨
    (0x10000 ≤ a ∧ a < 0x10000 + 0x100 * nch ∧
      (a % 0x100 < 0x40 ∧ a % 8 ≤ 6 ∨ 0x40 ≤ a % 0x100 ∧ a % 0x100 ≤ 0x45))

/-- BQ[c][k] of a bank under the name R41 gives each index. -/
inductive BqAt (f : BiquadBank F) : Nat → Biquad F → Prop where
  | lowLp0 : BqAt f 0 f.lowLp0
  | lowLp1 : BqAt f 1 f.lowLp1
  | midHp0 : BqAt f 2 f.midHp0
  | midHp1 : BqAt f 3 f.midHp1
  | midLp0 : BqAt f 4 f.midLp0
  | midLp1 : BqAt f 5 f.midLp1
  | highHp0 : BqAt f 6 f.highHp0
  | highHp1 : BqAt f 7 f.highHp1

/-- BC[c][b] of a bank: band 0 is low, 1 mid, 2 high (R44). -/
inductive BcAt (f : CompBank F) : Nat → Compressor F → Prop where
  | low : BcAt f 0 f.low
  | mid : BcAt f 1 f.mid
  | high : BcAt f 2 f.high

/-- SET[b]: band 0 is low, 1 mid, 2 high; `none` while the snapshot is unset (R44, R45, R53). -/
inductive SetAt (f : SettingsFile F) : Nat → Option (Settings F) → Prop where
  | low : SetAt f 0 f.low
  | mid : SetAt f 1 f.mid
  | high : SetAt f 2 f.high

/-- An address of the table of R227 whose register is unset (last column). -/
def AddrUnset (r : Regs F) (a : Nat) : Prop :=
  (a = 3 ∨ a = 6) ∧ r.rate = none ∨ (a = 4 ∨ a = 5) ∧ r.xo = none ∨
    ∃ b f : Nat, f ≤ 4 ∧ a = 0x10 + 8 * b + f ∧ SetAt r.set b none

/-- The table of R227: the word the register at an address holds. -/
inductive RegisterWord (r : Regs F) : Nat → ResultWord F → Prop where
  | fault : RegisterWord r 0x000000 (.int (r.fault.setWidth 32))
  | status : RegisterWord r 0x000001 (.int r.statusWord)
  | nch : RegisterWord r 0x000002 (.int (r.nch.setWidth 32))
  | fs (e : RateRegs F) : r.rate = some e → RegisterWord r 0x000003 (.num e.fs)
  | lowFreq (f : XoRegs F) : r.xo = some f → RegisterWord r 0x000004 (.num f.lowFreq)
  | highFreq (f : XoRegs F) : r.xo = some f → RegisterWord r 0x000005 (.num f.highFreq)
  | decayW (e : RateRegs F) : r.rate = some e → RegisterWord r 0x000006 (.num e.decayW)
  | blockPeak : RegisterWord r 0x000007 (.num r.blockPeak)
  | peak : RegisterWord r 0x000008 (.num r.peak)
  | thr (b : Nat) (v : Settings F) : SetAt r.set b (some v) →
      RegisterWord r (0x000010 + 8 * b + 0) (.num v.thr)
  | ratio (b : Nat) (v : Settings F) : SetAt r.set b (some v) →
      RegisterWord r (0x000010 + 8 * b + 1) (.num v.ratio)
  | att (b : Nat) (v : Settings F) : SetAt r.set b (some v) →
      RegisterWord r (0x000010 + 8 * b + 2) (.num v.att)
  | rel (b : Nat) (v : Settings F) : SetAt r.set b (some v) →
      RegisterWord r (0x000010 + 8 * b + 3) (.num v.rel)
  | makeup (b : Nat) (v : Settings F) : SetAt r.set b (some v) →
      RegisterWord r (0x000010 + 8 * b + 4) (.num v.makeup)
  | b0 (c : BitVec 8) (k : Nat) (ch : Channel F) (q : Biquad F) :
      r.chan? c = some ch → BqAt ch.bq k q →
      RegisterWord r (0x010000 + 0x100 * c.toNat + 8 * k + 0) (.num q.b0)
  | b1 (c : BitVec 8) (k : Nat) (ch : Channel F) (q : Biquad F) :
      r.chan? c = some ch → BqAt ch.bq k q →
      RegisterWord r (0x010000 + 0x100 * c.toNat + 8 * k + 1) (.num q.b1)
  | b2 (c : BitVec 8) (k : Nat) (ch : Channel F) (q : Biquad F) :
      r.chan? c = some ch → BqAt ch.bq k q →
      RegisterWord r (0x010000 + 0x100 * c.toNat + 8 * k + 2) (.num q.b2)
  | a1 (c : BitVec 8) (k : Nat) (ch : Channel F) (q : Biquad F) :
      r.chan? c = some ch → BqAt ch.bq k q →
      RegisterWord r (0x010000 + 0x100 * c.toNat + 8 * k + 3) (.num q.a1)
  | a2 (c : BitVec 8) (k : Nat) (ch : Channel F) (q : Biquad F) :
      r.chan? c = some ch → BqAt ch.bq k q →
      RegisterWord r (0x010000 + 0x100 * c.toNat + 8 * k + 4) (.num q.a2)
  | z1 (c : BitVec 8) (k : Nat) (ch : Channel F) (q : Biquad F) :
      r.chan? c = some ch → BqAt ch.bq k q →
      RegisterWord r (0x010000 + 0x100 * c.toNat + 8 * k + 5) (.num q.z1)
  | z2 (c : BitVec 8) (k : Nat) (ch : Channel F) (q : Biquad F) :
      r.chan? c = some ch → BqAt ch.bq k q →
      RegisterWord r (0x010000 + 0x100 * c.toNat + 8 * k + 6) (.num q.z2)
  | env (c : BitVec 8) (b : Nat) (ch : Channel F) (q : Compressor F) :
      r.chan? c = some ch → BcAt ch.bc b q →
      RegisterWord r (0x010000 + 0x100 * c.toNat + 0x40 + 2 * b + 0) (.num q.env)
  | gr (c : BitVec 8) (b : Nat) (ch : Channel F) (q : Compressor F) :
      r.chan? c = some ch → BcAt ch.bc b q →
      RegisterWord r (0x010000 + 0x100 * c.toNat + 0x40 + 2 * b + 1) (.num q.gr)

/-- A command sequence performed in order (R81), each command on the state the one before it left. -/
def perform : List Instr → State → State
  | [], s => s
  | i :: tl, s =>
    match exec i s with
    | .next t => perform tl t
    | _ => s

/-- The real number a finite value stands for. -/
def IsReal (x : Num F) (v : ℝ) : Prop :=
  ∃ neg m, x = .fin neg m ∧ v = (Num.signedUnits F neg m.val : ℝ) / 2 ^ F.unitExp

/-- x is RN(r) (R13): from the overflow threshold on, half a spacing above the greatest finite value,
the infinity of r's sign; below it a finite value nearest to r, with the even last significand bit if a
value of another magnitude is as near, and with r's sign. RN leaves the sign of the zero open at
r = 0. -/
def IsRN (x : Num F) (r : ℝ) : Prop :=
  let threshold : ℝ := 2 ^ (F.bias + 1) - 2 ^ ((F.bias : ℤ) - F.fracBits - 1)
  let dist := fun (s : Bool) (m : Fin F.magCount) =>
    |(Num.signedUnits F s m.val : ℝ) / 2 ^ F.unitExp - r|
  match x with
  | .nan => False
  | .inf neg => threshold ≤ if neg then -r else r
  | .fin neg m =>
    |r| < threshold ∧ (0 < r → neg = false) ∧ (r < 0 → neg = true) ∧
      ∀ s n, dist neg m ≤ dist s n ∧ (dist neg m = dist s n → m ≠ n → m.val % 2 = 0)

/-- A value lies within `ulps` units in the last place of the real number r (R24). The unit at r is the
spacing of FMT at |r|: the least subnormal at least, and at most that of the greatest finite values. An
infinity counts as the first power of two beyond the finite values and everything above it (R21,
R23). R24 does not define the unit: DESIGN CHOICE (log entry 2). -/
def WithinUlps (ulps : ℝ) (x : Num F) (r : ℝ) : Prop :=
  match x with
  | .nan => False
  | .inf neg =>
    (2 : ℝ) ^ (F.bias + 1) - ulps * 2 ^ ((F.bias : ℤ) - F.fracBits) ≤ if neg then -r else r
  | .fin neg m =>
    |(Num.signedUnits F neg m.val : ℝ) / 2 ^ F.unitExp - r| ≤
      ulps * max ((2 : ℝ) ^ (min (Int.log 2 |r|) F.bias - F.fracBits)) (2 ^ (-(F.unitExp : ℤ)))

/-- What TF answers satisfies a property of the answer and the exact result, wherever the operands are
finite and the exact result is a finite number that is not 0 (R24). -/
structure TfMeets (P : Num F → ℝ → Prop) (tf : TF F) : Prop where
  cos : ∀ a v, IsReal a v → Real.cos v ≠ 0 → P (tf.fcos a) (Real.cos v)
  sin : ∀ a v, IsReal a v → Real.sin v ≠ 0 → P (tf.fsin a) (Real.sin v)
  exp : ∀ a v, IsReal a v → P (tf.fexp a) (Real.exp v)
  log10 : ∀ a v, IsReal a v → 0 < v → v ≠ 1 → P (tf.flog10 a) (Real.logb 10 v)
  pow : ∀ a b u v, IsReal a u → IsReal b v → 0 < u → P (tf.fpow a b) (u ^ v)

/-- The accuracy bound TF_ULP of R24 on a record TF: a hypothesis for claims that need it (D4; log
entry 2). -/
def TfAccurate (tf : TF F) (ulps : ℝ) : Prop := TfMeets (WithinUlps ulps) tf

/-- TF is the reference record TF_ref of R24, the one that returns RN(r): a hypothesis for claims that
need it (log entry 2). -/
def TfReference (tf : TF F) : Prop := TfMeets IsRN tf

/-- A UI port read happens in the m-th step of a run. -/
def UiReadAt (run : Nat → Machine.State) (m : Nat) : Prop :=
  (run m).ports.uiOut.length < (run (m + 1)).ports.uiOut.length

/-- Eventual visibility (R88) of an infinite run: if from step n on PEAK is not stored to, all but
finitely many UI reads from there on return the last element of PEAK_HIST, whose index UI_SEEN then
is. It is a fairness assumption on the draws, not a rule one step can break. -/
def EventuallyVisible (run : Nat → Machine.State) : Prop :=
  ∀ n, (∀ m, n ≤ m → (run m).regs.peakHist = (run n).regs.peakHist) →
    ∃ k, ∀ m, n ≤ m → k ≤ m → UiReadAt run m →
      (run (m + 1)).regs.uiSeen + 1 = (run n).regs.peakHist.length

end Sys2Proof.Safety
end

