-- ==== Sys2Proof/Certificates/Slice0/Obligations.lean ====
section
/-! DEFINITION. The statements for the provers. Each docstring names the rule of spec/ it formalises.
`answered`, `faulted`, `RegisterWord`, `AddrMapped` and `AddrUnset` (Safety.lean) write out R105, R240
and R227; `IsReal` and `IsRN` write out R13's exact value and RN. The statements about numbers hold at
every format FMT, those about the machine at the format of its ports. A statement about a free value
(TF, NEG_INF_DB, a NaN encoding, a UI draw) holds for every value of it. -/

open Sys2Proof Sys2Proof.Machine Sys2Proof.Safety

/-! ## Encoding -/

/-- R103, R107, R110, R116: the decoder reads back every well-formed command from its words, whatever
words follow. -/
def Obligations.DecodeReadsBackEncode : Prop :=
  ∀ (i : Instr) (rest : List Word), i.WellFormed = true → decode (encode i ++ rest) = .legal i rest

/-- R103, R107, R109: the words the decoder accepts are exactly the words of a well-formed command, so
no bit of a header is dropped. -/
def Obligations.EncodeReadsBackDecode : Prop :=
  ∀ (ws rest : List Word) (i : Instr), decode ws = .legal i rest →
    i.WellFormed = true ∧ ws = encode i ++ rest

/-- R103, R109, R110: how many words decoding takes: an unknown OP one, a known one its whole length,
legal or not, and nothing while words are missing. -/
def Obligations.DecodeTakesLengthOfOpcode : Prop :=
  ∀ (h : Word) (tl rest : List Word) (i : Instr) (why : IllegalCause) (op : BitVec 8),
    (decode (h :: tl) = .legal i rest → tl.length = i.opcode.operandCount + rest.length) ∧
    (decode (h :: tl) = .illegal why op rest →
      op = opField h ∧
        ((Opcode.ofCode op = none ∧ rest = tl) ∨
          ∃ o, Opcode.ofCode op = some o ∧ tl.length = o.operandCount + rest.length)) ∧
    (decode (h :: tl) = .needMore ↔
      ∃ o, Opcode.ofCode (opField h) = some o ∧ tl.length < o.operandCount)

/-- R116 and 95_test_vectors.md V-ENC: a few words written out decode to the commands they stand for.
A sanity statement. -/
def Obligations.WrittenOutWordsDecode : Prop :=
  decode [0x10000300, 0x463B8000, 0x473B8000] = .legal (.bqSetlp 0 3 0x463B8000 0x473B8000) [] ∧
  decode [0x31010200, 0xBE800000] = .legal (.bcStep 1 2 0xBE800000) [] ∧
  decode [0x40000100] = .legal (.pkAtt 1) [] ∧
  decode [0x50000008] = .legal (.regRd 8) [] ∧
  decode [0x01020000, 0x473B8000] = .legal (.init 2 0x473B8000) [] ∧
  decode [0x21000000, 0x3F800000] = .legal (.xoSplit 0 0x3F800000) []

/-- R227: every register name has an address of its own, and the address map reads it back. -/
def Obligations.AddressMapReadsBackNames : Prop :=
  (∀ n : RegName, RegName.ofAddr n.addr = some n) ∧
  (∀ (a : BitVec 24) (n : RegName), RegName.ofAddr a = some n → n.addr = a)

/-! ## Numbers -/

/-- R11, R12: the word of a value is an encoding of it, a NaN's too whatever encoding is drawn; and a
word that is no NaN encoding comes back unchanged. The port words are those of binary32 (log entry
1). -/
def Obligations.PortWordsEncodeValues : Prop :=
  (∀ (d : Nat) (x : Value), Sys2Proof.Num.ofWord (numWord d x) = x) ∧
  (∀ (d : Nat) (w : Word), Sys2Proof.Num.ofWord w ≠ .nan → numWord d (Sys2Proof.Num.ofWord w) = w)

/-- R13, for every FMT: a rounded finite result is a nearest value to n / d units, and the one with the
even last significand bit when two are equally near; on finite operands the four operations are RN of
the exact result, a zero result has the sign R13 gives, and a quotient by zero is an infinity; a NaN
operand gives NaN; infinite operands give what R13 lists. The last clause, a quotient with one infinite
operand, is the model's reading of IEEE 754 (log entry 15). -/
def Obligations.RoundingIsNearestEven : Prop :=
  ∀ F : Fmt,
    (∀ (neg : Bool) (n d : Nat) (s : Bool) (m m' : Fin F.magCount), 0 < d →
      Sys2Proof.Num.round neg n d = (.fin s m : Sys2Proof.Num F) →
      s = neg ∧
      |(n : Int) - d * Sys2Proof.Num.magUnits F m| ≤ |(n : Int) - d * Sys2Proof.Num.magUnits F m'| ∧
      (|(n : Int) - d * Sys2Proof.Num.magUnits F m| = |(n : Int) - d * Sys2Proof.Num.magUnits F m'| →
        m ≠ m' → m.val % 2 = 0)) ∧
    (∀ (x y : Sys2Proof.Num F) (u v : ℝ), IsReal x u → IsReal y v →
      IsRN (x.add y) (u + v) ∧ IsRN (x.sub y) (u - v) ∧ IsRN (x.mul y) (u * v) ∧
      (v ≠ 0 → IsRN (x.div y) (u / v))) ∧
    (∀ (s t : Bool) (m n : Fin F.magCount),
      let x : Sys2Proof.Num F := .fin s m
      let y : Sys2Proof.Num F := .fin t n
      (Sys2Proof.Num.signedUnits F s m + Sys2Proof.Num.signedUnits F t n = 0 →
        x.add y = .fin (s && t) 0) ∧
      (Sys2Proof.Num.signedUnits F s m = Sys2Proof.Num.signedUnits F t n →
        x.sub y = .fin (s && !t) 0) ∧
      (m.val = 0 ∨ n.val = 0 → x.mul y = .fin (s ^^ t) 0) ∧
      (m.val = 0 → n.val ≠ 0 → x.div y = .fin (s ^^ t) 0) ∧
      (m.val ≠ 0 → n.val = 0 → x.div y = .inf (s ^^ t)) ∧
      (m.val = 0 → n.val = 0 → x.div y = .nan)) ∧
    (∀ x : Sys2Proof.Num F,
      x.add .nan = .nan ∧ x.sub .nan = .nan ∧ x.mul .nan = .nan ∧ x.div .nan = .nan ∧
      Sys2Proof.Num.nan.add x = .nan ∧ Sys2Proof.Num.nan.sub x = .nan ∧
      Sys2Proof.Num.nan.mul x = .nan ∧ Sys2Proof.Num.nan.div x = .nan) ∧
    (∀ (s t : Bool) (m : Fin F.magCount),
      let i : Sys2Proof.Num F := .inf s
      let j : Sys2Proof.Num F := .inf t
      let y : Sys2Proof.Num F := .fin t m
      i.add j = (if s = t then .inf s else .nan) ∧ i.sub j = (if s = t then .nan else .inf s) ∧
      i.mul j = .inf (s ^^ t) ∧ i.div j = .nan ∧
      i.add y = .inf s ∧ y.add i = .inf s ∧ i.sub y = .inf s ∧ y.sub i = .inf (!s) ∧
      i.mul y = (if m.val = 0 then .nan else .inf (s ^^ t)) ∧
      y.mul i = (if m.val = 0 then .nan else .inf (s ^^ t)) ∧
      i.div y = .inf (s ^^ t) ∧ y.div i = .fin (s ^^ t) 0)

/-- R13, for every FMT: rounding gives an infinity exactly at or beyond the overflow threshold, which
lies half a spacing above the greatest finite value, and never NaN. -/
def Obligations.RoundingOverflowsAtThreshold : Prop :=
  ∀ (F : Fmt) (neg : Bool) (n d : Nat), 0 < d →
    (Sys2Proof.Num.round neg n d = (.inf neg : Sys2Proof.Num F) ↔
      d * ((2 ^ (F.fracBits + 2) - 1) * 2 ^ (2 ^ F.expBits - 3)) ≤ 2 * n) ∧
    Sys2Proof.Num.round neg n d ≠ (.nan : Sys2Proof.Num F)

/-- R15, for every FMT: on finite values the comparisons are those of the exact values, so both zeros
are equal; the infinities lie outside every finite value; a NaN makes each comparison false. -/
def Obligations.ComparisonsFollowValues : Prop :=
  ∀ F : Fmt,
    (∀ (s t : Bool) (m n : Fin F.magCount),
      let x : Sys2Proof.Num F := .fin s m
      let y : Sys2Proof.Num F := .fin t n
      (x.lt y = true ↔ Sys2Proof.Num.signedUnits F s m < Sys2Proof.Num.signedUnits F t n) ∧
      (x.le y = true ↔ Sys2Proof.Num.signedUnits F s m ≤ Sys2Proof.Num.signedUnits F t n)) ∧
    (∀ (s : Bool) (m : Fin F.magCount),
      let x : Sys2Proof.Num F := .fin s m
      Sys2Proof.Num.lt (.inf true) x = true ∧ x.lt (.inf false) = true) ∧
    Sys2Proof.Num.lt (.inf true : Sys2Proof.Num F) (.inf false) = true ∧
    (∀ x y : Sys2Proof.Num F, x.lt x = false ∧ x.gt y = y.lt x ∧ x.ge y = y.le x ∧
      (x.le y = true ↔ x.lt y = true ∨ (x ≠ .nan ∧ y ≠ .nan ∧ y.lt x = false))) ∧
    (∀ x : Sys2Proof.Num F, x.lt .nan = false ∧ Sys2Proof.Num.nan.lt x = false ∧
      x.le .nan = false ∧ Sys2Proof.Num.nan.le x = false)

/-- R19, for every FMT, with bounds in order: a value below lo gives lo, a value above hi gives hi, and
every other value, a NaN among them, is returned unchanged; so the result stays between the bounds
unless the value is NaN (D16). -/
def Obligations.ClampStaysInBounds : Prop :=
  ∀ (F : Fmt) (v lo hi : Sys2Proof.Num F), lo.le hi = true →
    (v.lt lo = true → v.clamp lo hi = lo) ∧
    (v.gt hi = true → v.clamp lo hi = hi) ∧
    (v.lt lo = false → v.gt hi = false → v.clamp lo hi = v) ∧
    (v = .nan → v.clamp lo hi = .nan) ∧
    (v ≠ .nan → lo.le (v.clamp lo hi) = true ∧ (v.clamp lo hi).le hi = true)

/-- R139 (b), the document's pass-through identity in its exact form, for every FMT: a Biquad with
identity coefficients and zero state returns every finite input but −0 bit for bit and stays at rest;
−0 gives +0; an infinity or NaN is returned and leaves NaN state. That z2 is −0 after an input −0
follows from R13 and R138. -/
def Obligations.IdentityBiquadPassesInput : Prop :=
  ∀ F : Fmt,
    (∀ (s : Bool) (m : Fin F.magCount), (s = false ∨ m.val ≠ 0) →
      bqProcess bqNew (.fin s m) = (.fin s m, bqNew)) ∧
    bqProcess bqNew (.fin true 0 : Sys2Proof.Num F) =
      (.fin false 0, { bqNew with z2 := .fin true 0 }) ∧
    (∀ x : Sys2Proof.Num F, x.isFinite = false →
      bqProcess bqNew x = (x, { bqNew with z1 := .nan, z2 := .nan }))

/-! ## A step -/

/-- R81, R110: when a legal command stands on the command port and reset is released, the step is that
command's, with exactly its words consumed. -/
def Obligations.StepPerformsDecodedCommand : Prop :=
  ∀ (s : State) (i : Instr) (rest : List Word),
    s.ports.inReset = false → decode s.ports.cmd = .legal i rest →
    step s = exec i { s with ports := { s.ports with cmd := rest } }

/-- R109, R240: an illegal command raises F_ILLEGAL, consumes its words, and has no other effect. -/
def Obligations.StepFaultsIllegalCommand : Prop :=
  ∀ (s : State) (why : IllegalCause) (op : BitVec 8) (rest : List Word),
    s.ports.inReset = false → decode s.ports.cmd = .illegal why op rest → s.regs.fault = 0#8 →
    step s = .next (faulted { s with ports := { s.ports with cmd := rest } } (respHeader op 1) 1)

/-- R60, R100, R110, R260: while no whole command waits or reset is asserted, the next outside event
happens: a word arrives, UI reads, reset changes; with no event left the hardware is idle. The event
list and the loss of a word that arrives while reset is asserted are the model's choice (log entries 7
and 8). -/
def Obligations.StepTakesOutsideEvent : Prop :=
  ∀ (s : State), (s.ports.inReset = true ∨ decode s.ports.cmd = .needMore) →
    (s.ports.inputs = [] → step s = .next s) ∧
    (∀ (w : Word) (tl : List Input), s.ports.inputs = .word w :: tl →
      step s = .next { s with ports := { s.ports with
        inputs := tl, cmd := if s.ports.inReset then s.ports.cmd else s.ports.cmd ++ [w] } }) ∧
    (∀ (tl : List Input), s.ports.inputs = .resetOn :: tl →
      step s = .next { s with
        regs := Regs.reset, ports := { s.ports with inputs := tl, cmd := [], inReset := true } }) ∧
    (∀ (tl : List Input), s.ports.inputs = .resetOff :: tl →
      step s = .next { s with ports := { s.ports with inputs := tl, inReset := false } })

/-- R61, R260: the registers after hardware reset, which every asserted reset gives, whatever the state
before it. -/
def Obligations.HardwareResetGivesResetState : Prop :=
  ∀ s : State,
    (hardwareReset s).regs =
      { rate := none, nch := 0#8, chans := [], xo := none, set := ⟨none, none, none⟩
        blockPeak := Sys2Proof.Num.zero, peak := Sys2Proof.Num.zero, ui := false, fault := 0#8
        peakHist := [Sys2Proof.Num.zero], uiSeen := 0 } ∧
    State.reset.regs = (hardwareReset s).regs

/-- R87: a UI port read in a state with a step's invariant returns PEAK_HIST[j] for some
UI_SEEN ≤ j ≤ n − 1, whole, sets UI_SEEN to j, and touches no other register, in every state, the
fault state included. -/
def Obligations.UiReadReturnsStoredValue : Prop :=
  ∀ (s : State) (tl : List Input), s.regs.Inv → fetch s = .needMore → s.ports.inputs = .uiRead :: tl →
    ∃ (j : Nat) (v : Value) (w : Word) (t : State),
      step s = .next t ∧ s.regs.uiSeen ≤ j ∧ j < s.regs.peakHist.length ∧
      s.regs.peakHist[j]? = some v ∧ Sys2Proof.Num.ofWord w = v ∧
      t.regs = { s.regs with uiSeen := j } ∧ t.ports.uiOut = s.ports.uiOut ++ [w] ∧
      t.ports.resp = s.ports.resp ∧ t.ports.cmd = s.ports.cmd ∧ t.ports.inputs = tl

/-- Every step answers a next state. R199 and R285 say that every accepted command completes. That a
sticky fault is a next state is the model's choice: R236 leaves the representation of the fault state
to the model (log entry 10). So is the step with nothing to do (log entry 19). -/
def Obligations.EveryStepCompletes : Prop :=
  ∀ s : State, ∃ t : State, step s = .next t

/-- R63 (a), (b), (e), R47, R53, R54, R45, R239, R260, D16: every step keeps the invariant, from every
state that has it, whatever NCH_MAX the block has. Its clause on the reset input rests on log entry 8. -/
def Obligations.StepKeepsInvariant : Prop :=
  ∀ s t : State, s.Inv → step s = .next t → t.Inv

/-- R61, R63: the reset state has the invariant. -/
def Obligations.ResetHasInvariant : Prop := State.reset.Inv

/-! ## Faults -/

/-- R240: a command that raises a fault, legal or not, has changed nothing but FAULT and sent nothing
but the header with the code. -/
def Obligations.FaultingCommandChangesOnlyFault : Prop :=
  (∀ (i : Instr) (s t : State), exec i s = .next t → s.regs.fault = 0#8 → t.regs.fault ≠ 0#8 →
    ∃ f : FaultCode, t = faulted s (respHeader i.opcode.code f.code) f.code) ∧
  (∀ (op : BitVec 8) (s : State), s.regs.fault = 0#8 →
    illegalCommand op s = faulted s (respHeader op 1) 1)

/-- R241: in the fault state every command, legal or not, is answered with the sticky code and changes
no state. -/
def Obligations.FaultStateRefusesEveryCommand : Prop :=
  ∀ s : State, s.regs.fault ≠ 0#8 →
    (∀ i : Instr, exec i s = .next (answered s s.regs (respHeader i.opcode.code s.regs.fault) [])) ∧
    (∀ (why : IllegalCause) (op : BitVec 8) (rest : List Word), fetch s = .illegal why op rest →
      step s = .next (answered { s with ports := { s.ports with cmd := rest } } s.regs
        (respHeader op s.regs.fault) []))

/-- R249, R52: no step clears or changes a recorded fault but the assertion of the reset input. -/
def Obligations.OnlyHardwareResetClearsFault : Prop :=
  ∀ s t : State, step s = .next t → s.regs.fault ≠ 0#8 →
    t.regs.fault = s.regs.fault ∨
      (t.regs = Regs.reset ∧ ∃ tl, s.ports.inputs = .resetOn :: tl)

/-- R109 (c), R247: b = 3 raises F_ILLEGAL whatever else holds. -/
def Obligations.BandThreeFaultsIllegal : Prop :=
  ∀ (s : State), s.regs.fault = 0#8 →
    (∀ thr ratio att rel makeup : Word,
      exec (.bcSet 3 thr ratio att rel makeup) s = .next (faulted s 0x30000001 1)) ∧
    (∀ (c : BitVec 8) (x : Word), exec (.bcStep c 3 x) s = .next (faulted s 0x31000001 1))

/-- R242: before the first INIT every command but INIT, PK.ATT, PK.READ and REG.RD raises F_UNINIT,
and those four do not. -/
def Obligations.UninitialisedCommandsFault : Prop :=
  ∀ (i : Instr) (s : State), s.regs.fault = 0#8 → s.regs.rate = none → i.WellFormed = true →
    if i.opcode = .init ∨ i.opcode = .pkAtt ∨ i.opcode = .pkRead ∨ i.opcode = .regRd then
      ∀ t : State, exec i s = .next t → t.regs.fault ≠ 2#8
    else exec i s = .next (faulted s (respHeader i.opcode.code 2) 2)

/-- R243: a channel c ≥ NCH raises F_CHANNEL, before any unset settings are looked at (R247). -/
def Obligations.MissingChannelFaults : Prop :=
  ∀ (s : State) (e : RateRegs Config.fmt) (c : BitVec 8),
    s.regs.fault = 0#8 → s.regs.rate = some e → s.regs.nch.toNat ≤ c.toNat →
    (∀ x, exec (.sample c x) s = .next (faulted s 0x03000003 3)) ∧
    (∀ k freq fs, exec (.bqSetlp c k freq fs) s = .next (faulted s 0x10000003 3)) ∧
    (∀ k freq fs, exec (.bqSethp c k freq fs) s = .next (faulted s 0x11000003 3)) ∧
    (∀ k x, exec (.bqStep c k x) s = .next (faulted s 0x12000003 3)) ∧
    (∀ x, exec (.xoSplit c x) s = .next (faulted s 0x21000003 3)) ∧
    (∀ (b : BitVec 2) x, b ≠ 3#2 → exec (.bcStep c b x) s = .next (faulted s 0x31000003 3))

/-- R244, R238: BC.STEP whose snapshot is unset, and SAMPLE with any snapshot unset, raise F_UNSET. -/
def Obligations.UnsetSettingsFault : Prop :=
  ∀ (s : State) (e : RateRegs Config.fmt) (c : BitVec 8) (ch : Channel Config.fmt) (x : Word),
    s.regs.fault = 0#8 → s.regs.rate = some e → s.regs.chan? c = some ch →
    ((s.regs.set.low = none ∨ s.regs.set.mid = none ∨ s.regs.set.high = none) →
      exec (.sample c x) s = .next (faulted s 0x03000004 4)) ∧
    (s.regs.set.low = none → exec (.bcStep c 0 x) s = .next (faulted s 0x31000004 4)) ∧
    (s.regs.set.mid = none → exec (.bcStep c 1 x) s = .next (faulted s 0x31000004 4)) ∧
    (s.regs.set.high = none → exec (.bcStep c 2 x) s = .next (faulted s 0x31000004 4))

/-- R245: INIT with nch > NCH_MAX raises F_PARAM, whatever NCH_MAX the block has (log entry 4). -/
def Obligations.InitBeyondMaximumFaults : Prop :=
  ∀ (nch : BitVec 8) (fs : Word) (s : State),
    s.regs.fault = 0#8 → s.nchMax.toNat < nch.toNat →
    exec (.init nch fs) s = .next (faulted s 0x01000006 6)

/-- R246, R153: a recomputing XO.UPD whose clamp bounds are not in order, a NaN counted as not in
order, raises F_RANGE. -/
def Obligations.CrossedClampBoundsFault : Prop :=
  ∀ (s : State) (e : RateRegs Config.fmt) (reqLo reqHi : Word),
    s.regs.fault = 0#8 → s.regs.rate = some e →
    xoMustRecompute s.regs.xo (Sys2Proof.Num.ofWord reqLo) (Sys2Proof.Num.ofWord reqHi) = true →
    (let nyq := e.fs.div (Sys2Proof.Num.ofNat 2)
     let loHi := nyq.mul (Sys2Proof.Num.ofDec ⟨8, 10⟩)
     let low := (Sys2Proof.Num.ofWord reqLo).clamp (Sys2Proof.Num.ofNat 10) loHi
     (Sys2Proof.Num.ofNat 10).le loHi = false ∨
       (low.add (Sys2Proof.Num.ofNat 10)).le (nyq.mul (Sys2Proof.Num.ofDec ⟨99, 100⟩)) = false) →
    exec (.xoUpd reqLo reqHi) s = .next (faulted s 0x20000007 7)

/-- R228, R227: REG.RD of an unmapped address raises F_ADDR, of an unset register F_UNSET. -/
def Obligations.UnmappedAndUnsetReadsFault : Prop :=
  ∀ (s : State) (addr : BitVec 24), s.regs.Inv → s.regs.fault = 0#8 →
    (¬ AddrMapped s.regs.nch.toNat addr.toNat →
      exec (.regRd addr) s = .next (faulted s 0x50000005 5)) ∧
    (AddrUnset s.regs addr.toNat → exec (.regRd addr) s = .next (faulted s 0x50000004 4))

/-- R237, R235: no operand word's value decides whether a command faults, but XO.UPD's: two commands
with the same header leave the same FAULT. -/
def Obligations.OperandValuesDoNotFault : Prop :=
  ∀ (i j : Instr) (s t u : State), (encode i).head? = (encode j).head? → i.opcode ≠ .xoUpd →
    exec i s = .next t → exec j s = .next u → t.regs.fault = u.regs.fault

/-- R105: every command sends exactly one response: the header with OP and status, status 0 exactly on
success, then the opcode's number of result words on success and none otherwise. -/
def Obligations.OneResponsePerCommand : Prop :=
  ∀ (i : Instr) (s t : State), exec i s = .next t →
    ∃ ws : List Word,
      t.ports.resp = s.ports.resp ++ respHeader i.opcode.code t.regs.fault :: ws ∧
      ws.length = (if t.regs.fault = 0#8 then i.opcode.resultCount else 0)

/-! ## The Engine family -/

/-- R191, R62, R211: INIT with nch ≤ NCH_MAX, whatever NCH_MAX the block has (log entry 4), builds
fresh banks and leaves PEAK, UI, FAULT, PEAK_HIST and UI_SEEN. NEG_INF_DB and TF are free. The values
150 and 0.25 of the decay parameters are the model's choice (log entry 12). -/
def Obligations.InitRebuildsEveryBank : Prop :=
  ∀ (nch : BitVec 8) (fs : Word) (s : State),
    s.regs.fault = 0#8 → nch.toNat ≤ s.nchMax.toNat →
    exec (.init nch fs) s = .next
      (let one := Sys2Proof.Num.ofNat 1
       let z := Sys2Proof.Num.zero
       let bq : Biquad Config.fmt :=
         { b0 := one, b1 := z, b2 := z, a1 := z, a2 := z, z1 := z, z2 := z }
       let bc : Compressor Config.fmt := { env := Config.silence.toNum, gr := z }
       let n := ((Sys2Proof.Num.ofWord fs).mul (Sys2Proof.Num.ofNat 150)).div (Sys2Proof.Num.ofNat 1000)
       answered s
        { s.regs with
          nch := nch
          rate := some
            { fs := Sys2Proof.Num.ofWord fs
              decayW := Config.tf.fpow (Sys2Proof.Num.ofDec ⟨25, 100⟩) (one.div n) }
          chans := List.replicate nch.toNat
            { bq := ⟨bq, bq, bq, bq, bq, bq, bq, bq⟩, bc := ⟨bc, bc, bc⟩ }
          xo := none
          set := ⟨none, none, none⟩
          blockPeak := z }
        0x01000000 [])

/-- R193: BLK.BEG sets BLOCK_PEAK to +0 and changes nothing else. -/
def Obligations.BlkBegClearsBlockPeak : Prop :=
  ∀ (s : State) (e : RateRegs Config.fmt), s.regs.fault = 0#8 → s.regs.rate = some e →
    exec .blkBeg s = .next
      (answered s { s.regs with blockPeak := Sys2Proof.Num.zero } 0x02000000 [])

/-- R194, R195: SAMPLE splits, compresses each band with its snapshot, sums low plus mid, then high,
raises BLOCK_PEAK to |y| if greater, and leaves every other channel and register. -/
def Obligations.SampleRunsWholeChain : Prop :=
  ∀ (s : State) (e : RateRegs Config.fmt) (c : BitVec 8) (x : Word) (ch : Channel Config.fmt)
    (sl sm sh : Settings Config.fmt),
    s.regs.fault = 0#8 → s.regs.rate = some e →
    c.toNat < s.regs.nch.toNat → s.regs.chans[c.toNat]? = some ch →
    s.regs.set = ⟨some sl, some sm, some sh⟩ →
    exec (.sample c x) s = .next
      (let sp := xoSplit ch.bq (Sys2Proof.Num.ofWord x)
       let l := bcProcess Config.params ch.bc.low sl sp.1.1
       let m := bcProcess Config.params ch.bc.mid sm sp.1.2.1
       let h := bcProcess Config.params ch.bc.high sh sp.1.2.2
       let y := (l.1.add m.1).add h.1
       answered s
        { s.regs with
          chans := s.regs.chans.set c.toNat { bq := sp.2, bc := ⟨l.2, m.2, h.2⟩ }
          blockPeak := if y.abs.gt s.regs.blockPeak then y.abs else s.regs.blockPeak }
        0x03000000 [.num y])

/-- R197, R212: BLK.END with UI = 1 stores the block peak by instant attack or geometric decay and
appends it to PEAK_HIST; with UI = 0 it changes nothing. -/
def Obligations.BlkEndUpdatesMeterForUi : Prop :=
  ∀ (s : State) (e : RateRegs Config.fmt), s.regs.fault = 0#8 → s.regs.rate = some e →
    exec .blkEnd s = .next
      (let p := s.regs.blockPeak
       let v := if p.gt s.regs.peak then p
         else (s.regs.peak.mul e.decayW).add (p.mul ((Sys2Proof.Num.ofNat 1).sub e.decayW))
       if s.regs.ui then
         answered s { s.regs with peak := v, peakHist := s.regs.peakHist ++ [v] } 0x04000000 []
       else answered s s.regs 0x04000000 [])

/-! ## The Biquad family -/

/-- R131, R133, R135: BQ.SETLP writes the lowpass design to one Biquad, its state with +0, and nothing
else. -/
def Obligations.BqSetlpDesignsLowpass : Prop :=
  ∀ (s : State) (e : RateRegs Config.fmt) (c : BitVec 8) (k : BitVec 3) (freq fs : Word)
    (ch : Channel Config.fmt),
    s.regs.fault = 0#8 → s.regs.rate = some e →
    c.toNat < s.regs.nch.toNat → s.regs.chans[c.toNat]? = some ch →
    exec (.bqSetlp c k freq fs) s = .next
      (let one := Sys2Proof.Num.ofNat 1
       let two := Sys2Proof.Num.ofNat 2
       let w := ((two.mul Config.pi).mul (Sys2Proof.Num.ofWord freq)).div
         (Sys2Proof.Num.ofWord fs)
       let cw := Config.tf.fcos w
       let alpha := (Config.tf.fsin w).div (two.mul Config.butterQ)
       let a0 := one.add alpha
       let t := one.sub cw
       let b0 := (t.div two).div a0
       answered s
        { s.regs with
          chans := s.regs.chans.set c.toNat
            { ch with
              bq := ch.bq.put k
                { b0 := b0
                  b1 := t.div a0
                  b2 := b0
                  a1 := (two.neg.mul cw).div a0
                  a2 := (one.sub alpha).div a0
                  z1 := Sys2Proof.Num.zero
                  z2 := Sys2Proof.Num.zero } } }
        0x10000000 [])

/-- R131, R134, R136: BQ.SETHP writes the highpass design to one Biquad, its state with +0, and
nothing else. -/
def Obligations.BqSethpDesignsHighpass : Prop :=
  ∀ (s : State) (e : RateRegs Config.fmt) (c : BitVec 8) (k : BitVec 3) (freq fs : Word)
    (ch : Channel Config.fmt),
    s.regs.fault = 0#8 → s.regs.rate = some e →
    c.toNat < s.regs.nch.toNat → s.regs.chans[c.toNat]? = some ch →
    exec (.bqSethp c k freq fs) s = .next
      (let one := Sys2Proof.Num.ofNat 1
       let two := Sys2Proof.Num.ofNat 2
       let w := ((two.mul Config.pi).mul (Sys2Proof.Num.ofWord freq)).div
         (Sys2Proof.Num.ofWord fs)
       let cw := Config.tf.fcos w
       let alpha := (Config.tf.fsin w).div (two.mul Config.butterQ)
       let a0 := one.add alpha
       let t := one.add cw
       let b0 := (t.div two).div a0
       answered s
        { s.regs with
          chans := s.regs.chans.set c.toNat
            { ch with
              bq := ch.bq.put k
                { b0 := b0
                  b1 := t.neg.div a0
                  b2 := b0
                  a1 := (two.neg.mul cw).div a0
                  a2 := (one.sub alpha).div a0
                  z1 := Sys2Proof.Num.zero
                  z2 := Sys2Proof.Num.zero } } }
        0x11000000 [])

/-- R137, R138: BQ.STEP runs the recurrence on one Biquad, each operation rounded once in the order
written, writes its z1 and z2 and nothing else, and responds y. -/
def Obligations.BqStepRunsRecurrence : Prop :=
  ∀ (s : State) (e : RateRegs Config.fmt) (c : BitVec 8) (k : BitVec 3) (x : Word)
    (ch : Channel Config.fmt),
    s.regs.fault = 0#8 → s.regs.rate = some e →
    c.toNat < s.regs.nch.toNat → s.regs.chans[c.toNat]? = some ch →
    exec (.bqStep c k x) s = .next
      (let q := ch.bq.get k
       let v := Sys2Proof.Num.ofWord x
       let y := (q.b0.mul v).add q.z1
       answered s
        { s.regs with
          chans := s.regs.chans.set c.toNat
            { ch with
              bq := ch.bq.put k
                { q with
                  z1 := ((q.b1.mul v).sub (q.a1.mul y)).add q.z2
                  z2 := (q.b2.mul v).sub (q.a2.mul y) } } }
        0x12000000 [.num y])

/-- From R132, R133, R134, as R43 derives it: every micro-operation that writes a coefficient writes z1
and z2 with +0, whether or not the coefficients change; and, by the same inference, a command that
changes any coefficient of a Biquad leaves that Biquad's z1 and z2 at +0. -/
def Obligations.CoefficientChangeResetsState : Prop :=
  (∀ (F : Fmt) (p : Params F) (freq fs : Sys2Proof.Num F),
    (bqNew : Biquad F).z1 = Sys2Proof.Num.zero ∧ (bqNew : Biquad F).z2 = Sys2Proof.Num.zero ∧
    (bqSetLowpass p freq fs).z1 = Sys2Proof.Num.zero ∧
    (bqSetLowpass p freq fs).z2 = Sys2Proof.Num.zero ∧
    (bqSetHighpass p freq fs).z1 = Sys2Proof.Num.zero ∧
    (bqSetHighpass p freq fs).z2 = Sys2Proof.Num.zero) ∧
  ∀ (i : Instr) (s t : State) (n : Nat) (k : BitVec 3) (ch ch' : Channel Config.fmt),
    exec i s = .next t → s.regs.chans[n]? = some ch → t.regs.chans[n]? = some ch' →
    ¬ (ch.bq.get k).SameCoefs (ch'.bq.get k) →
    (ch'.bq.get k).z1 = Sys2Proof.Num.zero ∧ (ch'.bq.get k).z2 = Sys2Proof.Num.zero

/-- R42, R261: no command but INIT, BQ.SETLP, BQ.SETHP and XO.UPD writes a coefficient, and none but
INIT changes how many banks there are. -/
def Obligations.OnlyDesignsWriteCoefficients : Prop :=
  ∀ (i : Instr) (s t : State), exec i s = .next t → i.opcode ≠ .init →
    t.regs.chans.length = s.regs.chans.length ∧
    (i.opcode ≠ .bqSetlp → i.opcode ≠ .bqSethp → i.opcode ≠ .xoUpd →
      ∀ (n : Nat) (ch ch' : Channel Config.fmt),
        s.regs.chans[n]? = some ch → t.regs.chans[n]? = some ch' → ch.bq.SameCoefs ch'.bq)

/-- R63 (c): every command but BQ.SETLP and BQ.SETHP keeps the two Biquads of every cascade at equal
coefficients. -/
def Obligations.CascadesStayPaired : Prop :=
  ∀ (i : Instr) (s t : State), exec i s = .next t → i.opcode ≠ .bqSetlp → i.opcode ≠ .bqSethp →
    s.regs.Paired → t.regs.Paired

/-! ## The Crossover family -/

/-- R151, R153, R154: a recomputing XO.UPD stores the clamped frequencies, redesigns all eight Biquads
of every channel, leaves the compressors, and responds 1. -/
def Obligations.XoUpdRedesignsEveryChannel : Prop :=
  ∀ (s : State) (e : RateRegs Config.fmt) (reqLo reqHi : Word),
    s.regs.fault = 0#8 → s.regs.rate = some e →
    (∀ f, s.regs.xo = some f →
      ((Sys2Proof.Num.ofWord reqLo).sub f.lowFreq).abs.gt (Sys2Proof.Num.ofDec ⟨5, 10⟩) = true ∨
      ((Sys2Proof.Num.ofWord reqHi).sub f.highFreq).abs.gt (Sys2Proof.Num.ofDec ⟨5, 10⟩) = true) →
    let ten := Sys2Proof.Num.ofNat 10
    let nyq := e.fs.div (Sys2Proof.Num.ofNat 2)
    let loHi := nyq.mul (Sys2Proof.Num.ofDec ⟨8, 10⟩)
    let low := (Sys2Proof.Num.ofWord reqLo).clamp ten loHi
    let hiHi := nyq.mul (Sys2Proof.Num.ofDec ⟨99, 100⟩)
    let high := (Sys2Proof.Num.ofWord reqHi).clamp (low.add ten) hiHi
    let lp := fun f => bqSetLowpass Config.params f e.fs
    let hp := fun f => bqSetHighpass Config.params f e.fs
    ten.le loHi = true → (low.add ten).le hiHi = true →
    exec (.xoUpd reqLo reqHi) s = .next
      (answered s
        { s.regs with
          xo := some { lowFreq := low, highFreq := high }
          chans := s.regs.chans.map fun ch =>
            { ch with bq := ⟨lp low, lp low, hp low, hp low, lp high, lp high, hp high, hp high⟩ } }
        0x20000000 [.int 1])

/-- R152, R154, R155 (a): XO.UPD whose requests differ from the applied frequencies by no more than
0.5 Hz, a NaN difference counted so, changes no register and responds 0. -/
def Obligations.XoUpdHoldsWithinHysteresis : Prop :=
  ∀ (s : State) (e : RateRegs Config.fmt) (f : XoRegs Config.fmt) (reqLo reqHi : Word),
    s.regs.fault = 0#8 → s.regs.rate = some e → s.regs.xo = some f →
    ((Sys2Proof.Num.ofWord reqLo).sub f.lowFreq).abs.gt (Sys2Proof.Num.ofDec ⟨5, 10⟩) = false →
    ((Sys2Proof.Num.ofWord reqHi).sub f.highFreq).abs.gt (Sys2Proof.Num.ofDec ⟨5, 10⟩) = false →
    exec (.xoUpd reqLo reqHi) s = .next (answered s s.regs 0x20000000 [.int 0])

/-- R157, R158: XO.SPLIT steps each of the channel's eight Biquads once, in three chains, writes their
states and nothing else, and responds low, mid, high. -/
def Obligations.XoSplitStepsThreeChains : Prop :=
  ∀ (s : State) (e : RateRegs Config.fmt) (c : BitVec 8) (x : Word) (ch : Channel Config.fmt),
    s.regs.fault = 0#8 → s.regs.rate = some e →
    c.toNat < s.regs.nch.toNat → s.regs.chans[c.toNat]? = some ch →
    exec (.xoSplit c x) s = .next
      (let v := Sys2Proof.Num.ofWord x
       let q0 := bqProcess ch.bq.lowLp0 v
       let q1 := bqProcess ch.bq.lowLp1 q0.1
       let q2 := bqProcess ch.bq.midHp0 v
       let q3 := bqProcess ch.bq.midHp1 q2.1
       let q4 := bqProcess ch.bq.midLp0 q3.1
       let q5 := bqProcess ch.bq.midLp1 q4.1
       let q6 := bqProcess ch.bq.highHp0 v
       let q7 := bqProcess ch.bq.highHp1 q6.1
       answered s
        { s.regs with
          chans := s.regs.chans.set c.toNat
            { ch with bq := ⟨q0.2, q1.2, q2.2, q3.2, q4.2, q5.2, q6.2, q7.2⟩ } }
        0x21000000 [.num q1.1, .num q5.1, .num q7.1])

/-! ## The Band Compressor family -/

/-- R177, R178: BC.SET resolves the snapshot of its band with the two floors, sets its flag, and
changes nothing else. -/
def Obligations.BcSetResolvesSnapshot : Prop :=
  ∀ (s : State) (e : RateRegs Config.fmt) (b : Band) (thr ratio att rel makeup : Word),
    s.regs.fault = 0#8 → s.regs.rate = some e →
    exec (.bcSet (BitVec.ofNat 2 b.index) thr ratio att rel makeup) s = .next
      (let one := Sys2Proof.Num.ofNat 1
       let r := Sys2Proof.Num.ofWord ratio
       let sec := fun ms : Word =>
         let t := (Sys2Proof.Num.ofWord ms).div (Sys2Proof.Num.ofNat 1000)
         if t.gt (Sys2Proof.Num.ofDec ⟨1, 10000⟩) then t else Sys2Proof.Num.ofDec ⟨1, 10000⟩
       let pole := fun ms : Word => Config.tf.fexp (one.neg.div ((sec ms).mul e.fs))
       answered s
        { s.regs with
          set := s.regs.set.put b
            { thr := Sys2Proof.Num.ofWord thr
              ratio := if r.gt one then r else one
              att := pole att
              rel := pole rel
              makeup := Sys2Proof.Num.ofWord makeup } }
        0x30000000 [])

/-- R172 to R176, R179: BC.STEP runs the five steps on one compressor with its band's snapshot, writes
its env and gr and nothing else, and responds y. NEG_INF_DB and TF are free. -/
def Obligations.BcStepRunsFiveSteps : Prop :=
  ∀ (s : State) (e : RateRegs Config.fmt) (c : BitVec 8) (b : Band) (x : Word)
    (ch : Channel Config.fmt) (v : Settings Config.fmt),
    s.regs.fault = 0#8 → s.regs.rate = some e →
    c.toNat < s.regs.nch.toNat → s.regs.chans[c.toNat]? = some ch → s.regs.set.get b = some v →
    exec (.bcStep c (BitVec.ofNat 2 b.index) x) s = .next
      (let one := Sys2Proof.Num.ofNat 1
       let z := Sys2Proof.Num.zero
       let bc := ch.bc.get b
       let a := (Sys2Proof.Num.ofWord x).abs
       let level := if a.gt z then (Sys2Proof.Num.ofNat 20).mul (Config.tf.flog10 a)
         else Config.silence.toNum
       let ce := if level.gt bc.env then v.att else v.rel
       let env := (bc.env.mul ce).add (level.mul (one.sub ce))
       let target := if env.gt v.thr then (env.sub v.thr).neg.mul (one.sub (one.div v.ratio)) else z
       let cg := if target.lt bc.gr then v.att else v.rel
       let gr := (bc.gr.mul cg).add (target.mul (one.sub cg))
       let g := Config.tf.fpow (Sys2Proof.Num.ofNat 10)
         ((gr.add v.makeup).div (Sys2Proof.Num.ofNat 20))
       let y := (Sys2Proof.Num.ofWord x).mul g
       answered s
        { s.regs with
          chans := s.regs.chans.set c.toNat
            { ch with bc := ch.bc.put b { env := env, gr := gr } } }
        0x31000000 [.num y])

/-- R261: no command but INIT, SAMPLE and BC.STEP writes an envelope or a gain reduction: a crossover
change does not restart the envelopes. -/
def Obligations.OnlyThreeCommandsWriteCompressors : Prop :=
  ∀ (i : Instr) (s t : State), exec i s = .next t →
    i.opcode ≠ .init → i.opcode ≠ .sample → i.opcode ≠ .bcStep →
    t.regs.chans.map (·.bc) = s.regs.chans.map (·.bc)

/-- R172, R25, R23: the gain of bc_process is never negative, for any FMT, TF and state, so an output
that is not NaN has the sign of its input. -/
def Obligations.CompressorKeepsInputSign : Prop :=
  ∀ (F : Fmt) (p : Params F) (bc : Compressor F) (v : Settings F) (x : Sys2Proof.Num F),
    (bcProcess p bc v x).1 ≠ .nan → (bcProcess p bc v x).1.signBit = x.signBit

/-- R181 (a): with NEG_INF_DB = −∞ and poles strictly between 0 and 1 an envelope at −∞ stays there for
every sample whose level is not +∞ or NaN, the gain reduction stays +0, and the output is the input at
the makeup gain. -/
def Obligations.MinusInfinityEnvelopeAbsorbs : Prop :=
  ∀ (F : Fmt) (p : Params F) (v : Settings F) (x : Sys2Proof.Num F),
    p.negInfDb = .inf true →
    v.att.gt Sys2Proof.Num.zero = true → v.att.lt Sys2Proof.Num.one = true →
    v.rel.gt Sys2Proof.Num.zero = true → v.rel.lt Sys2Proof.Num.one = true →
    levelDb p x ≠ .inf false → levelDb p x ≠ .nan →
    bcProcess p { env := .inf true, gr := Sys2Proof.Num.zero } v x =
      (x.mul (p.tf.dbToGain (Sys2Proof.Num.zero.add v.makeup)),
        { env := .inf true, gr := Sys2Proof.Num.zero })

/-- R175, R180 (b), the ratio = 1 invariant: at ratio 1 the target is a zero whenever env − thr is
finite or the threshold is not passed. -/
def Obligations.RatioOneNeverReduces : Prop :=
  ∀ (F : Fmt) (v : Settings F) (env : Sys2Proof.Num F), v.ratio = Sys2Proof.Num.one →
    (env.gt v.thr = false ∨ (env.sub v.thr).isFinite = true) →
    (targetReduction v env).isZero = true

/-! ## The Peak Meter family -/

/-- R210: PK.ATT writes the UI flag, with INITED = 0 too, and changes nothing else. -/
def Obligations.PkAttSetsUiFlag : Prop :=
  ∀ (s : State) (f : BitVec 1), s.regs.fault = 0#8 →
    exec (.pkAtt f) s = .next (answered s { s.regs with ui := f == 1#1 } 0x40000000 [])

/-- R212, R213: PK.UPD stores its operand at once when it exceeds PEAK, else the geometric decay, and
appends the stored value to PEAK_HIST, whatever UI is. -/
def Obligations.PkUpdAttacksOrDecays : Prop :=
  ∀ (s : State) (e : RateRegs Config.fmt) (w : Word), s.regs.fault = 0#8 → s.regs.rate = some e →
    exec (.pkUpd w) s = .next
      (let p := Sys2Proof.Num.ofWord w
       let v := if p.gt s.regs.peak then p
         else (s.regs.peak.mul e.decayW).add (p.mul ((Sys2Proof.Num.ofNat 1).sub e.decayW))
       answered s { s.regs with peak := v, peakHist := s.regs.peakHist ++ [v] } 0x41000000 [])

/-- R214, R89: PK.READ responds PEAK, which in a state with the invariant is the last value stored, and
changes no state. -/
def Obligations.PkReadReturnsLastStored : Prop :=
  ∀ s : State, s.regs.fault = 0#8 →
    exec .pkRead s = .next (answered s s.regs 0x42000000 [.num s.regs.peak]) ∧
    (s.regs.Inv → s.regs.peakHist.getLast? = some s.regs.peak)

/-- R54, R219, R260: a step leaves PEAK and PEAK_HIST, or stores one value to PEAK and appends it, or
is hardware reset; and only BLK.END and PK.UPD store. -/
def Obligations.PeakHistoryRecordsEveryStore : Prop :=
  (∀ s t : State, step s = .next t →
    (t.regs.peak = s.regs.peak ∧ t.regs.peakHist = s.regs.peakHist) ∨
    (∃ v, t.regs.peak = v ∧ t.regs.peakHist = s.regs.peakHist ++ [v]) ∨ t.regs = Regs.reset) ∧
  (∀ (i : Instr) (s t : State), exec i s = .next t → i.opcode ≠ .blkEnd → i.opcode ≠ .pkUpd →
    t.regs.peak = s.regs.peak ∧ t.regs.peakHist = s.regs.peakHist)

/-! ## The Readback family and the flags -/

/-- R226, R227: REG.RD of a mapped register that is set responds its word and changes no state. R41,
R44: index k of a Biquad names the register R41 gives it, band b of a compressor and of a snapshot the
band R44 gives it, in a read (`get`) and in a write (`put`), which leaves the others. -/
def Obligations.RegRdReturnsMappedWord : Prop :=
  (∀ (s : State) (addr : BitVec 24) (w : ResultWord Config.fmt), s.regs.fault = 0#8 →
    RegisterWord s.regs addr.toNat w →
    exec (.regRd addr) s = .next (answered s s.regs 0x50000000 [w])) ∧
  (∀ (F : Fmt) (f : BiquadBank F) (k : BitVec 3) (v : Biquad F),
    BqAt f k.toNat (f.get k) ∧ BqAt (f.put k v) k.toNat v ∧
    ∀ (n : Nat) (q : Biquad F), n ≠ k.toNat → (BqAt (f.put k v) n q ↔ BqAt f n q)) ∧
  (∀ (F : Fmt) (f : CompBank F) (b : Band) (v : Compressor F),
    BcAt f b.index (f.get b) ∧ BcAt (f.put b v) b.index v ∧
    ∀ (n : Nat) (q : Compressor F), n ≠ b.index → (BcAt (f.put b v) n q ↔ BcAt f n q)) ∧
  (∀ (F : Fmt) (f : SettingsFile F) (b : Band) (v : Settings F),
    SetAt f b.index (f.get b) ∧ SetAt (f.put b v) b.index (some v) ∧
    ∀ (n : Nat) (q : Option (Settings F)), n ≠ b.index → (SetAt (f.put b v) n q ↔ SetAt f n q))

/-- R51: REG.RD of STATUS shows the flags, bit by bit, and changes no state. -/
def Obligations.StatusShowsFlags : Prop :=
  ∀ s : State, s.regs.fault = 0#8 → ∃ w : Word,
    exec (.regRd 0x000001) s = .next (answered s s.regs 0x50000000 [.int w]) ∧
    ∀ i : Nat, w.getLsbD i =
      (i == 0 && s.regs.rate.isSome || i == 1 && s.regs.ui || i == 2 && s.regs.xo.isSome ||
        i == 8 && s.regs.set.low.isSome || i == 9 && s.regs.set.mid.isSome ||
        i == 10 && s.regs.set.high.isSome)

/-- R46, R47, R49: FS, DECAY_W and NCH are written by INIT only; R45: SET[b] by BC.SET b and INIT only;
R48: LOW_FREQ and HIGH_FREQ by XO.UPD and INIT only; R50: UI by PK.ATT only. NCH_MAX is a parameter,
the model's own field (log entry 4): no step writes it. -/
def Obligations.ControlRegistersHaveOneWriter : Prop :=
  (∀ (i : Instr) (s t : State), exec i s = .next t →
    (i.opcode ≠ .init → t.regs.rate = s.regs.rate ∧ t.regs.nch = s.regs.nch) ∧
    (i.opcode ≠ .init → i.opcode ≠ .bcSet → t.regs.set = s.regs.set) ∧
    (i.opcode ≠ .init → i.opcode ≠ .xoUpd → t.regs.xo = s.regs.xo) ∧
    (i.opcode ≠ .pkAtt → t.regs.ui = s.regs.ui) ∧
    t.regs.uiSeen = s.regs.uiSeen) ∧
  ∀ s t : State, step s = .next t → t.nchMax = s.nchMax

/-! ## Channels -/

/-- R94: two adjacent commands among BQ.STEP, XO.SPLIT, BC.STEP and SAMPLE that name different channels
and do not fault may be swapped: the final registers are the same, BLOCK_PEAK's maximum included, and
so are the two responses when no NaN encoding is drawn. The same holds of two commands among BQ.SETLP and
BQ.SETHP that name different (c, k). -/
def Obligations.ChannelCommandsCommute : Prop :=
  ∀ (i j : Instr) (c d : BitVec 8) (k l : BitVec 3) (s t t' u u' : State),
    (c ≠ d ∧
        ((∃ k x, i = .bqStep c k x) ∨ (∃ x, i = .xoSplit c x) ∨ (∃ b x, i = .bcStep c b x) ∨
          (∃ x, i = .sample c x)) ∧
        ((∃ k x, j = .bqStep d k x) ∨ (∃ x, j = .xoSplit d x) ∨ (∃ b x, j = .bcStep d b x) ∨
          (∃ x, j = .sample d x)) ∨
      (c ≠ d ∨ k ≠ l) ∧
        ((∃ f fs, i = .bqSetlp c k f fs) ∨ (∃ f fs, i = .bqSethp c k f fs)) ∧
        ((∃ f fs, j = .bqSetlp d l f fs) ∨ (∃ f fs, j = .bqSethp d l f fs))) →
    exec i s = .next t → exec j t = .next t' → exec j s = .next u → exec i u = .next u' →
    t'.regs.fault = 0#8 →
    u'.regs = t'.regs ∧
    (t'.ports.draws = s.ports.draws →
      ∃ ri rj : List Word, t.ports.resp = s.ports.resp ++ ri ∧ t'.ports.resp = t.ports.resp ++ rj ∧
        u.ports.resp = s.ports.resp ++ rj ∧ u'.ports.resp = u.ports.resp ++ ri)

/-- R94, R200 (e): a command that names channel c leaves the bank of every other channel as it was. -/
def Obligations.OtherChannelsUntouched : Prop :=
  ∀ (i : Instr) (c : BitVec 8) (s t : State) (n : Nat),
    ((∃ k f fs, i = .bqSetlp c k f fs) ∨ (∃ k f fs, i = .bqSethp c k f fs) ∨
      (∃ k x, i = .bqStep c k x) ∨ (∃ x, i = .xoSplit c x) ∨ (∃ b x, i = .bcStep c b x) ∨
      (∃ x, i = .sample c x)) →
    exec i s = .next t → n ≠ c.toNat → t.regs.chans[n]? = s.regs.chans[n]?

/-- R118, R198: PROCESS_BLOCK has no failure path under valid inputs: with INITED = 1, every frame no
longer than NCH, and clamps that are well formed for its request, no command of it faults. -/
def Obligations.ProcessBlockNeverFaults : Prop :=
  ∀ (s : State) (e : RateRegs Config.fmt) (p0 p1 p2 : Asm.BandParams) (lo hi : Word)
    (frames : List (List Word)) (lh : Value × Value),
    s.regs.Inv → s.regs.fault = 0#8 → s.regs.rate = some e →
    xoClamp (Sys2Proof.Num.ofWord lo) (Sys2Proof.Num.ofWord hi) e.fs = .ok lh →
    (∀ xs ∈ frames, xs.length ≤ s.regs.nch.toNat) →
    (perform (Asm.processBlock p0 p1 p2 lo hi frames) s).regs.fault = 0#8
end

