-- ==== Sys2Proof/Laws/Decode.lean ====
section
/-! SUPPORT. The header fields of an encoded command, one lemma per field, and its fixed bits. -/

namespace Sys2Proof

/-- One bit of a header (R102). -/
theorem header_getLsbD (op a b : BitVec 8) {i : Nat} (hi : i < 32) :
    (header op a b).getLsbD i =
      if 24 ≤ i then op.getLsbD (i - 24) else if 16 ≤ i then a.getLsbD (i - 16)
      else if 8 ≤ i then b.getLsbD (i - 8) else false := by
  have hb (x : BitVec 8) (n : Nat) (h : 8 + n ≤ i) : x.getLsbD (i - n) = false :=
    BitVec.getLsbD_of_ge _ _ (by omega)
  simp only [header, BitVec.getLsbD_or, BitVec.getLsbD_shiftLeft, BitVec.getLsbD_setWidth]
  by_cases h24 : 24 ≤ i
  · simp [hi, h24, hb a 16 (by omega), hb b 8 (by omega), show ¬ i < 24 by omega,
      show i - 24 < 32 by omega]
  by_cases h16 : 16 ≤ i
  · simp [hi, h24, h16, hb b 8 (by omega), show i < 24 by omega, show ¬ i < 16 by omega,
      show i - 16 < 32 by omega]
  by_cases h8 : 8 ≤ i
  · simp [hi, h24, h16, h8, show i < 24 by omega, show i < 16 by omega, show ¬ i < 8 by omega,
      show i - 8 < 32 by omega]
  · simp [h24, h16, h8, show i < 24 by omega, show i < 16 by omega, show i < 8 by omega]

@[simp] theorem opField_header (op a b : BitVec 8) : opField (header op a b) = op := by
  apply BitVec.eq_of_getLsbD_eq
  intro i hi
  rw [opField, BitVec.getLsbD_extractLsb', header_getLsbD _ _ _ (by omega)]
  simp [hi]

@[simp] theorem chanField_header (op a b : BitVec 8) : chanField (header op a b) = a := by
  apply BitVec.eq_of_getLsbD_eq
  intro i hi
  rw [chanField, BitVec.getLsbD_extractLsb', header_getLsbD _ _ _ (by omega)]
  simp [hi, show ¬ 24 ≤ 16 + i by omega]

/-- Bits 15:8 of a header are its B field. -/
theorem header_getLsbD_b (op a b : BitVec 8) {i : Nat} (hi : i < 8) :
    (header op a b).getLsbD (8 + i) = b.getLsbD i := by
  rw [header_getLsbD _ _ _ (by omega)]
  simp [show ¬ 24 ≤ 8 + i by omega, show ¬ 16 ≤ 8 + i by omega]

@[simp] theorem biquadField_header (op a : BitVec 8) (k : BitVec 3) :
    biquadField (header op a (k.setWidth 8)) = k := by
  apply BitVec.eq_of_getLsbD_eq
  intro i hi
  rw [biquadField, BitVec.getLsbD_extractLsb', header_getLsbD_b _ _ _ (by omega)]
  simp [hi, show i < 8 by omega]

@[simp] theorem bandField_header (op a : BitVec 8) (b : BitVec 2) :
    bandField (header op a (b.setWidth 8)) = b := by
  apply BitVec.eq_of_getLsbD_eq
  intro i hi
  rw [bandField, BitVec.getLsbD_extractLsb', header_getLsbD_b _ _ _ (by omega)]
  simp [hi, show i < 8 by omega]

@[simp] theorem flagField_header (op a : BitVec 8) (f : BitVec 1) :
    flagField (header op a (f.setWidth 8)) = f := by
  apply BitVec.eq_of_getLsbD_eq
  intro i hi
  rw [flagField, BitVec.getLsbD_extractLsb', header_getLsbD_b _ _ _ (by omega)]
  simp [hi, show i < 8 by omega]

@[simp] theorem addrField_addrHeader (op : BitVec 8) (addr : BitVec 24) :
    addrField (addrHeader op addr) = addr := by
  apply BitVec.eq_of_getLsbD_eq
  intro i hi
  simp only [addrField, addrHeader, BitVec.getLsbD_extractLsb', BitVec.getLsbD_or,
    BitVec.getLsbD_shiftLeft, BitVec.getLsbD_setWidth]
  simp [hi, show i < 32 by omega]

@[simp] theorem opField_addrHeader (op : BitVec 8) (addr : BitVec 24) :
    opField (addrHeader op addr) = op := by
  apply BitVec.eq_of_getLsbD_eq
  intro i hi
  simp only [opField, addrHeader, BitVec.getLsbD_extractLsb', BitVec.getLsbD_or,
    BitVec.getLsbD_shiftLeft, BitVec.getLsbD_setWidth]
  simp [hi, show 24 + i < 32 by omega, show i < 32 by omega]

/-- A header that is legal for its row, its operands there, is that row's command (R103, R110). -/
theorem decode_legal {h : Word} {o : Opcode} {tl : List Word} (hop : Opcode.ofCode (opField h) = some o)
    (hl : o.operandCount ≤ tl.length) (hf : headerFault o h = none) :
    decode (h :: tl) = .legal (o.build h (fun j => tl.getD j 0)) (tl.drop o.operandCount) := by
  simp [decode, hop, Nat.not_lt.2 hl, hf]

/-- A header that is illegal for its row takes the row's length (R109). -/
theorem decode_illegal {h : Word} {o : Opcode} {tl : List Word} {why : IllegalCause}
    (hop : Opcode.ofCode (opField h) = some o) (hl : o.operandCount ≤ tl.length)
    (hf : headerFault o h = some why) :
    decode (h :: tl) = .illegal why (opField h) (tl.drop o.operandCount) := by
  simp [decode, hop, Nat.not_lt.2 hl, hf]

/-- Everything the decoder can answer (R109, R110). -/
theorem decode_cases (h : Word) (tl : List Word) :
    (Opcode.ofCode (opField h) = none ∧ decode (h :: tl) = .illegal .unknownOp (opField h) tl) ∨
    ∃ o, Opcode.ofCode (opField h) = some o ∧
      ((tl.length < o.operandCount ∧ decode (h :: tl) = .needMore) ∨
      (o.operandCount ≤ tl.length ∧ ∃ why, headerFault o h = some why ∧
        decode (h :: tl) = .illegal why (opField h) (tl.drop o.operandCount)) ∨
      (o.operandCount ≤ tl.length ∧ headerFault o h = none ∧
        decode (h :: tl) = .legal (o.build h (fun j => tl.getD j 0)) (tl.drop o.operandCount))) := by
  cases hop : Opcode.ofCode (opField h) with
  | none => exact .inl ⟨rfl, by simp [decode, hop]⟩
  | some o =>
    refine .inr ⟨o, rfl, ?_⟩
    by_cases hl : tl.length < o.operandCount
    · exact .inl ⟨hl, by simp [decode, hop, hl]⟩
    · have hl := Nat.not_lt.1 hl
      cases hf : headerFault o h with
      | some why => exact .inr (.inl ⟨hl, why, rfl, decode_illegal hop hl hf⟩)
      | none => exact .inr (.inr ⟨hl, rfl, decode_legal hop hl hf⟩)

/-- A header passes the checks of its row exactly when its fixed bits are those of the row and its
band field, if it has one, is not 3 (R109). -/
theorem headerFault_none {o : Opcode} {h : Word} :
    headerFault o h = none ↔ h &&& o.mask = o.pattern ∧ ¬ (o.hasBand = true ∧ bandField h = 3#2) := by
  unfold headerFault
  split <;> [skip; split] <;> simp_all

/-- The opcode of a built command is its row. -/
@[simp] theorem build_opcode (o : Opcode) (h : Word) (w : Nat → Word) : (o.build h w).opcode = o := by
  cases o <;> rfl

/-- The opcode bytes are the map's. -/
@[simp] theorem ofCode_code (o : Opcode) : Opcode.ofCode o.code = some o := by cases o <;> rfl

/-- A byte the map knows is the code of its row. -/
theorem ofCode_eq {op : BitVec 8} {o : Opcode} (h : Opcode.ofCode op = some o) : o.code = op := by
  unfold Opcode.ofCode at h
  split at h <;> cases h <;> rfl

end Sys2Proof
end

