-- ==== Sys2Proof/Laws/Num.lean ====
section
/-! SUPPORT. Small lemmas about values: comparisons as orders of keys, the words of values, and the
floor at a constant. -/

namespace Sys2Proof

variable {F : Fmt}

/-- How many finite magnitudes binary32 has (R11). -/
theorem binary32_magCount : Config.fmt.magCount = 2139095040 := by decide

/-- The finite magnitude codes are those below the all-ones exponent (R11). -/
theorem Fmt.magCount_eq (F : Fmt) : F.magCount = (2 ^ F.expBits - 1) * 2 ^ F.fracBits := by
  have h1 : 2 ^ 1 < 2 ^ F.expBits := Nat.pow_lt_pow_right (by decide) F.two_le_expBits
  have h2 := Nat.mul_pos (show 0 < 2 ^ F.expBits - 1 by omega) (Nat.two_pow_pos F.fracBits)
  exact Nat.sub_add_cancel h2

theorem Num.ofMag_fin (neg : Bool) {m : Nat} (h : m < F.magCount) :
    Num.ofMag neg m = .fin neg ⟨m, h⟩ := dif_pos h

theorem Num.ofMag_inf (neg : Bool) {m : Nat} (h : F.magCount ≤ m) :
    (Num.ofMag neg m : Num F) = .inf neg := dif_neg (by omega)

theorem Num.ofSignMag_fin (neg : Bool) {m : Nat} (h : m < F.magCount) :
    Num.ofSignMag neg m = .fin neg ⟨m, h⟩ := dif_pos h

@[simp] theorem Num.signedZero_isNan (s : Bool) : (Num.signedZero s : Num F).isNan = false := rfl
@[simp] theorem Num.signedZero_isZero (s : Bool) : (Num.signedZero s : Num F).isZero = true := rfl
@[simp] theorem Num.signedZero_signBit (s : Bool) : (Num.signedZero s : Num F).signBit = s := rfl
@[simp] theorem Num.signedZero_key (s : Bool) : (Num.signedZero s : Num F).key = 0 := by
  cases s <;> rfl

theorem Num.isNan_iff (a : Num F) : a.isNan = true ↔ a = .nan := by cases a <;> simp [Num.isNan]

/-- `a < b` by the order of keys (R15). -/
theorem Num.lt_iff (a b : Num F) :
    a.lt b = true ↔ a.isNan = false ∧ b.isNan = false ∧ a.key < b.key := by
  simp [Num.lt, and_assoc]

/-- `a ≤ b` by the order of keys (R15). -/
theorem Num.le_iff (a b : Num F) :
    a.le b = true ↔ a.isNan = false ∧ b.isNan = false ∧ a.key ≤ b.key := by
  simp [Num.le, and_assoc]

/-- `a > b` by the order of keys (R15). -/
theorem Num.gt_iff (a b : Num F) :
    a.gt b = true ↔ a.isNan = false ∧ b.isNan = false ∧ b.key < a.key := by
  rw [Num.gt, Num.lt_iff]; tauto

/-- fmaxc is at least the constant (R18). -/
theorem Num.le_fmaxc (x c : Num F) (hc : c.isNan = false) : c.le (x.fmaxc c) = true := by
  unfold Num.fmaxc
  split
  · rename_i h
    have := (Num.gt_iff _ _).1 h
    exact (Num.le_iff _ _).2 ⟨hc, this.1, by omega⟩
  · exact (Num.le_iff _ _).2 ⟨hc, hc, le_refl _⟩

@[simp] theorem Num.abs_isNan (y : Num F) : y.abs.isNan = y.isNan := by cases y <;> rfl
@[simp] theorem Num.abs_signBit (y : Num F) : y.abs.signBit = false := by cases y <;> rfl

/-- The word of a sign and a magnitude code holds them in bit 31 and bits 30:0 (R11). -/
theorem Num.signMagWord_toNat (s : Bool) {m : Nat} (hm : m < 2 ^ 31) :
    (Num.signMagWord s m).toNat = (if s then 2 ^ 31 else 0) + m := by
  simp only [Num.signMagWord, BitVec.toNat_ofNat]
  apply Nat.mod_eq_of_lt
  cases s <;> simp <;> omega

end Sys2Proof
end

