-- ==== Sys2Proof/Laws/State.lean ====
section
/-! SUPPORT. One lemma per field per update of the state, true by rfl, for the shared operations of
Machine/Ops.lean and Machine/Ports.lean. -/

namespace Sys2Proof.Machine

variable (s : State) (op st : BitVec 8) (f : FaultCode) (r : Regs Config.fmt)
  (rs : List (ResultWord Config.fmt))

@[simp] theorem respond_nchMax : (s.respond op st rs).nchMax = s.nchMax := rfl
@[simp] theorem respond_regs : (s.respond op st rs).regs = s.regs := rfl
@[simp] theorem respond_cmd : (s.respond op st rs).ports.cmd = s.ports.cmd := rfl
@[simp] theorem respond_uiOut : (s.respond op st rs).ports.uiOut = s.ports.uiOut := rfl
@[simp] theorem respond_inputs : (s.respond op st rs).ports.inputs = s.ports.inputs := rfl
@[simp] theorem respond_inReset : (s.respond op st rs).ports.inReset = s.ports.inReset := rfl
@[simp] theorem respond_draws :
    (s.respond op st rs).ports.draws = s.ports.draws + resultDraws rs := rfl
@[simp] theorem respond_resp :
    (s.respond op st rs).ports.resp =
      s.ports.resp ++ respHeader op st :: resultWords s.ports.draws rs := rfl

@[simp] theorem raise_nchMax : (s.raise op f).nchMax = s.nchMax := rfl
@[simp] theorem raise_regs : (s.raise op f).regs = { s.regs with fault := f.code } := rfl
@[simp] theorem raise_cmd : (s.raise op f).ports.cmd = s.ports.cmd := rfl
@[simp] theorem raise_uiOut : (s.raise op f).ports.uiOut = s.ports.uiOut := rfl
@[simp] theorem raise_inputs : (s.raise op f).ports.inputs = s.ports.inputs := rfl
@[simp] theorem raise_inReset : (s.raise op f).ports.inReset = s.ports.inReset := rfl
@[simp] theorem raise_draws : (s.raise op f).ports.draws = s.ports.draws := rfl
@[simp] theorem raise_resp :
    (s.raise op f).ports.resp = s.ports.resp ++ [respHeader op f.code] := rfl

@[simp] theorem refuse_nchMax : (s.refuse op).nchMax = s.nchMax := rfl
@[simp] theorem refuse_regs : (s.refuse op).regs = s.regs := rfl
@[simp] theorem refuse_cmd : (s.refuse op).ports.cmd = s.ports.cmd := rfl
@[simp] theorem refuse_uiOut : (s.refuse op).ports.uiOut = s.ports.uiOut := rfl
@[simp] theorem refuse_inputs : (s.refuse op).ports.inputs = s.ports.inputs := rfl
@[simp] theorem refuse_inReset : (s.refuse op).ports.inReset = s.ports.inReset := rfl
@[simp] theorem refuse_draws : (s.refuse op).ports.draws = s.ports.draws := rfl
@[simp] theorem refuse_resp :
    (s.refuse op).ports.resp = s.ports.resp ++ [respHeader op s.regs.fault] := rfl

@[simp] theorem complete_nchMax : (s.complete op r rs).nchMax = s.nchMax := rfl
@[simp] theorem complete_regs : (s.complete op r rs).regs = r := rfl
@[simp] theorem complete_cmd : (s.complete op r rs).ports.cmd = s.ports.cmd := rfl
@[simp] theorem complete_uiOut : (s.complete op r rs).ports.uiOut = s.ports.uiOut := rfl
@[simp] theorem complete_inputs : (s.complete op r rs).ports.inputs = s.ports.inputs := rfl
@[simp] theorem complete_inReset : (s.complete op r rs).ports.inReset = s.ports.inReset := rfl
@[simp] theorem complete_draws :
    (s.complete op r rs).ports.draws = s.ports.draws + resultDraws rs := rfl
@[simp] theorem complete_resp :
    (s.complete op r rs).ports.resp =
      s.ports.resp ++ respHeader op 0 :: resultWords s.ports.draws rs := rfl

@[simp] theorem withCmd_nchMax (ws : List Word) : (s.withCmd ws).nchMax = s.nchMax := rfl
@[simp] theorem withCmd_regs (ws : List Word) : (s.withCmd ws).regs = s.regs := rfl
@[simp] theorem withCmd_cmd (ws : List Word) : (s.withCmd ws).ports.cmd = ws := rfl
@[simp] theorem withCmd_resp (ws : List Word) : (s.withCmd ws).ports.resp = s.ports.resp := rfl
@[simp] theorem withCmd_uiOut (ws : List Word) : (s.withCmd ws).ports.uiOut = s.ports.uiOut := rfl
@[simp] theorem withCmd_inputs (ws : List Word) : (s.withCmd ws).ports.inputs = s.ports.inputs := rfl
@[simp] theorem withCmd_inReset (ws : List Word) :
    (s.withCmd ws).ports.inReset = s.ports.inReset := rfl
@[simp] theorem withCmd_draws (ws : List Word) : (s.withCmd ws).ports.draws = s.ports.draws := rfl

@[simp] theorem hardwareReset_nchMax : (hardwareReset s).nchMax = s.nchMax := rfl
@[simp] theorem hardwareReset_regs : (hardwareReset s).regs = Regs.reset := rfl
@[simp] theorem hardwareReset_ports :
    (hardwareReset s).ports = { s.ports with cmd := [] } := rfl

end Sys2Proof.Machine

namespace Sys2Proof.Machine

variable {F : Fmt} (r : Regs F) (c : BitVec 8) (ch : Channel F) (w p : Num F)

@[simp] theorem putChan_rate : (r.putChan c ch).rate = r.rate := rfl
@[simp] theorem putChan_nch : (r.putChan c ch).nch = r.nch := rfl
@[simp] theorem putChan_chans : (r.putChan c ch).chans = r.chans.set c.toNat ch := rfl
@[simp] theorem putChan_xo : (r.putChan c ch).xo = r.xo := rfl
@[simp] theorem putChan_set : (r.putChan c ch).set = r.set := rfl
@[simp] theorem putChan_blockPeak : (r.putChan c ch).blockPeak = r.blockPeak := rfl
@[simp] theorem putChan_peak : (r.putChan c ch).peak = r.peak := rfl
@[simp] theorem putChan_ui : (r.putChan c ch).ui = r.ui := rfl
@[simp] theorem putChan_fault : (r.putChan c ch).fault = r.fault := rfl
@[simp] theorem putChan_peakHist : (r.putChan c ch).peakHist = r.peakHist := rfl
@[simp] theorem putChan_uiSeen : (r.putChan c ch).uiSeen = r.uiSeen := rfl

@[simp] theorem pkUpdate_rate : (r.pkUpdate w p).rate = r.rate := rfl
@[simp] theorem pkUpdate_nch : (r.pkUpdate w p).nch = r.nch := rfl
@[simp] theorem pkUpdate_chans : (r.pkUpdate w p).chans = r.chans := rfl
@[simp] theorem pkUpdate_xo : (r.pkUpdate w p).xo = r.xo := rfl
@[simp] theorem pkUpdate_set : (r.pkUpdate w p).set = r.set := rfl
@[simp] theorem pkUpdate_blockPeak : (r.pkUpdate w p).blockPeak = r.blockPeak := rfl
@[simp] theorem pkUpdate_peak : (r.pkUpdate w p).peak = peakNext w r.peak p := rfl
@[simp] theorem pkUpdate_ui : (r.pkUpdate w p).ui = r.ui := rfl
@[simp] theorem pkUpdate_fault : (r.pkUpdate w p).fault = r.fault := rfl
@[simp] theorem pkUpdate_peakHist :
    (r.pkUpdate w p).peakHist = r.peakHist ++ [peakNext w r.peak p] := rfl
@[simp] theorem pkUpdate_uiSeen : (r.pkUpdate w p).uiSeen = r.uiSeen := rfl

end Sys2Proof.Machine
end

