-- ==== Sys2Proof/Laws/Ops.lean ====
section
/-! SUPPORT. What each shared operation can do, said once: the checks, the register operands, a command
as one transaction, and the events at the ports. -/

namespace Sys2Proof.Machine

variable {F : Fmt}

/-- Everything a command can do: it is refused in the fault state, or its rule faults, or its rule
succeeds. -/
theorem runCommand_cases (op : BitVec 8) (rule : Regs Config.fmt → Effect Config.fmt) (s : State) :
    (s.regs.fault ≠ 0#8 ∧ runCommand op rule s = s.refuse op) ∨
    (∃ f, s.regs.fault = 0#8 ∧ rule s.regs = .error f ∧ runCommand op rule s = s.raise op f) ∨
    (∃ r rs, s.regs.fault = 0#8 ∧ rule s.regs = .ok (r, rs) ∧
      runCommand op rule s = s.complete op r rs) := by
  by_cases hf : s.regs.fault = 0#8
  · cases h : rule s.regs with
    | error f => exact .inr (.inl ⟨f, hf, rfl, by simp [runCommand, hf, h]⟩)
    | ok v => exact .inr (.inr ⟨v.1, v.2, hf, rfl, by simp [runCommand, hf, h]⟩)
  · exact .inl ⟨hf, by simp [runCommand, hf]⟩

theorem runCommand_refuse {op : BitVec 8} {rule : Regs Config.fmt → Effect Config.fmt} {s : State}
    (h : s.regs.fault ≠ 0#8) : runCommand op rule s = s.refuse op := by simp [runCommand, h]

theorem runCommand_error {op : BitVec 8} {rule : Regs Config.fmt → Effect Config.fmt}
    {s : State} {f : FaultCode}
    (h : s.regs.fault = 0#8) (hr : rule s.regs = .error f) :
    runCommand op rule s = s.raise op f := by simp [runCommand, h, hr]

theorem runCommand_ok {op : BitVec 8} {rule : Regs Config.fmt → Effect Config.fmt}
    {s : State} {r : Regs Config.fmt}
    {rs : List (ResultWord Config.fmt)} (h : s.regs.fault = 0#8) (hr : rule s.regs = .ok (r, rs)) :
    runCommand op rule s = s.complete op r rs := by simp [runCommand, h, hr]

@[simp] theorem except_pure {ε α : Type} (a : α) : (pure a : Except ε α) = .ok a := rfl
@[simp] theorem except_ok_bind {ε α β : Type} (a : α) (k : α → Except ε β) :
    (Except.ok a >>= k) = k a := rfl
@[simp] theorem except_error_bind {ε α β : Type} (e : ε) (k : α → Except ε β) :
    (Except.error e >>= k) = .error e := rfl

/-- A sequence of checks and effects that succeeds: each part does. -/
theorem except_bind_eq_ok {ε α β : Type} {x : Except ε α} {k : α → Except ε β} {b : β} :
    (x >>= k) = .ok b ↔ ∃ a, x = .ok a ∧ k a = .ok b := by
  cases x <;> simp

theorem needRate_ok {r : Regs F} {e : RateRegs F} : r.needRate = .ok e ↔ r.rate = some e := by
  unfold Regs.needRate; cases r.rate <;> simp

theorem needRate_error {r : Regs F} {f : FaultCode} :
    r.needRate = .error f ↔ r.rate = none ∧ f = .uninit := by
  unfold Regs.needRate; cases r.rate <;> simp [eq_comm]

theorem needBand_ok {b : BitVec 2} {v : Band} : needBand b = .ok v ↔ Band.ofField b = some v := by
  unfold needBand; cases Band.ofField b <;> simp

theorem ofField_none {b : BitVec 2} : Band.ofField b = none ↔ b = 3#2 := by
  revert b; decide

theorem needBand_error {b : BitVec 2} {f : FaultCode} :
    needBand b = .error f ↔ b = 3#2 ∧ f = .illegal := by
  unfold needBand
  cases h : Band.ofField b with
  | none => simp [ofField_none.1 h, eq_comm]
  | some v =>
    have : b ≠ 3#2 := fun hb => by rw [ofField_none.2 hb] at h; cases h
    simp [this]

/-- A channel's bank exists exactly for c < NCH where the bank file holds it (R40, R243). -/
theorem chan?_some {r : Regs F} {c : BitVec 8} {ch : Channel F} :
    r.chan? c = some ch ↔ c.toNat < r.nch.toNat ∧ r.chans[c.toNat]? = some ch := by
  simp [Regs.chan?]

theorem needChan_ok {r : Regs F} {c : BitVec 8} {ch : Channel F} :
    r.needChan c = .ok ch ↔ c.toNat < r.nch.toNat ∧ r.chans[c.toNat]? = some ch := by
  rw [← chan?_some]; unfold Regs.needChan; cases r.chan? c <;> simp

theorem needChan_error {r : Regs F} {c : BitVec 8} {f : FaultCode} :
    r.needChan c = .error f ↔ r.chan? c = none ∧ f = .channel := by
  unfold Regs.needChan; cases r.chan? c <;> simp [eq_comm]

theorem chan?_none_of_ge {r : Regs F} {c : BitVec 8} (h : r.nch.toNat ≤ c.toNat) :
    r.chan? c = none := by simp [Regs.chan?, Nat.not_lt.2 h]

theorem needSet_ok {r : Regs F} {b : Band} {v : Settings F} :
    r.needSet b = .ok v ↔ r.set.get b = some v := by
  unfold Regs.needSet; cases r.set.get b <;> simp

theorem needSet_error {r : Regs F} {b : Band} {f : FaultCode} :
    r.needSet b = .error f ↔ r.set.get b = none ∧ f = .unset := by
  unfold Regs.needSet; cases r.set.get b <;> simp [eq_comm]

theorem biquad_get_put (f : BiquadBank F) (k k' : BitVec 3) (v : Biquad F) :
    (f.put k v).get k' = if k' = k then v else f.get k' := by
  obtain ⟨i, rfl⟩ : ∃ i : Fin 8, k = BitVec.ofFin i := ⟨k.toFin, rfl⟩
  obtain ⟨j, rfl⟩ : ∃ j : Fin 8, k' = BitVec.ofFin j := ⟨k'.toFin, rfl⟩
  fin_cases i <;> fin_cases j <;> rfl

theorem comp_get_put (f : CompBank F) (b b' : Band) (v : Compressor F) :
    (f.put b v).get b' = if b' = b then v else f.get b' := by
  cases b <;> cases b' <;> rfl

theorem settings_get_put (f : SettingsFile F) (b b' : Band) (v : Settings F) :
    (f.put b v).get b' = if b' = b then some v else f.get b' := by
  cases b <;> cases b' <;> rfl

/-- Two settings files with the same snapshots are equal. -/
theorem settings_ext {f f' : SettingsFile F} (h : ∀ b, f.get b = f'.get b) : f = f' := by
  cases f; cases f'
  exact congr (congr (congrArg SettingsFile.mk (h .low)) (h .mid)) (h .high)

/-- xo_clamp in one lemma: when it succeeds both pairs of bounds are in order, and the results are
the two clamps (R153). -/
theorem xoClamp_ok {lo hi fs low high : Num F} (h : xoClamp lo hi fs = .ok (low, high)) :
    let nyq := fs.div Num.two
    let lmin := Num.ofDec Config.lowMinHz
    let lmax := nyq.mul (Num.ofDec Config.lowMaxFrac)
    let hmin := low.add (Num.ofDec Config.sepMinHz)
    let hmax := nyq.mul (Num.ofDec Config.highMaxFrac)
    lmin.le lmax = true ∧ low = lo.clamp lmin lmax ∧ hmin.le hmax = true ∧
      high = hi.clamp hmin hmax := by
  simp only [xoClamp] at h
  split at h
  · cases h
  split at h
  · cases h
  · cases h; simp_all

/-- xo_clamp raises no fault but F_RANGE (R246). -/
theorem xoClamp_error {lo hi fs : Num F} {f : FaultCode} (h : xoClamp lo hi fs = .error f) :
    f = .range := by
  simp only [xoClamp] at h
  split at h
  · cases h; rfl
  split at h <;> cases h
  rfl

/-- Everything an outside event can do. -/
theorem takeInput_cases (s : State) :
    (s.ports.inputs = [] ∧ takeInput s = s) ∨
    (∃ ev tl, s.ports.inputs = ev :: tl ∧
      takeInput s = ev.apply { s with ports := { s.ports with inputs := tl } }) := by
  unfold takeInput
  cases h : s.ports.inputs with
  | nil => exact .inl ⟨rfl, rfl⟩
  | cons ev tl => exact .inr ⟨ev, tl, rfl, rfl⟩

/-- Everything a step can do: it performs a legal command, it takes the fault of an illegal one, or an
outside event happens. -/
theorem step_cases (s : State) :
    (∃ i rest, fetch s = .legal i rest ∧ step s = exec i (s.withCmd rest)) ∨
    (∃ why op rest, fetch s = .illegal why op rest ∧
      step s = .next (illegalCommand op (s.withCmd rest))) ∨
    (fetch s = .needMore ∧ step s = .next (takeInput s)) := by
  unfold step
  cases h : fetch s with
  | needMore => exact .inr (.inr ⟨rfl, rfl⟩)
  | legal i rest => exact .inl ⟨i, rest, rfl, rfl⟩
  | illegal why op rest => exact .inr (.inl ⟨why, op, rest, rfl, rfl⟩)

/-- The rule of a command, on the registers (R10): every command is one transaction over it. -/
def Instr.rule (p : Params Config.fmt) (nchMax : BitVec 8) : Instr → Regs Config.fmt → Effect Config.fmt
  | .init nch fs => Regs.init p nchMax nch (Num.ofWord fs)
  | .blkBeg => Regs.blkBeg
  | .sample c x => Regs.sample p c (Num.ofWord x)
  | .blkEnd => Regs.blkEnd
  | .bqSetlp c k freq fs => Regs.bqSetlp p c k (Num.ofWord freq) (Num.ofWord fs)
  | .bqSethp c k freq fs => Regs.bqSethp p c k (Num.ofWord freq) (Num.ofWord fs)
  | .bqStep c k x => Regs.bqStep c k (Num.ofWord x)
  | .xoUpd lo hi => Regs.xoUpd p (Num.ofWord lo) (Num.ofWord hi)
  | .xoSplit c x => Regs.xoSplit c (Num.ofWord x)
  | .bcSet b t r a l g => Regs.bcSet p b (Num.ofWord t) (Num.ofWord r) (Num.ofWord a)
      (Num.ofWord l) (Num.ofWord g)
  | .bcStep c b x => Regs.bcStep p c b (Num.ofWord x)
  | .pkAtt f => Regs.pkAtt f
  | .pkUpd v => Regs.pkUpd (Num.ofWord v)
  | .pkRead => Regs.pkRead
  | .regRd addr => Regs.regRd addr

/-- Every command is one transaction over its rule. -/
theorem exec_eq (i : Instr) (s : State) :
    exec i s = .next (runCommand i.opcode.code (Instr.rule Config.params s.nchMax i) s) := by
  cases i <;> rfl

/-- Every command answers a next state: there is no way for a command not to complete (R199). -/
theorem exec_inv {i : Instr} {s t : State} (h : exec i s = .next t) :
    t = runCommand i.opcode.code (Instr.rule Config.params s.nchMax i) s := by
  rw [exec_eq] at h; cases h; rfl

end Sys2Proof.Machine
end

