-- ==== Sys2Proof/Laws/PerInstr.lean ====
section
/-! SUPPORT. A family of statements proved per instruction: how long an encoded command is (30_encoding.md
R103, R111) and that its header carries its opcode (R102, R107). -/

namespace Sys2Proof.Laws

/-- An encoded command has its header and the operand words of its row, and OP of the header is the
row's code. -/
def EncodeShape.Statement (i : Instr) : Prop :=
  (encode i).length = 1 + i.opcode.operandCount ∧ (encode i).head?.map opField = some i.opcode.code

theorem EncodeShape.init (nch : BitVec 8) (fs : Word) : EncodeShape.Statement (.init nch fs) :=
  ⟨rfl, by simp [encode, Instr.opcode, Opcode.code]⟩

theorem EncodeShape.blkBeg : EncodeShape.Statement .blkBeg :=
  ⟨rfl, by simp [encode, Instr.opcode, Opcode.code]⟩

theorem EncodeShape.sample (c : BitVec 8) (x : Word) : EncodeShape.Statement (.sample c x) :=
  ⟨rfl, by simp [encode, Instr.opcode, Opcode.code]⟩

theorem EncodeShape.blkEnd : EncodeShape.Statement .blkEnd :=
  ⟨rfl, by simp [encode, Instr.opcode, Opcode.code]⟩

theorem EncodeShape.bqSetlp (c : BitVec 8) (k : BitVec 3) (freq fs : Word) : EncodeShape.Statement (.bqSetlp c k freq fs) :=
  ⟨rfl, by simp [encode, Instr.opcode, Opcode.code]⟩

theorem EncodeShape.bqSethp (c : BitVec 8) (k : BitVec 3) (freq fs : Word) : EncodeShape.Statement (.bqSethp c k freq fs) :=
  ⟨rfl, by simp [encode, Instr.opcode, Opcode.code]⟩

theorem EncodeShape.bqStep (c : BitVec 8) (k : BitVec 3) (x : Word) : EncodeShape.Statement (.bqStep c k x) :=
  ⟨rfl, by simp [encode, Instr.opcode, Opcode.code]⟩

theorem EncodeShape.xoUpd (lo hi : Word) : EncodeShape.Statement (.xoUpd lo hi) :=
  ⟨rfl, by simp [encode, Instr.opcode, Opcode.code]⟩

theorem EncodeShape.xoSplit (c : BitVec 8) (x : Word) : EncodeShape.Statement (.xoSplit c x) :=
  ⟨rfl, by simp [encode, Instr.opcode, Opcode.code]⟩

theorem EncodeShape.bcSet (b : BitVec 2) (t r a l g : Word) : EncodeShape.Statement (.bcSet b t r a l g) :=
  ⟨rfl, by simp [encode, Instr.opcode, Opcode.code]⟩

theorem EncodeShape.bcStep (c : BitVec 8) (b : BitVec 2) (x : Word) : EncodeShape.Statement (.bcStep c b x) :=
  ⟨rfl, by simp [encode, Instr.opcode, Opcode.code]⟩

theorem EncodeShape.pkAtt (f : BitVec 1) : EncodeShape.Statement (.pkAtt f) :=
  ⟨rfl, by simp [encode, Instr.opcode, Opcode.code]⟩

theorem EncodeShape.pkUpd (p : Word) : EncodeShape.Statement (.pkUpd p) :=
  ⟨rfl, by simp [encode, Instr.opcode, Opcode.code]⟩

theorem EncodeShape.pkRead : EncodeShape.Statement .pkRead :=
  ⟨rfl, by simp [encode, Instr.opcode, Opcode.code]⟩

theorem EncodeShape.regRd (addr : BitVec 24) : EncodeShape.Statement (.regRd addr) :=
  ⟨rfl, by simp [encode, Instr.opcode, Opcode.code]⟩

end Sys2Proof.Laws
end

