-- ==== Sys2Proof/Laws/Rules.lean ====
section
/-! SUPPORT. Everything a command's rule can do when it succeeds, one lemma per command: the checks it
passed, the registers it leaves and its results. -/

namespace Sys2Proof.Machine

/-- A command whose rule succeeds, FAULT being 0, answers the registers and results of its rule. -/
theorem exec_answered (i : Instr) {o : Opcode} (ho : i.opcode = o) {s : State}
    {r : Regs Config.fmt} {rs : List (ResultWord Config.fmt)} (h : s.regs.fault = 0#8)
    (hr : Instr.rule Config.params s.nchMax i s.regs = .ok (r, rs)) :
    exec i s = .next (Safety.answered s r (respHeader o.code 0) rs) := by
  subst ho
  rw [exec_eq, runCommand_ok h hr]; rfl

/-- A command whose rule faults, FAULT being 0, takes that fault. -/
theorem exec_faulted (i : Instr) {o : Opcode} (ho : i.opcode = o) {s : State} {f : FaultCode}
    (h : s.regs.fault = 0#8) (hr : Instr.rule Config.params s.nchMax i s.regs = .error f) :
    exec i s = .next (Safety.faulted s (respHeader o.code f.code) f.code) := by
  subst ho
  rw [exec_eq, runCommand_error h hr]
  simp [State.raise, State.respond, Safety.faulted, resultWords, resultDraws]

/-- Everything a command can leave: refused in the fault state, faulted, or answered. -/
theorem exec_cases {i : Instr} {s t : State} (h : exec i s = .next t) :
    (s.regs.fault ≠ 0#8 ∧ t = s.refuse i.opcode.code) ∨
    (∃ f, s.regs.fault = 0#8 ∧ Instr.rule Config.params s.nchMax i s.regs = .error f ∧
      t = s.raise i.opcode.code f) ∨
    (∃ r rs, s.regs.fault = 0#8 ∧ Instr.rule Config.params s.nchMax i s.regs = .ok (r, rs) ∧
      t = s.complete i.opcode.code r rs) := by
  have e := exec_inv h
  rcases runCommand_cases i.opcode.code (Instr.rule Config.params s.nchMax i) s with
    ⟨h1, h⟩ | ⟨f, h0, h1, h⟩ | ⟨r, rs, h0, hr, h⟩
  · exact .inl ⟨h1, by rw [e, h]⟩
  · exact .inr (.inl ⟨f, h0, h1, by rw [e, h]⟩)
  · exact .inr (.inr ⟨r, rs, h0, hr, by rw [e, h]⟩)

variable {F : Fmt} {p : Params F} {r r' : Regs F} {rs : List (ResultWord F)}

theorem init_ok {nchMax nch : BitVec 8} {fs : Num F} (h : Regs.init p nchMax nch fs r = .ok (r', rs)) :
    nch.toNat ≤ nchMax.toNat ∧ rs = [] ∧ r' =
      { r with
        nch := nch
        rate := some { fs := fs, decayW := decayWeight p fs }
        chans := List.replicate nch.toNat (freshChannel p)
        xo := none
        set := ⟨none, none, none⟩
        blockPeak := Num.zero } := by
  unfold Regs.init at h
  split at h
  · cases h
  · cases h; exact ⟨by omega, rfl, rfl⟩

theorem blkBeg_ok (h : Regs.blkBeg r = .ok (r', rs)) :
    (∃ e, r.rate = some e) ∧ rs = [] ∧ r' = { r with blockPeak := Num.zero } := by
  obtain ⟨e, he, h⟩ := except_bind_eq_ok.1 h
  cases h; exact ⟨⟨e, needRate_ok.1 he⟩, rfl, rfl⟩

theorem sample_ok {c : BitVec 8} {x : Num F} (h : Regs.sample p c x r = .ok (r', rs)) :
    ∃ e ch sl sm sh, r.rate = some e ∧ c.toNat < r.nch.toNat ∧ r.chans[c.toNat]? = some ch ∧
      r.set = ⟨some sl, some sm, some sh⟩ ∧
      rs = [.num (engineSample p sl sm sh ch x).1] ∧
      r' = { r.putChan c (engineSample p sl sm sh ch x).2 with
        blockPeak := blockPeakNext r.blockPeak (engineSample p sl sm sh ch x).1 } := by
  obtain ⟨e, he, h⟩ := except_bind_eq_ok.1 h
  obtain ⟨ch, hc, h⟩ := except_bind_eq_ok.1 h
  obtain ⟨sl, hl, h⟩ := except_bind_eq_ok.1 h
  obtain ⟨sm, hm, h⟩ := except_bind_eq_ok.1 h
  obtain ⟨sh, hh, h⟩ := except_bind_eq_ok.1 h
  cases h
  have hc := needChan_ok.1 hc
  refine ⟨e, ch, sl, sm, sh, needRate_ok.1 he, hc.1, hc.2, ?_, rfl, rfl⟩
  exact settings_ext fun b => by
    cases b
    · exact needSet_ok.1 hl
    · exact needSet_ok.1 hm
    · exact needSet_ok.1 hh

theorem blkEnd_ok (h : Regs.blkEnd r = .ok (r', rs)) :
    ∃ e, r.rate = some e ∧ rs = [] ∧
      r' = if r.ui then r.pkUpdate e.decayW r.blockPeak else r := by
  obtain ⟨e, he, h⟩ := except_bind_eq_ok.1 h
  refine ⟨e, needRate_ok.1 he, ?_⟩
  split at h <;> cases h <;> simp [*]

theorem bqSetlp_ok {c : BitVec 8} {k : BitVec 3} {freq fs : Num F}
    (h : Regs.bqSetlp p c k freq fs r = .ok (r', rs)) :
    ∃ e ch, r.rate = some e ∧ c.toNat < r.nch.toNat ∧ r.chans[c.toNat]? = some ch ∧ rs = [] ∧
      r' = r.putChan c (ch.putBq k (bqSetLowpass p freq fs)) := by
  obtain ⟨e, he, h⟩ := except_bind_eq_ok.1 h
  obtain ⟨ch, hc, h⟩ := except_bind_eq_ok.1 h
  cases h
  exact ⟨e, ch, needRate_ok.1 he, (needChan_ok.1 hc).1, (needChan_ok.1 hc).2, rfl, rfl⟩

theorem bqSethp_ok {c : BitVec 8} {k : BitVec 3} {freq fs : Num F}
    (h : Regs.bqSethp p c k freq fs r = .ok (r', rs)) :
    ∃ e ch, r.rate = some e ∧ c.toNat < r.nch.toNat ∧ r.chans[c.toNat]? = some ch ∧ rs = [] ∧
      r' = r.putChan c (ch.putBq k (bqSetHighpass p freq fs)) := by
  obtain ⟨e, he, h⟩ := except_bind_eq_ok.1 h
  obtain ⟨ch, hc, h⟩ := except_bind_eq_ok.1 h
  cases h
  exact ⟨e, ch, needRate_ok.1 he, (needChan_ok.1 hc).1, (needChan_ok.1 hc).2, rfl, rfl⟩

theorem bqStep_ok {c : BitVec 8} {k : BitVec 3} {x : Num F}
    (h : Regs.bqStep c k x r = .ok (r', rs)) :
    ∃ e ch, r.rate = some e ∧ c.toNat < r.nch.toNat ∧ r.chans[c.toNat]? = some ch ∧
      rs = [.num (bqProcess (ch.bq.get k) x).1] ∧
      r' = r.putChan c (ch.putBq k (bqProcess (ch.bq.get k) x).2) := by
  obtain ⟨e, he, h⟩ := except_bind_eq_ok.1 h
  obtain ⟨ch, hc, h⟩ := except_bind_eq_ok.1 h
  cases h
  exact ⟨e, ch, needRate_ok.1 he, (needChan_ok.1 hc).1, (needChan_ok.1 hc).2, rfl, rfl⟩

theorem xoUpd_ok {lo hi : Num F} (h : Regs.xoUpd p lo hi r = .ok (r', rs)) :
    ∃ e, r.rate = some e ∧
      ((xoMustRecompute r.xo lo hi = false ∧ r' = r ∧ rs = [.int 0]) ∨
      ∃ low high, xoMustRecompute r.xo lo hi = true ∧ xoClamp lo hi e.fs = .ok (low, high) ∧
        rs = [.int 1] ∧ r' =
          { r with
            xo := some { lowFreq := low, highFreq := high }
            chans := r.chans.map fun ch => { ch with bq := xoDesign p low high e.fs } }) := by
  obtain ⟨e, he, h⟩ := except_bind_eq_ok.1 h
  refine ⟨e, needRate_ok.1 he, ?_⟩
  split at h
  · rename_i hm
    obtain ⟨⟨low, high⟩, hc, h⟩ := except_bind_eq_ok.1 h
    cases h
    exact .inr ⟨low, high, hm, hc, rfl, rfl⟩
  · rename_i hm
    cases h
    exact .inl ⟨by simpa using hm, rfl, rfl⟩

theorem xoSplit_ok {c : BitVec 8} {x : Num F} (h : Regs.xoSplit c x r = .ok (r', rs)) :
    ∃ e ch, r.rate = some e ∧ c.toNat < r.nch.toNat ∧ r.chans[c.toNat]? = some ch ∧
      rs = [.num (Machine.xoSplit ch.bq x).1.1, .num (Machine.xoSplit ch.bq x).1.2.1,
        .num (Machine.xoSplit ch.bq x).1.2.2] ∧
      r' = r.putChan c { ch with bq := (Machine.xoSplit ch.bq x).2 } := by
  obtain ⟨e, he, h⟩ := except_bind_eq_ok.1 h
  obtain ⟨ch, hc, h⟩ := except_bind_eq_ok.1 h
  cases h
  exact ⟨e, ch, needRate_ok.1 he, (needChan_ok.1 hc).1, (needChan_ok.1 hc).2, rfl, rfl⟩

theorem bcSet_ok {b : BitVec 2} {thr ratio att rel makeup : Num F}
    (h : Regs.bcSet p b thr ratio att rel makeup r = .ok (r', rs)) :
    ∃ e v, r.rate = some e ∧ Band.ofField b = some v ∧ rs = [] ∧
      r' = { r with
        set := r.set.put v (settingsResolve p.tf e.fs thr ratio att rel makeup) } := by
  obtain ⟨v, hb, h⟩ := except_bind_eq_ok.1 h
  obtain ⟨e, he, h⟩ := except_bind_eq_ok.1 h
  cases h
  exact ⟨e, v, needRate_ok.1 he, needBand_ok.1 hb, rfl, rfl⟩

theorem bcStep_ok {c : BitVec 8} {b : BitVec 2} {x : Num F}
    (h : Regs.bcStep p c b x r = .ok (r', rs)) :
    ∃ e ch v st, r.rate = some e ∧ c.toNat < r.nch.toNat ∧ r.chans[c.toNat]? = some ch ∧
      Band.ofField b = some v ∧ r.set.get v = some st ∧
      rs = [.num (bcProcess p (ch.bc.get v) st x).1] ∧
      r' = r.putChan c (ch.putBc v (bcProcess p (ch.bc.get v) st x).2) := by
  obtain ⟨v, hb, h⟩ := except_bind_eq_ok.1 h
  obtain ⟨e, he, h⟩ := except_bind_eq_ok.1 h
  obtain ⟨ch, hc, h⟩ := except_bind_eq_ok.1 h
  obtain ⟨st, hs, h⟩ := except_bind_eq_ok.1 h
  cases h
  exact ⟨e, ch, v, st, needRate_ok.1 he, (needChan_ok.1 hc).1, (needChan_ok.1 hc).2,
    needBand_ok.1 hb, needSet_ok.1 hs, rfl, rfl⟩

theorem pkAtt_ok {f : BitVec 1} (h : Regs.pkAtt f r = .ok (r', rs)) :
    rs = [] ∧ r' = { r with ui := f == 1 } := by
  cases h; exact ⟨rfl, rfl⟩

theorem pkUpd_ok {v : Num F} (h : Regs.pkUpd v r = .ok (r', rs)) :
    ∃ e, r.rate = some e ∧ rs = [] ∧ r' = r.pkUpdate e.decayW v := by
  obtain ⟨e, he, h⟩ := except_bind_eq_ok.1 h
  cases h; exact ⟨e, needRate_ok.1 he, rfl, rfl⟩

theorem pkRead_ok (h : Regs.pkRead r = .ok (r', rs)) : rs = [.num r.peak] ∧ r' = r := by
  cases h; exact ⟨rfl, rfl⟩

theorem regRd_ok {addr : BitVec 24} (h : Regs.regRd addr r = .ok (r', rs)) :
    ∃ n w, RegName.ofAddr addr = some n ∧ r.read n = .ok w ∧ rs = [w] ∧ r' = r := by
  unfold Regs.regRd at h
  split at h
  · cases h
  · rename_i n hn
    obtain ⟨w, hw, h⟩ := except_bind_eq_ok.1 h
    cases h
    exact ⟨n, w, hn, hw, rfl, rfl⟩

end Sys2Proof.Machine
end

