-- ==== Sys2Proof/Tests/Slice0.lean ====
section
/-! SUPPORT. Tests of the model by its author. Expected values are from spec/: the vectors named in a
test's comment stand in 95_test_vectors.md, the others are worked by hand from the rule named. The last
part shows, for each statement with hypotheses, that something meets them. -/

namespace Sys2Proof.Tests

open Sys2Proof Sys2Proof.Machine Sys2Proof.Safety

/-! ## Well-formedness smoke: b = 3 (R109 (c)) -/

theorem test_wf_bcSet_band3 : Instr.WellFormed (.bcSet 3 0 0 0 0 0) = false := by decide
theorem test_wf_bcStep_band3 : Instr.WellFormed (.bcStep 0 3 0) = false := by decide
theorem test_wf_bands :
    Instr.WellFormed (.bcStep 0 0 0) = true ∧ Instr.WellFormed (.bcSet 2 0 0 0 0 0) = true := by decide

/-! ## Decoding: V-ENC, one word sequence written out for every constructor -/

theorem test_decode_init :
    decode [0x01020000, 0x473B8000] = .legal (.init 2 0x473B8000) [] := by decide
theorem test_decode_blkBeg : decode [0x02000000] = .legal .blkBeg [] := by decide
theorem test_decode_sample :
    decode [0x03010000, 0xBF000000] = .legal (.sample 1 0xBF000000) [] := by decide
theorem test_decode_blkEnd : decode [0x04000000] = .legal .blkEnd [] := by decide
theorem test_decode_bqSetlp :
    decode [0x10000300, 0x463B8000, 0x473B8000] = .legal (.bqSetlp 0 3 0x463B8000 0x473B8000) [] := by
  decide
theorem test_decode_bqSethp :
    decode [0x11010700, 0x447A0000, 0x472C4400] = .legal (.bqSethp 1 7 0x447A0000 0x472C4400) [] := by
  decide
theorem test_decode_bqStep :
    decode [0x12000000, 0x3F800000] = .legal (.bqStep 0 0 0x3F800000) [] := by decide
theorem test_decode_xoUpd :
    decode [0x20000000, 0x43480000, 0x44FA0000] = .legal (.xoUpd 0x43480000 0x44FA0000) [] := by decide
theorem test_decode_xoSplit :
    decode [0x21000000, 0x3F800000] = .legal (.xoSplit 0 0x3F800000) [] := by decide
theorem test_decode_bcSet :
    decode [0x30000100, 0xC1A00000, 0x40000000, 0x40A00000, 0x42480000, 0x40C00000] =
      .legal (.bcSet 1 0xC1A00000 0x40000000 0x40A00000 0x42480000 0x40C00000) [] := by decide
theorem test_decode_bcStep :
    decode [0x31010200, 0xBE800000] = .legal (.bcStep 1 2 0xBE800000) [] := by decide
theorem test_decode_pkAtt :
    decode [0x40000100] = .legal (.pkAtt 1) [] ∧ decode [0x40000000] = .legal (.pkAtt 0) [] := by decide
theorem test_decode_pkUpd : decode [0x41000000, 0x3F000000] = .legal (.pkUpd 0x3F000000) [] := by decide
theorem test_decode_pkRead : decode [0x42000000] = .legal .pkRead [] := by decide
theorem test_decode_regRd :
    decode [0x50000008] = .legal (.regRd 8) [] ∧ decode [0x50010113] = .legal (.regRd 0x010113) [] := by
  decide

/-- V-ILL-1 to V-ILL-9: why, and how many words go. -/
theorem test_illegal :
    decode [0x00000000, 7] = .illegal .unknownOp 0x00 [7] ∧
    decode [0x05000000, 7] = .illegal .unknownOp 0x05 [7] ∧
    decode [0x02000001, 7] = .illegal .reservedBit 0x02 [7] ∧
    decode [0x31000300, 0x3F800000, 7] = .illegal .bandThree 0x31 [7] ∧
    decode [0x40000200, 7] = .illegal .reservedBit 0x40 [7] ∧
    decode [0x10000800, 0, 0, 7] = .illegal .reservedBit 0x10 [7] ∧
    decode [0x20010000, 0, 0, 7] = .illegal .reservedBit 0x20 [7] ∧
    decode [0xFFFFFFFF, 7] = .illegal .unknownOp 0xFF [7] ∧
    decode [0x50FFFFFF, 7] = .legal (.regRd 0xFFFFFF) [7] := by decide

/-- R110: a command whose operands are missing is left on the port. -/
theorem test_need_more : decode [0x30000100, 0, 0, 0, 0] = .needMore ∧ decode [] = .needMore := by decide

/-- The words of opcode_table.json's numbering: bits 63:32 are the second word. -/
theorem test_table_word :
    decodeTableWord 64 (0x473B8000 * 2 ^ 32 + 0x01020000) = some (.init 2 0x473B8000) ∧
    decodeTableWord 32 0x42000000 = some .pkRead ∧ decodeTableWord 32 0x00000000 = none := by decide

/-- V-ENC-15, R83: the stored bytes of V-ENC-1. -/
theorem test_stored_bytes :
    wordsOfBytes [0x00, 0x00, 0x02, 0x01, 0x00, 0x80, 0x3B, 0x47] = [0x01020000, 0x473B8000] ∧
    bytesOfWords [0x01020000, 0x473B8000] = [0x00, 0x00, 0x02, 0x01, 0x00, 0x80, 0x3B, 0x47] := by decide

/-- V-ENC-5, V-ENC-14: assembler lines, and a comment after one (R113 to R116). -/
theorem test_asm :
    Asm.lineWords "BQ.SETLP c0, q3, 12000, 48000 ; x".toList =
      some [0x10000300, 0x463B8000, 0x473B8000] ∧
    Asm.lineWords "REG.RD c1.q2.a1".toList = some [0x50010113] ∧
    Asm.lineWords "REG.RD SET1.att".toList = some [0x5000001A] ∧
    Asm.lineWords "SAMPLE c1, -0.5".toList = some [0x03010000, 0xBF000000] ∧
    Asm.lineWords "-> 0".toList = some [] := by decide +kernel

/-! ## Numbers: V-NUM -/

/-- A value by its word. -/
def num (w : Word) : Value := Sys2Proof.Num.ofWord w

/-- V-NUM-1. -/
theorem test_constants :
    Sys2Proof.Num.ofDec Config.lowMaxFrac = num 0x3F4CCCCD ∧
    Sys2Proof.Num.ofDec Config.highMaxFrac = num 0x3F7D70A4 ∧
    Sys2Proof.Num.ofDec Config.timeFloorS = num 0x38D1B717 ∧
    Sys2Proof.Num.ofNat 1000 = num 0x447A0000 ∧
    Sys2Proof.Num.ofDec Config.decayRatio = num 0x3E800000 ∧
    Config.pi = num 0x40490FDB ∧ Config.butterQ = num 0x3F3504F3 := by decide

/-- IEEE 754 binary16, a format of R6 other than the ports'. -/
def binary16 : Fmt := ⟨5, 10, by decide, by decide⟩

/-- The binary16 words of 1/10 and of 1/3, known from IEEE 754: 0x2E66 and 0x3555. -/
theorem test_binary16 :
    (Sys2Proof.Num.ofDec ⟨1, 10⟩ : Sys2Proof.Num binary16) = .fin false ⟨0x2E66, by decide⟩ ∧
    (Sys2Proof.Num.ofNat 1).div (Sys2Proof.Num.ofNat 3 : Sys2Proof.Num binary16) =
      .fin false ⟨0x3555, by decide⟩ := by decide

/-- R22: 10^10 is the last power of ten that binary32 holds exactly; binary16 ends at 10^4. -/
theorem test_exact_powers :
    (num 0x501502F9).powerOfTen = some 10 ∧
    (Sys2Proof.Num.ofNat (10 ^ 11) : Value).powerOfTen = none ∧
    (Sys2Proof.Num.ofNat 10 : Value).exactExponent = some 10 ∧
    (Sys2Proof.Num.ofNat 11 : Value).exactExponent = none ∧
    (Sys2Proof.Num.ofNat 4 : Sys2Proof.Num binary16).exactExponent = some 4 ∧
    (Sys2Proof.Num.ofNat 5 : Sys2Proof.Num binary16).exactExponent = none := by decide

/-- R24: at TF_ULP = 0.5 an infinity is within the bound from the overflow threshold 2^128 − 2^103 on,
and is not for the greatest finite value. -/
theorem test_ulp_threshold :
    WithinUlps (1 / 2) (.inf false : Value) (2 ^ 128 - 2 ^ 103) ∧
    ¬ WithinUlps (1 / 2) (.inf false : Value) (2 ^ 128 - 2 ^ 104) := by
  constructor <;> norm_num [WithinUlps]

/-- V-NUM-2. -/
theorem test_zeros :
    (num 0).add (num 0x80000000) = num 0 ∧ (num 0x80000000).add (num 0x80000000) = num 0x80000000 ∧
    (num 0x3F800000).sub (num 0x3F800000) = num 0 ∧
    (num 0x80000000).mul (num 0x40A00000) = num 0x80000000 := by decide

/-- V-NUM-3. -/
theorem test_comparisons :
    Sys2Proof.Num.nan.gt (num 0) = false ∧ (num 0).gt (num 0x80000000) = false ∧
    (num 0xFF800000).gt (num 0xFF800000) = false ∧ (num 0xC2C80000).gt (num 0xFF800000) = true := by
  decide

/-- V-NUM-4. -/
theorem test_fmaxc :
    Sys2Proof.Num.nan.fmaxc (num 0x3F800000) = num 0x3F800000 ∧
    (num 0x3F000000).fmaxc (num 0x3F800000) = num 0x3F800000 ∧
    (num 0x7F800000).fmaxc (num 0x3F800000) = num 0x7F800000 ∧
    (num 0xFF800000).fmaxc (num 0x3F800000) = num 0x3F800000 := by decide

/-- V-NUM-8: (−100) · att + 0 · (1 − att). -/
theorem test_envelope_step :
    onePole (num 0xC2C80000) (num 0) (num 0x3F7F779C) = num 0xC2C79572 := by decide

/-- V-XO-1: the requests (5, 3000), (5, 12), (30000, 100) and NaN at 44100 Hz. -/
theorem test_clamp :
    xoClamp (num 0x40A00000) (num 0x453B8000) (num 0x472C4400) =
      .ok (num 0x41200000, num 0x453B8000) ∧
    xoClamp (num 0x40A00000) (num 0x41400000) (num 0x472C4400) =
      .ok (num 0x41200000, num 0x41A00000) ∧
    xoClamp (num 0x46EA6000) (num 0x42C80000) (num 0x472C4400) =
      .ok (num 0x4689D000, num 0x4689E400) ∧
    xoClamp .nan (num 0x453B8000) (num 0x472C4400) = .error .range := by decide +kernel

/-- V-XO-2. -/
theorem test_should_recompute :
    shouldRecompute (num 0x43486666) (num 0x43480000) (num 0x3F000000) = false ∧
    shouldRecompute (num 0x43488000) (num 0x43480000) (num 0x3F000000) = false ∧
    shouldRecompute (num 0x4348999A) (num 0x43480000) (num 0x3F000000) = true ∧
    shouldRecompute .nan (num 0x43480000) (num 0x3F000000) = false := by decide

/-! ## One step per test -/

/-- The state a step leaves. -/
def after (s : State) : State :=
  match step s with
  | .next t => t
  | _ => s

/-- A state with words on the command port. -/
def sent (ws : List Word) (s : State) : State := s.withCmd ws

/-- A channel with identity filters and compressors at rest at 0 dB. -/
def chan : Channel Config.fmt where
  bq := ⟨bqNew, bqNew, bqNew, bqNew, bqNew, bqNew, bqNew, bqNew⟩
  bc := ⟨⟨num 0, num 0⟩, ⟨num 0, num 0⟩, ⟨num 0, num 0⟩⟩

/-- Threshold 0 dB, ratio 4, poles 0.5 and 0.75, the given makeup gain. -/
def snapshot (makeup : Word) : Settings Config.fmt where
  thr := num 0
  ratio := num 0x40800000
  att := num 0x3F000000
  rel := num 0x3F400000
  makeup := num makeup

/-- Two channels at 48000 Hz, splits at 200 and 2000 Hz, every snapshot set, UI attached, block peak
0.5, meter 1.0, decay weight 0.5. -/
def ready : State where
  nchMax := 2
  regs :=
    { rate := some ⟨num 0x473B8000, num 0x3F000000⟩
      nch := 2
      chans := [chan, chan]
      xo := some ⟨num 0x43480000, num 0x44FA0000⟩
      set := ⟨some (snapshot 0), some (snapshot 0), some (snapshot 0x41A00000)⟩
      blockPeak := num 0x3F000000
      peak := num 0x3F800000
      ui := true
      fault := 0#8
      peakHist := [num 0, num 0x3F800000]
      uiSeen := 0 }
  ports := { cmd := [], resp := [], uiOut := [], inputs := [], inReset := false, draws := 0 }

/-- After INIT 1, 48000: no snapshot, no split. -/
def bare : State :=
  { ready with
    regs := { ready.regs with nch := 1, chans := [chan], xo := none, set := ⟨none, none, none⟩ } }

/-- The fault state, with code F_CHANNEL. -/
def stuck : State := { ready with regs := { ready.regs with fault := 3#8 } }

/-- R191: from reset, one channel, identity filters, no split, no snapshot. -/
theorem test_init :
    let t := after (sent [0x01010000, 0x473B8000] State.reset)
    t.regs.nch = 1 ∧ t.regs.chans.map (·.bq) = [chan.bq] ∧
      t.regs.rate.map (·.fs) = some (num 0x473B8000) ∧ t.ports.resp = [0x01000000] := by decide
/-- R191, R245: NCH_MAX + 1 channels raise F_PARAM and change nothing else. -/
theorem test_init_param :
    let t := after (sent [0x01030000, 0x473B8000] ready)
    t.regs = { ready.regs with fault := 6#8 } ∧ t.ports.resp = [0x01000006] := by decide

/-- R245: a block with room for three channels takes INIT 3. -/
theorem test_init_three :
    let t := after (sent [0x01030000, 0x473B8000] { ready with nchMax := 3 })
    t.regs.nch = 3 ∧ t.nchMax = 3 ∧ t.ports.resp = [0x01000000] := by decide

/-- R193. -/
theorem test_blkBeg :
    let t := after (sent [0x02000000] ready)
    t.regs = { ready.regs with blockPeak := num 0 } ∧ t.ports.resp = [0x02000000] := by decide

/-- R194: x = 1 through identity filters and compressors at 0 dB; the high band has 20 dB makeup, so
y = (1 + 1) + 10 and the block peak is 12. -/
theorem test_sample :
    let t := after (sent [0x03000000, 0x3F800000] ready)
    t.ports.resp = [0x03000000, 0x41400000] ∧ t.regs.blockPeak = num 0x41400000 := by decide
/-- R244: SAMPLE without snapshots raises F_UNSET. -/
theorem test_sample_unset :
    let t := after (sent [0x03000000, 0x3F800000] bare)
    t.regs = { bare.regs with fault := 4#8 } ∧ t.ports.resp = [0x03000004] := by decide

/-- R197, R212: 1.0 · 0.5 + 0.5 · (1 − 0.5) = 0.75. -/
theorem test_blkEnd :
    let t := after (sent [0x04000000] ready)
    t.regs.peak = num 0x3F400000 ∧ t.regs.peakHist = [num 0, num 0x3F800000, num 0x3F400000] := by
  decide
/-- R197: without UI the meter stands. -/
theorem test_blkEnd_no_ui :
    (after (sent [0x04000000] { ready with regs := { ready.regs with ui := false } })).regs =
      { ready.regs with ui := false } := by decide

/-- V-BQ-7, first row: BQ.SETLP c0, q0, 0, 48000. -/
theorem test_bqSetlp :
    (after (sent [0x10000000, 0, 0x473B8000] ready)).regs.chans.map (·.bq.lowLp0) =
      [⟨num 0, num 0, num 0, num 0xC0000000, num 0x3F800000, num 0, num 0⟩, bqNew] := by decide
/-- V-BQ-7, second row: BQ.SETHP c0, q0, 0, 48000. -/
theorem test_bqSethp :
    (after (sent [0x11000000, 0, 0x473B8000] ready)).regs.chans.map (·.bq.lowLp0) =
      [⟨num 0x3F800000, num 0xC0000000, num 0x3F800000, num 0xC0000000, num 0x3F800000, num 0, num 0⟩,
        bqNew] := by decide
/-- V-BQ-1. -/
theorem test_bqStep :
    let t := after (sent [0x12000000, 0x00000001] ready)
    t.ports.resp = [0x12000000, 0x00000001] ∧ t.regs = ready.regs := by decide
/-- R138 on b0 = 1, b1 = 2, b2 = 3, a1 = 4, a2 = 5, z1 = 6, z2 = 7 and x = 2: y = 8, z1 = −21,
z2 = −34. -/
theorem test_recurrence :
    let n : Nat → Value := Sys2Proof.Num.ofNat
    bqProcess ⟨n 1, n 2, n 3, n 4, n 5, n 6, n 7⟩ (n 2) =
      (n 8, ⟨n 1, n 2, n 3, n 4, n 5, (n 21).neg, (n 34).neg⟩) := by decide

/-- V-XO-3: a request within 0.5 Hz of the applied splits answers 0 and writes nothing. -/
theorem test_xoUpd_hold :
    let t := after (sent [0x20000000, 0x43486666, 0x44FA0000] ready)
    t.ports.resp = [0x20000000, 0] ∧ t.regs = ready.regs := by decide
/-- V-XO-3: the first XO.UPD at a rate always recomputes; at 48000 Hz 5 Hz is clamped to 10. -/
theorem test_xoUpd_first :
    let t := after (sent [0x20000000, 0x40A00000, 0x453B8000] bare)
    t.ports.resp = [0x20000000, 1] ∧ t.regs.xo = some ⟨num 0x41200000, num 0x453B8000⟩ := by
  decide

/-- V-XO-7: 0.25 through identity filters. -/
theorem test_xoSplit :
    let t := after (sent [0x21010000, 0x3E800000] ready)
    t.ports.resp = [0x21000000, 0x3E800000, 0x3E800000, 0x3E800000] ∧ t.regs = ready.regs := by
  decide

/-- V-BC-1, third and fourth rows: the ratio is floored, a NaN ratio too; threshold and makeup are
copied to the band named and no other. -/
theorem test_bcSet :
    let t := after (sent [0x30000100, 0xC1A00000, 0x3F000000, 0, 0xC0A00000, 0x40C00000] ready)
    t.regs.set.mid.map (fun v => (v.thr, v.ratio, v.makeup)) =
      some (num 0xC1A00000, num 0x3F800000, num 0x40C00000) ∧
    t.regs.set.low = ready.regs.set.low ∧ t.regs.set.high = ready.regs.set.high := by decide
/-- V-BC-1, fourth row: a release time of +∞ gives the pole fexp(−0) = 1. -/
theorem test_pole_inf : poleCoef Config.tf (num 0x7F800000) (num 0x473B8000) = num 0x3F800000 := by
  decide

/-- V-BC-2: level 0 dB and no reduction; with 20 dB of makeup the gain is exactly 10 (R23). -/
theorem test_bcStep :
    let t := after (sent [0x31010200, 0x3F800000] ready)
    t.ports.resp = [0x31000000, 0x41200000] ∧ t.regs = ready.regs := by decide
/-- R175: at ratio 4, 16 dB over the threshold ask for −12 dB. -/
theorem test_target : targetReduction (snapshot 0) (num 0x41800000) = num 0xC1400000 := by decide

/-- R210. -/
theorem test_pkAtt :
    (after (sent [0x40000000] ready)).regs = { ready.regs with ui := false } ∧
    (after (sent [0x40000100] State.reset)).regs = { Regs.reset with ui := true } := by decide

/-- R212: 2 > 1 is stored at once. -/
theorem test_pkUpd_attack :
    (after (sent [0x41000000, 0x40000000] ready)).regs =
      { ready.regs with
        peak := num 0x40000000, peakHist := [num 0, num 0x3F800000, num 0x40000000] } := by decide
/-- R212: an equal block peak decays: 1 · 0.5 + 1 · (1 − 0.5) = 1. -/
theorem test_pkUpd_equal :
    (after (sent [0x41000000, 0x3F800000] ready)).regs.peakHist =
      [num 0, num 0x3F800000, num 0x3F800000] := by decide

/-- R214. -/
theorem test_pkRead :
    let t := after (sent [0x42000000] ready)
    t.ports.resp = [0x42000000, 0x3F800000] ∧ t.regs = ready.regs := by decide

/-- R227: STATUS with every flag set. -/
theorem test_regRd_status :
    (after (sent [0x50000001] ready)).ports.resp = [0x50000000, 0x00000707] := by decide
/-- V-ILL-9, R228. -/
theorem test_regRd_unmapped :
    let t := after (sent [0x50FFFFFF] ready)
    t.regs = { ready.regs with fault := 5#8 } ∧ t.ports.resp = [0x50000005] := by decide

/-- R241: in the fault state the code is sticky, for a legal and for an illegal command. -/
theorem test_fault_state :
    (after (sent [0x01010000, 0x473B8000] stuck)).ports.resp = [0x01000003] ∧
    (after (sent [0x05000000] stuck)).ports.resp = [0x05000003] ∧
    (after (sent [0x05000000] stuck)).regs = stuck.regs := by decide

/-- R260: reset asserted in the fault state. -/
theorem test_reset_input :
    (after { stuck with ports := { stuck.ports with inputs := [.resetOn] } }).regs = Regs.reset := by
  decide

/-- The very next step after withFetchWord runs the word. -/
theorem test_withFetchWord :
    (after (State.reset.withFetchWord 32 0x40000100)).regs.ui = true := by decide

/-! ## Witnesses: something meets the hypotheses of each statement that has any, clause by clause -/

/-- The state every witness of a command uses has the invariant. -/
theorem ready_inv : ready.Inv where
  regs :=
    { uninit := by simp [ready]
      banks := by decide
      blockPeak := by decide
      peakLast := by decide
      seen := by decide
      fault := by decide
      ratio := by
        intro b v h
        have hv : v.ratio = num 0x40800000 := by
          cases b <;> simp only [ready, SettingsFile.get, Option.some.injEq] at h <;> rw [← h] <;> rfl
        rw [hv]; decide
      split := by
        intro f h
        simp only [ready, Option.some.injEq] at h
        rw [← h]; decide }
  nchBound := by decide
  reset := by simp [ready]

theorem witness_DecodeReadsBackEncode : Instr.WellFormed (.bcStep 255 2 0xFFFFFFFF) = true := by decide

theorem witness_EncodeReadsBackDecode :
    decode [0x50FFFFFF, 5] = .legal (.regRd 0xFFFFFF) [5] := by decide

theorem witness_DecodeTakesLengthOfOpcode :
    decode (0x30000200 :: [0, 0, 0, 0, 0, 9]) = .legal (.bcSet 2 0 0 0 0 0) [9] ∧
    decode (0x51000000 :: [9]) = .illegal .unknownOp 0x51 [9] ∧
    decode (0x30000300 :: [0, 0, 0, 0, 0, 9]) = .illegal .bandThree 0x30 [9] ∧
    decode (0x30000300 :: [0, 0, 0, 0]) = .needMore := by decide

theorem witness_AddressMapReadsBackNames :
    RegName.ofAddr 0x01FE45 = some (.bc 254 .high .gr) ∧ RegName.ofAddr 0 = some .fault := by decide

theorem witness_PortWordsEncodeValues :
    Sys2Proof.Num.ofWord 0x7F800000 ≠ .nan ∧ Sys2Proof.Num.ofWord 0x7F7FFFFF ≠ .nan := by decide

/-- The real number 1. -/
theorem isReal_one : IsReal (num 0x3F800000) 1 := by
  have h : Sys2Proof.Num.signedUnits Config.fmt false 0x3F800000 = 2 ^ 149 := by decide
  refine ⟨false, ⟨0x3F800000, by decide⟩, by decide, ?_⟩
  rw [h]; norm_num

/-- A tie between two magnitudes: half a unit goes to 0, one and a half to 2; two finite operands; an
exact zero sum and difference; a zero and a divisor that is none. -/
theorem witness_RoundingIsNearestEven :
    0 < 2 ∧ Sys2Proof.Num.round false 1 2 = (.fin false ⟨0, by decide⟩ : Value) ∧
    Sys2Proof.Num.round true 3 2 = (.fin true ⟨2, by decide⟩ : Value) ∧
    (∃ (x y : Value) (u v : ℝ), IsReal x u ∧ IsReal y v ∧ v ≠ 0) ∧
    Sys2Proof.Num.signedUnits Config.fmt true 5 + Sys2Proof.Num.signedUnits Config.fmt false 5 = 0 ∧
    Sys2Proof.Num.signedUnits Config.fmt true 0 = Sys2Proof.Num.signedUnits Config.fmt false 0 ∧
    (0 : Fin Config.fmt.magCount).val = 0 ∧ (1 : Fin Config.fmt.magCount).val ≠ 0 :=
  ⟨by decide, by decide, by decide, ⟨_, _, 1, 1, isReal_one, isReal_one, one_ne_zero⟩, by decide,
    by decide, by decide, by decide⟩

/-- Exactly at the threshold, and one below it. -/
theorem witness_RoundingOverflowsAtThreshold :
    0 < 1 ∧ Sys2Proof.Num.round false ((2 ^ 25 - 1) * 2 ^ 252) 1 = (.inf false : Value) ∧
    (Sys2Proof.Num.round false ((2 ^ 25 - 1) * 2 ^ 252 - 1) 1 : Value).isFinite = true := by decide

/-- The bounds 10 and 20: a value below, one above, each bound itself, and NaN. -/
theorem witness_ClampStaysInBounds :
    (num 0x41200000).le (num 0x41A00000) = true ∧ (num 0x40A00000).lt (num 0x41200000) = true ∧
    (num 0x42C80000).gt (num 0x41A00000) = true ∧ (num 0x41200000).lt (num 0x41200000) = false ∧
    (num 0x41A00000).gt (num 0x41A00000) = false ∧ Sys2Proof.Num.nan.lt (num 0x41200000) = false ∧
    Sys2Proof.Num.nan.gt (num 0x41A00000) = false := by decide

theorem witness_IdentityBiquadPassesInput :
    (true = false ∨ (⟨1, by decide⟩ : Fin Config.fmt.magCount).val ≠ 0) ∧
    (.nan : Value).isFinite = false ∧ (.inf true : Value).isFinite = false := by decide

theorem witness_StepPerformsDecodedCommand :
    (sent [0x42000000, 0x42000000] ready).ports.inReset = false ∧
    decode (sent [0x42000000, 0x42000000] ready).ports.cmd = .legal .pkRead [0x42000000] := by decide

theorem witness_StepFaultsIllegalCommand :
    (sent [0x00000000] ready).ports.inReset = false ∧
    decode (sent [0x00000000] ready).ports.cmd = .illegal .unknownOp 0 [] ∧
    (sent [0x00000000] ready).regs.fault = 0#8 := by decide

/-- An event of each kind, with part of a command on the port and with reset asserted. -/
theorem witness_StepTakesOutsideEvent :
    decode (sent [0x12000000] ready).ports.cmd = .needMore ∧
    (sent [0x12000000] ready).ports.inputs = [] ∧
    ({ ready.ports with inReset := true, inputs := [.word 7] } : Ports).inReset = true ∧
    ({ ready.ports with inputs := [.word 7] } : Ports).inputs = .word 7 :: [] ∧
    ({ ready.ports with inputs := [.resetOn] } : Ports).inputs = .resetOn :: [] ∧
    ({ ready.ports with inputs := [.resetOff] } : Ports).inputs = .resetOff :: [] := by decide

/-- Two stored values to choose from, in the fault state too (FAULT is no part of the hypotheses). -/
theorem witness_UiReadReturnsStoredValue :
    ({ ready with ports := { ready.ports with inputs := [.uiRead] } } : State).regs.Inv ∧
    fetch { ready with ports := { ready.ports with inputs := [.uiRead] } } = .needMore ∧
    ({ ready.ports with inputs := [.uiRead] } : Ports).inputs = .uiRead :: [] :=
  ⟨ready_inv.regs, by decide, rfl⟩

theorem witness_StepKeepsInvariant :
    (sent [0x04000000] ready).Inv ∧ ∃ t, step (sent [0x04000000] ready) = .next t :=
  ⟨⟨ready_inv.regs, by decide, by simp [sent, ready]⟩, _, rfl⟩

theorem witness_FaultingCommandChangesOnlyFault :
    ∃ t, exec (.regRd 0xFFFFFF) ready = .next t ∧ ready.regs.fault = 0#8 ∧ t.regs.fault ≠ 0#8 :=
  ⟨_, rfl, by decide, by decide⟩

theorem witness_FaultStateRefusesEveryCommand :
    stuck.regs.fault ≠ 0#8 ∧ fetch (sent [0x05000000] stuck) = .illegal .unknownOp 0x05 [] := by decide

/-- A command, and the reset input, in the fault state. -/
theorem witness_OnlyHardwareResetClearsFault :
    (∃ t, step (sent [0x42000000] stuck) = .next t) ∧
    (∃ t, step { stuck with ports := { stuck.ports with inputs := [.resetOn] } } = .next t ∧
      t.regs.fault = 0#8) ∧ stuck.regs.fault ≠ 0#8 :=
  ⟨⟨_, rfl⟩, ⟨_, rfl, by decide⟩, by decide⟩

theorem witness_BandThreeFaultsIllegal : ready.regs.fault = 0#8 := by decide

theorem witness_UninitialisedCommandsFault :
    State.reset.regs.fault = 0#8 ∧ State.reset.regs.rate = none ∧
    Instr.WellFormed (.bcSet 2 0 0 0 0 0) = true ∧
    ¬ (Opcode.bcSet = .init ∨ Opcode.bcSet = .pkAtt ∨ Opcode.bcSet = .pkRead ∨ Opcode.bcSet = .regRd) ∧
    Instr.WellFormed (.regRd 3) = true ∧ ∃ t, exec (.regRd 3) State.reset = .next t :=
  ⟨by decide, rfl, by decide, by decide, by decide, _, rfl⟩

/-- c = NCH, the first channel that is not there. -/
theorem witness_MissingChannelFaults :
    ready.regs.fault = 0#8 ∧ (∃ e, ready.regs.rate = some e) ∧
    ready.regs.nch.toNat ≤ (2 : BitVec 8).toNat ∧ (2 : BitVec 2) ≠ 3#2 :=
  ⟨by decide, ⟨_, rfl⟩, by decide, by decide⟩

theorem witness_UnsetSettingsFault :
    bare.regs.fault = 0#8 ∧ (∃ e, bare.regs.rate = some e) ∧ bare.regs.chan? 0 = some chan ∧
    bare.regs.set.low = none ∧ bare.regs.set.mid = none ∧ bare.regs.set.high = none :=
  ⟨by decide, ⟨_, rfl⟩, by decide, rfl, rfl, rfl⟩

theorem witness_InitBeyondMaximumFaults :
    ready.regs.fault = 0#8 ∧ ready.nchMax.toNat < (3 : BitVec 8).toNat := by decide

/-- At 100 Hz, requests 45 and 48 Hz: the second pair of bounds is crossed (V-XO-8); at 20 Hz the first
pair is. -/
theorem witness_CrossedClampBoundsFault :
    xoMustRecompute bare.regs.xo (num 0x42340000) (num 0x42400000) = true ∧
    (((num 0x42340000).clamp (num 0x41200000) (((num 0x42C80000).div (Sys2Proof.Num.ofNat 2)).mul
        (Sys2Proof.Num.ofDec ⟨8, 10⟩))).add (num 0x41200000)).le
      (((num 0x42C80000).div (Sys2Proof.Num.ofNat 2)).mul (Sys2Proof.Num.ofDec ⟨99, 100⟩)) = false ∧
    (Sys2Proof.Num.ofNat 10).le (((num 0x41A00000).div (Sys2Proof.Num.ofNat 2)).mul
      (Sys2Proof.Num.ofDec ⟨8, 10⟩)) = false := by decide

/-- Unmapped addresses at the edges of the map with NCH = 2, and unset registers at both ends. -/
theorem witness_UnmappedAndUnsetReadsFault :
    ready.regs.Inv ∧ ready.regs.fault = 0#8 ∧
    (¬ AddrMapped 2 0x9 ∧ ¬ AddrMapped 2 0xF ∧ ¬ AddrMapped 2 0x15 ∧ ¬ AddrMapped 2 0x28 ∧
      ¬ AddrMapped 2 0x10007 ∧ ¬ AddrMapped 2 0x10046 ∧ ¬ AddrMapped 2 0x10200 ∧
      ¬ AddrMapped 2 0xFFFFFF) ∧
    AddrUnset State.reset.regs 3 ∧ AddrUnset State.reset.regs 5 ∧ AddrUnset State.reset.regs 0x10 ∧
    AddrUnset State.reset.regs 0x24 := by
  refine ⟨ready_inv.regs, by decide, ?_, ?_, ?_, ?_, ?_⟩
  · simp [AddrMapped]
  · exact .inl ⟨.inl rfl, rfl⟩
  · exact .inr (.inl ⟨.inr rfl, rfl⟩)
  · exact .inr (.inr ⟨0, 0, by decide, rfl, .low⟩)
  · exact .inr (.inr ⟨2, 4, by decide, rfl, .high⟩)

theorem witness_OperandValuesDoNotFault :
    (encode (.pkUpd 0)).head? = (encode (.pkUpd 0x7FC00000)).head? ∧ Opcode.pkUpd ≠ .xoUpd ∧
    (∃ t, exec (.pkUpd 0) ready = .next t) ∧ ∃ u, exec (.pkUpd 0x7FC00000) ready = .next u :=
  ⟨rfl, by decide, ⟨_, rfl⟩, ⟨_, rfl⟩⟩

theorem witness_OneResponsePerCommand : ∃ t, exec (.xoSplit 1 0x3F800000) ready = .next t := ⟨_, rfl⟩

/-- nch = NCH_MAX. -/
theorem witness_InitRebuildsEveryBank :
    stuck.regs.fault ≠ 0#8 ∧ ready.regs.fault = 0#8 ∧ (2 : BitVec 8).toNat ≤ ready.nchMax.toNat := by
  decide

/-- The hypotheses of every statement that a command on one channel completes, and of BLK.BEG, BLK.END,
BC.SET and PK.UPD, which ask for the first two. -/
theorem witness_channel_commands :
    ready.regs.fault = 0#8 ∧ (∃ e, ready.regs.rate = some e) ∧
    (1 : BitVec 8).toNat < ready.regs.nch.toNat ∧
    ready.regs.chans[(1 : BitVec 8).toNat]? = some chan :=
  ⟨by decide, ⟨_, rfl⟩, by decide, rfl⟩

theorem witness_BlkBegClearsBlockPeak : ready.regs.fault = 0#8 ∧ ∃ e, ready.regs.rate = some e :=
  ⟨by decide, _, rfl⟩

theorem witness_SampleRunsWholeChain :
    ready.regs.fault = 0#8 ∧ (∃ e, ready.regs.rate = some e) ∧
    (1 : BitVec 8).toNat < ready.regs.nch.toNat ∧
    ready.regs.chans[(1 : BitVec 8).toNat]? = some chan ∧
    ready.regs.set = ⟨some (snapshot 0), some (snapshot 0), some (snapshot 0x41A00000)⟩ :=
  ⟨by decide, ⟨_, rfl⟩, by decide, rfl, rfl⟩

theorem witness_BlkEndUpdatesMeterForUi :
    ready.regs.fault = 0#8 ∧ (∃ e, ready.regs.rate = some e) ∧ ready.regs.ui = true :=
  ⟨by decide, ⟨_, rfl⟩, rfl⟩

theorem witness_BqSetlpDesignsLowpass :
    ready.regs.fault = 0#8 ∧ (∃ e, ready.regs.rate = some e) ∧
    (0 : BitVec 8).toNat < ready.regs.nch.toNat ∧
    ready.regs.chans[(0 : BitVec 8).toNat]? = some chan :=
  ⟨by decide, ⟨_, rfl⟩, by decide, rfl⟩

theorem witness_BqSethpDesignsHighpass :
    bare.regs.fault = 0#8 ∧ (∃ e, bare.regs.rate = some e) ∧
    (0 : BitVec 8).toNat < bare.regs.nch.toNat ∧ bare.regs.chans[(0 : BitVec 8).toNat]? = some chan :=
  ⟨by decide, ⟨_, rfl⟩, by decide, rfl⟩

theorem witness_BqStepRunsRecurrence :
    ready.regs.fault = 0#8 ∧ (∃ e, ready.regs.rate = some e) ∧
    (1 : BitVec 8).toNat < ready.regs.nch.toNat ∧
    ready.regs.chans[(1 : BitVec 8).toNat]? = some chan :=
  witness_channel_commands

/-- BQ.SETHP on a channel with identity filters changes coefficients (V-BQ-7). -/
theorem witness_CoefficientChangeResetsState :
    ∃ t ch', exec (.bqSethp 0 0 0 0x473B8000) ready = .next t ∧ ready.regs.chans[0]? = some chan ∧
      t.regs.chans[0]? = some ch' ∧ ¬ (chan.bq.get 0).SameCoefs (ch'.bq.get 0) := by
  refine ⟨_, _, rfl, rfl, rfl, fun h => ?_⟩
  have h2 := h.2.1
  revert h2; decide

theorem witness_OnlyDesignsWriteCoefficients :
    ∃ t ch', exec (.bqStep 0 0 0x3F800000) ready = .next t ∧ Opcode.bqStep ≠ .init ∧
      Opcode.bqStep ≠ .bqSetlp ∧ Opcode.bqStep ≠ .bqSethp ∧ Opcode.bqStep ≠ .xoUpd ∧
      ready.regs.chans[0]? = some chan ∧ t.regs.chans[0]? = some ch' :=
  ⟨_, _, rfl, by decide, by decide, by decide, by decide, rfl, rfl⟩

theorem witness_CascadesStayPaired :
    ready.regs.Paired ∧ (∃ t, exec (.xoUpd 0x43960000 0x44FA0000) ready = .next t) ∧
    Opcode.xoUpd ≠ .bqSetlp ∧ Opcode.xoUpd ≠ .bqSethp := by
  refine ⟨fun ch h => ?_, ⟨_, rfl⟩, by decide, by decide⟩
  have e : ch = chan := by simpa [ready] using h
  rw [e]
  exact ⟨⟨rfl, rfl, rfl, rfl, rfl⟩, ⟨rfl, rfl, rfl, rfl, rfl⟩, ⟨rfl, rfl, rfl, rfl, rfl⟩,
    ⟨rfl, rfl, rfl, rfl, rfl⟩⟩

/-- The first XO.UPD, and a later one whose low request has moved by 1 Hz (200 to 201). -/
theorem witness_XoUpdRedesignsEveryChannel :
    bare.regs.fault = 0#8 ∧ (∃ e, bare.regs.rate = some e) ∧ bare.regs.xo = none ∧
    (∃ f, ready.regs.xo = some f ∧
      ((num 0x43490000).sub f.lowFreq).abs.gt (Sys2Proof.Num.ofDec ⟨5, 10⟩) = true) ∧
    (let loHi := ((num 0x473B8000).div (Sys2Proof.Num.ofNat 2)).mul (Sys2Proof.Num.ofDec ⟨8, 10⟩)
     let hiHi := ((num 0x473B8000).div (Sys2Proof.Num.ofNat 2)).mul (Sys2Proof.Num.ofDec ⟨99, 100⟩)
     (Sys2Proof.Num.ofNat 10).le loHi = true ∧
     (((num 0x43490000).clamp (Sys2Proof.Num.ofNat 10) loHi).add (Sys2Proof.Num.ofNat 10)).le hiHi =
       true) :=
  ⟨by decide, ⟨_, rfl⟩, rfl, ⟨_, rfl, by decide⟩, by decide⟩

/-- A request off by exactly 0.5 Hz, and a NaN request. -/
theorem witness_XoUpdHoldsWithinHysteresis :
    ready.regs.fault = 0#8 ∧ (∃ e, ready.regs.rate = some e) ∧
    ∃ f, ready.regs.xo = some f ∧
      ((num 0x43488000).sub f.lowFreq).abs.gt (Sys2Proof.Num.ofDec ⟨5, 10⟩) = false ∧
      ((num 0x7FC00000).sub f.highFreq).abs.gt (Sys2Proof.Num.ofDec ⟨5, 10⟩) = false :=
  ⟨by decide, ⟨_, rfl⟩, _, rfl, by decide, by decide⟩

theorem witness_XoSplitStepsThreeChains :
    bare.regs.fault = 0#8 ∧ (∃ e, bare.regs.rate = some e) ∧
    (0 : BitVec 8).toNat < bare.regs.nch.toNat ∧ bare.regs.chans[(0 : BitVec 8).toNat]? = some chan :=
  witness_BqSethpDesignsHighpass

theorem witness_BcSetResolvesSnapshot : bare.regs.fault = 0#8 ∧ ∃ e, bare.regs.rate = some e :=
  ⟨by decide, _, rfl⟩

theorem witness_BcStepRunsFiveSteps :
    ready.regs.fault = 0#8 ∧ (∃ e, ready.regs.rate = some e) ∧
    (1 : BitVec 8).toNat < ready.regs.nch.toNat ∧
    ready.regs.chans[(1 : BitVec 8).toNat]? = some chan ∧
    ready.regs.set.get .high = some (snapshot 0x41A00000) :=
  ⟨by decide, ⟨_, rfl⟩, by decide, rfl, rfl⟩

theorem witness_OnlyThreeCommandsWriteCompressors :
    (∃ t, exec (.xoUpd 0x43960000 0x44FA0000) ready = .next t) ∧ Opcode.xoUpd ≠ .init ∧
    Opcode.xoUpd ≠ .sample ∧ Opcode.xoUpd ≠ .bcStep :=
  ⟨⟨_, rfl⟩, by decide, by decide, by decide⟩

/-- A compressor whose output is a number (V-BC-2). -/
theorem witness_CompressorKeepsInputSign :
    (bcProcess Config.params chan.bc.high (snapshot 0x41A00000) (num 0x3F800000)).1 ≠ .nan := by
  decide

/-- The parameters with NEG_INF_DB = −∞, silence as the input, poles 0.5 and 0.75. -/
theorem witness_MinusInfinityEnvelopeAbsorbs :
    let p : Params Config.fmt := { Config.params with negInfDb := .inf true }
    p.negInfDb = .inf true ∧
    (snapshot 0).att.gt Sys2Proof.Num.zero = true ∧ (snapshot 0).att.lt Sys2Proof.Num.one = true ∧
    (snapshot 0).rel.gt Sys2Proof.Num.zero = true ∧ (snapshot 0).rel.lt Sys2Proof.Num.one = true ∧
    levelDb p (num 0) ≠ .inf false ∧ levelDb p (num 0) ≠ .nan ∧
    levelDb p (num 0x3F800000) ≠ .inf false ∧ levelDb p (num 0x3F800000) ≠ .nan := by decide

/-- Ratio 1 with the envelope over the threshold, and with it exactly at the threshold. -/
theorem witness_RatioOneNeverReduces :
    let v : Settings Config.fmt := { snapshot 0 with ratio := num 0x3F800000 }
    v.ratio = Sys2Proof.Num.one ∧ ((num 0x41800000).sub v.thr).isFinite = true ∧
    (num 0).gt v.thr = false := by decide

theorem witness_PkAttSetsUiFlag : State.reset.regs.fault = 0#8 := by decide

theorem witness_PkUpdAttacksOrDecays : ready.regs.fault = 0#8 ∧ ∃ e, ready.regs.rate = some e :=
  ⟨by decide, _, rfl⟩

theorem witness_PkReadReturnsLastStored : ready.regs.fault = 0#8 ∧ ready.regs.Inv :=
  ⟨by decide, ready_inv.regs⟩

theorem witness_PeakHistoryRecordsEveryStore :
    (∃ t, step (sent [0x04000000] ready) = .next t ∧ t.regs.peak = num 0x3F400000) ∧
    (∃ t, exec (.regRd 8) ready = .next t) ∧ Opcode.regRd ≠ .blkEnd ∧ Opcode.regRd ≠ .pkUpd :=
  ⟨⟨_, rfl, by decide⟩, ⟨_, rfl⟩, by decide, by decide⟩

theorem witness_RegRdReturnsMappedWord :
    ready.regs.fault = 0#8 ∧ RegisterWord ready.regs (8#24).toNat (.num ready.regs.peak) ∧
    RegisterWord ready.regs (0x010145#24).toNat (.num (num 0)) ∧
    RegisterWord ready.regs (0x010038#24).toNat (.num (num 0x3F800000)) ∧
    RegisterWord ready.regs (0x000021#24).toNat (.num (num 0x40800000)) ∧
    (7 : Nat) ≠ (0 : BitVec 3).toNat ∧ (2 : Nat) ≠ Band.low.index :=
  ⟨by decide, .peak, .gr 1 2 chan _ (by decide) .high, .b0 0 7 chan _ (by decide) .highHp1,
    .ratio 2 (snapshot 0x41A00000) .high, by decide, by decide⟩

theorem witness_StatusShowsFlags : ready.regs.fault = 0#8 ∧ State.reset.regs.fault = 0#8 := by decide

theorem witness_ControlRegistersHaveOneWriter :
    (∃ t, exec .blkBeg ready = .next t ∧ Opcode.blkBeg ≠ .init ∧ Opcode.blkBeg ≠ .bcSet ∧
      Opcode.blkBeg ≠ .xoUpd ∧ Opcode.blkBeg ≠ .pkAtt) ∧
    ∃ t, step (sent [0x01010000, 0x473B8000] ready) = .next t :=
  ⟨⟨_, rfl, by decide, by decide, by decide, by decide⟩, _, rfl⟩

/-- SAMPLE on channel 0 and BC.STEP on channel 1, in both orders: no fault and no NaN. -/
theorem witness_ChannelCommandsCommute :
    ∃ t t' u u', (0 : BitVec 8) ≠ 1 ∧
      exec (.sample 0 0x3F800000) ready = .next t ∧ exec (.bcStep 1 2 0x3F800000) t = .next t' ∧
      exec (.bcStep 1 2 0x3F800000) ready = .next u ∧ exec (.sample 0 0x3F800000) u = .next u' ∧
      t'.regs.fault = 0#8 ∧ t'.ports.draws = ready.ports.draws :=
  ⟨_, _, _, _, by decide, rfl, rfl, rfl, rfl, by decide, by decide⟩

/-- BQ.SETLP and BQ.SETHP on two Biquads of one channel, in both orders, at 0 Hz (V-BQ-7). -/
theorem witness_ChannelCommandsCommute_designs :
    ∃ t t' u u', ((0 : BitVec 8) ≠ 0 ∨ (0 : BitVec 3) ≠ 1) ∧
      exec (.bqSetlp 0 0 0 0x473B8000) ready = .next t ∧
      exec (.bqSethp 0 1 0 0x473B8000) t = .next t' ∧
      exec (.bqSethp 0 1 0 0x473B8000) ready = .next u ∧
      exec (.bqSetlp 0 0 0 0x473B8000) u = .next u' ∧
      t'.regs.fault = 0#8 ∧ t'.ports.draws = ready.ports.draws :=
  ⟨_, _, _, _, by decide, rfl, rfl, rfl, rfl, by decide, by decide⟩

theorem witness_OtherChannelsUntouched :
    (∃ t, exec (.sample 0 0x3F800000) ready = .next t) ∧ (1 : Nat) ≠ (0 : BitVec 8).toNat :=
  ⟨⟨_, rfl⟩, by decide⟩

/-- Two frames, of two samples and of none. -/
theorem witness_ProcessBlockNeverFaults :
    ready.regs.Inv ∧ ready.regs.fault = 0#8 ∧ ready.regs.rate = some ⟨num 0x473B8000, num 0x3F000000⟩ ∧
    (∃ lh, xoClamp (num 0x43480000) (num 0x44FA0000) (num 0x473B8000) = .ok lh) ∧
    ∀ xs ∈ [[0x3F800000, 0xBF800000], ([] : List Word)], xs.length ≤ ready.regs.nch.toNat :=
  ⟨ready_inv.regs, by decide, rfl, ⟨(num 0x43480000, num 0x44FA0000), by decide⟩, by decide⟩

end Sys2Proof.Tests
end

section
/-! SUPPORT. What the exact values of magnitude codes are, how codes order them, and the nearest-code
property of rounding (00_scope.md R11, R13). -/

namespace Sys2Proof

variable {F : Fmt}

/-! ### The value of a magnitude code -/

/-- The codes from `k * 2 ^ fracBits` on, `2 * 2 ^ fracBits` of them (without the subnormal ones when
k > 0), are spaced `2 ^ k` units apart; the upper end is the first code of the next spacing (R11). -/
theorem Num.magUnits_spaced {k a : Nat} (hlo : k = 0 ∨ 2 ^ F.fracBits ≤ a)
    (hhi : a ≤ 2 * 2 ^ F.fracBits) :
    Num.magUnits F (k * 2 ^ F.fracBits + a) = a * 2 ^ k := by
  have hP : 0 < 2 ^ F.fracBits := Nat.two_pow_pos _
  unfold Num.magUnits
  generalize 2 ^ F.fracBits = P at *
  obtain ha | ha | rfl : a < P ∨ (P ≤ a ∧ a < 2 * P) ∨ a = 2 * P := by omega
  · obtain rfl : k = 0 := by omega
    simp [ha]
  · obtain ⟨b, rfl⟩ := Nat.exists_eq_add_of_le ha.1
    have hb : b < P := by omega
    have hcode : k * P + (P + b) = b + P * (k + 1) := by ring
    rw [if_neg (by nlinarith), hcode, Nat.add_mul_mod_self_left, Nat.add_mul_div_left _ _ hP,
      Nat.mod_eq_of_lt hb, Nat.div_eq_of_lt hb]
    simp
  · have hcode : k * P + 2 * P = P * (k + 2) := by ring
    rw [if_neg (by nlinarith), hcode, Nat.mul_mod_right, Nat.mul_div_cancel_left _ hP]
    simp [pow_succ]; ring

/-- Every code is a subnormal one or lies in the binade of its exponent field. -/
theorem Num.code_cases (F : Fmt) (m : Nat) :
    ∃ k a, m = k * 2 ^ F.fracBits + a ∧ (k = 0 ∨ 2 ^ F.fracBits ≤ a) ∧ a < 2 * 2 ^ F.fracBits := by
  have hP : 0 < 2 ^ F.fracBits := Nat.two_pow_pos _
  generalize 2 ^ F.fracBits = P at *
  have hm := Nat.div_add_mod m P
  have hr := Nat.mod_lt m hP
  cases hq : m / P with
  | zero => exact ⟨0, m, by simp, .inl rfl, by rw [hq] at hm; omega⟩
  | succ k =>
    refine ⟨k, P + m % P, ?_, .inr (by omega), by omega⟩
    rw [hq] at hm
    calc m = P * (k + 1) + m % P := hm.symm
      _ = k * P + (P + m % P) := by ring

/-- A greater code stands for a greater value (R13: consecutive values have consecutive codes). -/
theorem Num.magUnits_strictMono (F : Fmt) : StrictMono (Num.magUnits F) := by
  refine strictMono_nat_of_lt_succ fun m => ?_
  obtain ⟨k, a, rfl, hlo, hhi⟩ := Num.code_cases F m
  rw [Num.magUnits_spaced hlo hhi.le, Nat.add_assoc, Num.magUnits_spaced (by omega) hhi]
  exact Nat.mul_lt_mul_of_pos_right (Nat.lt_succ_self a) (Nat.two_pow_pos k)

@[simp] theorem Num.magUnits_zero (F : Fmt) : Num.magUnits F 0 = 0 := by simp [Num.magUnits]

@[simp] theorem Num.magUnits_eq_zero {m : Nat} : Num.magUnits F m = 0 ↔ m = 0 := by
  conv_lhs => rw [← Num.magUnits_zero F]
  exact (Num.magUnits_strictMono F).injective.eq_iff

/-- From the first code spaced `2 ^ k` units on, every value is a multiple of `2 ^ k` units. -/
theorem Num.two_pow_dvd_magUnits {k m : Nat} (h : k = 0 ∨ (k + 1) * 2 ^ F.fracBits ≤ m) :
    2 ^ k ∣ Num.magUnits F m := by
  obtain rfl | h := h
  · simp
  obtain ⟨j, a, rfl, hlo, hhi⟩ := Num.code_cases F m
  rw [Num.magUnits_spaced hlo hhi.le]
  have hkj : k + 1 < j + 2 := lt_of_mul_lt_mul_right
    (show (k + 1) * 2 ^ F.fracBits < (j + 2) * 2 ^ F.fracBits by rw [Nat.add_mul j]; omega)
    (Nat.zero_le _)
  exact (pow_dvd_pow 2 (by omega)).mul_left a

/-- A code before the first one spaced `2 ^ k` units stands for less than that one does. -/
theorem Num.magUnits_lt_of_code_lt {k m : Nat} (h : m < (k + 1) * 2 ^ F.fracBits) :
    Num.magUnits F m < 2 ^ F.fracBits * 2 ^ k := by
  rw [← Num.magUnits_spaced (.inr le_rfl) (by omega), ← Nat.add_one_mul]
  exact Num.magUnits_strictMono F h

/-! ### Rounding to a whole number -/

/-- The rounded quotient is within half of the exact one, and is even when exactly half away. -/
theorem Num.roundHalfEven_spec {n d : Nat} (hd : 0 < d) :
    2 * n ≤ 2 * (d * Num.roundHalfEven n d) + d ∧ 2 * (d * Num.roundHalfEven n d) ≤ 2 * n + d ∧
    ((2 * n = 2 * (d * Num.roundHalfEven n d) + d ∨ 2 * (d * Num.roundHalfEven n d) = 2 * n + d) →
      Num.roundHalfEven n d % 2 = 0) := by
  have hn := Nat.div_add_mod n d
  have hr := Nat.mod_lt n hd
  have hs := Nat.mul_add_one d (n / d)
  unfold Num.roundHalfEven
  split_ifs <;> omega

/-- The rounded quotient lies between whole bounds of the exact one. -/
theorem Num.roundHalfEven_bounds (n d : Nat) :
    n / d ≤ Num.roundHalfEven n d ∧ Num.roundHalfEven n d ≤ n / d + 1 := by
  unfold Num.roundHalfEven
  split_ifs <;> omega

/-- No whole number is nearer to n / d than the rounded one, and it is even if another is as near. -/
theorem Num.roundHalfEven_nearest {n d : Nat} (hd : 0 < d) (b : Nat) :
    |(n : Int) - d * Num.roundHalfEven n d| ≤ |(n : Int) - d * b| ∧
    (|(n : Int) - d * Num.roundHalfEven n d| = |(n : Int) - d * b| → Num.roundHalfEven n d ≠ b →
      Num.roundHalfEven n d % 2 = 0) := by
  obtain ⟨hup, hlo, htie⟩ := Num.roundHalfEven_spec (n := n) hd
  generalize Num.roundHalfEven n d = a at *
  zify at hup hlo htie ⊢
  obtain hab | rfl | hab := Nat.lt_trichotomy a b
  · have : (d : Int) * (a + 1) ≤ d * b := by gcongr; omega
    grind
  · simp
  · have : (d : Int) * (b + 1) ≤ d * a := by gcongr; omega
    grind

/-! ### The code RN rounds to -/

/-- The exponent of the spacing `Num.round` rounds n / d units in (R13). -/
def Num.roundExp (F : Fmt) (n d : Nat) : Nat := Nat.log2 (n / d) - F.fracBits

/-- The magnitude code RN gives n / d units, before the overflow threshold is applied (R13). -/
def Num.roundCode (F : Fmt) (n d : Nat) : Nat :=
  Num.roundExp F n d * 2 ^ F.fracBits + Num.roundHalfEven n (d * 2 ^ Num.roundExp F n d)

theorem Num.round_eq_ofMag (neg : Bool) (n d : Nat) :
    (Num.round neg n d : Num F) = Num.ofMag neg (Num.roundCode F n d) := rfl

theorem Num.round_ne_nan (neg : Bool) (n d : Nat) : (Num.round neg n d : Num F) ≠ .nan := by
  rw [Num.round_eq_ofMag, Num.ofMag]
  split <;> simp

/-- The rounding is finite exactly when its code is one of a finite value. -/
theorem Num.round_eq_fin_iff {neg s : Bool} {n d : Nat} {m : Fin F.magCount} :
    (Num.round neg n d : Num F) = .fin s m ↔ neg = s ∧ Num.roundCode F n d = m := by
  obtain h | h := Nat.lt_or_ge (Num.roundCode F n d) F.magCount
  · rw [Num.round_eq_ofMag, Num.ofMag_fin neg h]
    simp [Fin.ext_iff]
  · rw [Num.round_eq_ofMag, Num.ofMag_inf neg h]
    simpa using fun _ => (m.isLt.trans_le h).ne'

theorem Num.round_eq_inf_iff {neg s : Bool} {n d : Nat} :
    (Num.round neg n d : Num F) = .inf s ↔ neg = s ∧ F.magCount ≤ Num.roundCode F n d := by
  obtain h | h := Nat.lt_or_ge (Num.roundCode F n d) F.magCount
  · rw [Num.round_eq_ofMag, Num.ofMag_fin neg h]
    simpa using fun _ => h
  · rw [Num.round_eq_ofMag, Num.ofMag_inf neg h]
    simpa using fun _ => h

/-- In its spacing the quotient lies within one binade, or among the subnormals and the first binade. -/
theorem Num.quotient_in_binade (F : Fmt) (n d : Nat) :
    (Num.roundExp F n d = 0 ∨ 2 ^ F.fracBits ≤ n / (d * 2 ^ Num.roundExp F n d)) ∧
    n / (d * 2 ^ Num.roundExp F n d) < 2 * 2 ^ F.fracBits := by
  rw [← Nat.div_div_eq_div_mul]
  unfold Num.roundExp
  generalize n / d = q
  have hup : q < 2 ^ (q.log2 + 1) := Nat.lt_log2_self
  constructor
  · by_cases hk : q.log2 - F.fracBits = 0
    · exact .inl hk
    · refine .inr ((Nat.le_div_iff_mul_le (Nat.two_pow_pos _)).2 ?_)
      rw [← pow_add, show F.fracBits + (q.log2 - F.fracBits) = q.log2 by omega]
      exact Nat.log2_self_le (by rintro rfl; simp at hk)
  · rw [Nat.div_lt_iff_lt_mul (Nat.two_pow_pos _), ← pow_succ', ← pow_add]
    exact hup.trans_le (Nat.pow_le_pow_right (by decide) (by omega))

/-- The value of the rounded code. -/
theorem Num.magUnits_roundCode (F : Fmt) (n d : Nat) :
    Num.magUnits F (Num.roundCode F n d) =
      Num.roundHalfEven n (d * 2 ^ Num.roundExp F n d) * 2 ^ Num.roundExp F n d := by
  obtain ⟨hlo, hhi⟩ := Num.quotient_in_binade F n d
  obtain ⟨ha, hb⟩ := Num.roundHalfEven_bounds n (d * 2 ^ Num.roundExp F n d)
  exact Num.magUnits_spaced (hlo.imp_right ha.trans') (by omega)

/-- A code and its rounded whole number have the same last bit. -/
theorem Num.roundCode_mod_two (F : Fmt) (n d : Nat) :
    Num.roundCode F n d % 2 = Num.roundHalfEven n (d * 2 ^ Num.roundExp F n d) % 2 := by
  have hP : 2 ^ F.fracBits % 2 = 0 :=
    Nat.mod_eq_zero_of_dvd (dvd_pow_self 2 (Nat.one_le_iff_ne_zero.1 F.one_le_fracBits))
  simp [Num.roundCode, Nat.add_mod, Nat.mul_mod, hP]

/-- RN (R13) on codes without bound: no code is nearer to n / d units than the rounded one, and the
rounded one is even if another is as near. -/
theorem Num.roundCode_nearest (F : Fmt) {n d : Nat} (hd : 0 < d) (m : Nat) :
    |(n : Int) - d * Num.magUnits F (Num.roundCode F n d)| ≤ |(n : Int) - d * Num.magUnits F m| ∧
    (|(n : Int) - d * Num.magUnits F (Num.roundCode F n d)| = |(n : Int) - d * Num.magUnits F m| →
      Num.roundCode F n d ≠ m → Num.roundCode F n d % 2 = 0) := by
  have hval := Num.magUnits_roundCode F n d
  have hinj : Num.magUnits F (Num.roundCode F n d) = Num.magUnits F m → Num.roundCode F n d = m :=
    fun h => (Num.magUnits_strictMono F).injective h
  obtain ⟨hlo, -⟩ := Num.quotient_in_binade F n d
  rw [Num.roundCode_mod_two]
  generalize Num.roundCode F n d = c at *
  generalize Num.roundExp F n d = k at *
  have hD : 0 < d * 2 ^ k := Nat.mul_pos hd (Nat.two_pow_pos k)
  have hnear := Num.roundHalfEven_nearest (n := n) hD
  generalize Num.roundHalfEven n (d * 2 ^ k) = a at *
  have hscale (b : Nat) : (d : Int) * (b * 2 ^ k : Nat) = (d * 2 ^ k : Nat) * b := by push_cast; ring
  rw [hval, hscale]
  by_cases hm : k = 0 ∨ (k + 1) * 2 ^ F.fracBits ≤ m
  · obtain ⟨b, hb⟩ := Num.two_pow_dvd_magUnits hm
    rw [Nat.mul_comm] at hb
    rw [hb, hscale]
    exact ⟨(hnear b).1, fun htie hcm =>
      (hnear b).2 htie fun hab => hcm (hinj (by rw [hval, hb, hab]))⟩
  · -- a code of a finer spacing lies below `2 ^ fracBits * 2 ^ k` units, and n / d does not
    obtain ⟨hk, hm⟩ := not_or.1 hm
    have hfloor : d * (2 ^ F.fracBits * 2 ^ k) = d * 2 ^ k * 2 ^ F.fracBits := by ring
    have hbelow : d * Num.magUnits F m < d * 2 ^ k * 2 ^ F.fracBits :=
      hfloor ▸ Nat.mul_lt_mul_of_pos_left (Num.magUnits_lt_of_code_lt (Nat.not_le.1 hm)) hd
    have hn : d * 2 ^ k * 2 ^ F.fracBits ≤ n := by
      rw [Nat.mul_comm]
      exact (Nat.le_div_iff_mul_le hD).1 (hlo.resolve_left hk)
    have hlt : |(n : Int) - (d * 2 ^ k : Nat) * a| < |(n : Int) - d * Num.magUnits F m| := by
      refine (hnear (2 ^ F.fracBits)).1.trans_lt ?_
      zify at hbelow hn
      push_cast
      rw [abs_of_nonneg (by linarith), abs_of_nonneg (by linarith)]
      linarith
    exact ⟨hlt.le, fun htie => absurd htie hlt.ne⟩

/-! ### The overflow threshold -/

/-- Twice the overflow threshold of R13 in units: the greatest finite value and the value one spacing
above it, added. -/
theorem Num.magUnits_maxMag_add (F : Fmt) :
    Num.magUnits F F.maxMag + Num.magUnits F F.magCount =
      (2 ^ (F.fracBits + 2) - 1) * 2 ^ (2 ^ F.expBits - 3) := by
  have hE : 2 ^ 2 ≤ 2 ^ F.expBits := Nat.pow_le_pow_right (by decide) F.two_le_expBits
  have hP : 0 < 2 ^ F.fracBits := Nat.two_pow_pos _
  have hcount := F.magCount_eq
  obtain ⟨k, hk⟩ := Nat.exists_eq_add_of_le (show 3 ≤ 2 ^ F.expBits by omega)
  have htop : F.magCount = k * 2 ^ F.fracBits + 2 * 2 ^ F.fracBits := by
    rw [hcount, hk, ← Nat.add_mul]; congr 1; omega
  have hmax : F.maxMag = k * 2 ^ F.fracBits + (2 * 2 ^ F.fracBits - 1) := by
    have : F.magCount = F.maxMag + 1 := rfl
    omega
  rw [hmax, htop, Num.magUnits_spaced (.inr (by omega)) (by omega),
    Num.magUnits_spaced (.inr (by omega)) le_rfl, ← Nat.add_mul, hk, pow_add]
  congr 2 <;> omega

/-- The code after the greatest finite one is even, so a tie at the threshold goes up. -/
theorem Fmt.magCount_mod_two (F : Fmt) : F.magCount % 2 = 0 := by
  have hP : 2 ∣ 2 ^ F.fracBits := dvd_pow_self 2 (Nat.one_le_iff_ne_zero.1 F.one_le_fracBits)
  rw [F.magCount_eq]
  exact Nat.mod_eq_zero_of_dvd (hP.mul_left _)

/-- The rounded code reaches an even code c + 1 exactly from halfway between c and c + 1 on. -/
theorem Num.lt_roundCode_iff {n d c : Nat} (hd : 0 < d) (hc : c % 2 = 1) :
    c < Num.roundCode F n d ↔ d * (Num.magUnits F c + Num.magUnits F (c + 1)) ≤ 2 * n := by
  have hmono : ∀ {a b}, a < b → d * Num.magUnits F a < d * Num.magUnits F b := fun h =>
    Nat.mul_lt_mul_of_pos_left (Num.magUnits_strictMono F h) hd
  have hnext := hmono (Nat.lt_succ_self c)
  have hlow := (Num.roundCode_nearest F hd (n := n) c).1
  obtain ⟨hhigh, htie⟩ := Num.roundCode_nearest F hd (n := n) (c + 1)
  generalize Num.roundCode F n d = r at *
  rw [Nat.mul_add]
  zify at hnext ⊢
  obtain hr | rfl | hr := Nat.lt_trichotomy r c
  · have hbelow := hmono hr
    zify at hbelow
    grind
  · have hodd : r % 2 ≠ 0 := by omega
    grind
  · obtain rfl | hr' : c + 1 = r ∨ c + 1 < r := by omega
    · grind
    · have habove := hmono hr'
      zify at habove
      grind

/-- Rounding overflows exactly from the threshold of R13 on. -/
theorem Num.magCount_le_roundCode_iff (F : Fmt) {n d : Nat} (hd : 0 < d) :
    F.magCount ≤ Num.roundCode F n d ↔
      d * ((2 ^ (F.fracBits + 2) - 1) * 2 ^ (2 ^ F.expBits - 3)) ≤ 2 * n := by
  have heven := F.magCount_mod_two
  have hcount : F.magCount = F.maxMag + 1 := rfl
  rw [← Num.magUnits_maxMag_add, hcount, ← Num.lt_roundCode_iff hd (by omega), Nat.succ_le_iff]

/-! ### Rounding as RN of a real number -/

open Safety

/-- The factor −1 of a set sign bit, 1 of a clear one. -/
def Num.signFactor (s : Bool) : ℝ := if s then -1 else 1

theorem Num.signFactor_xor (s t : Bool) :
    Num.signFactor (s ^^ t) = Num.signFactor s * Num.signFactor t := by
  cases s <;> cases t <;> simp [Num.signFactor]

theorem Num.signFactor_mul_self (s : Bool) : Num.signFactor s * Num.signFactor s = 1 := by
  cases s <;> simp [Num.signFactor]

@[simp] theorem Num.abs_signFactor (s : Bool) : |Num.signFactor s| = 1 := by
  cases s <;> simp [Num.signFactor]

/-- A finite value is its sign times its magnitude (R11). -/
theorem Num.signedUnits_real (s : Bool) (m : Nat) :
    (Num.signedUnits F s m : ℝ) = Num.signFactor s * Num.magUnits F m := by
  cases s <;> simp [Num.signedUnits, Num.signFactor]

theorem Num.signedUnits_not (s : Bool) (m : Nat) :
    Num.signedUnits F (!s) m = -Num.signedUnits F s m := by
  cases s <;> simp [Num.signedUnits]

/-- The threshold of `IsRN` is the one of `RoundingOverflowsAtThreshold`, in units and doubled. -/
theorem isRN_threshold_eq (F : Fmt) :
    (2 : ℝ) ^ (F.bias + 1) - 2 ^ ((F.bias : ℤ) - F.fracBits - 1) =
      (((2 ^ (F.fracBits + 2) - 1) * 2 ^ (2 ^ F.expBits - 3) : Nat) : ℝ) / 2 / 2 ^ F.unitExp := by
  have hp := F.one_le_fracBits
  have hE : 2 ^ F.expBits = 2 * (F.bias + 1) := by
    have := Nat.two_pow_pos (F.expBits - 1)
    rw [Fmt.bias, Nat.sub_add_cancel this, ← pow_succ', Nat.sub_add_cancel]
    exact Nat.one_le_of_lt F.two_le_expBits
  have hb : 1 ≤ F.bias := by
    have : 2 ^ 2 ≤ 2 ^ F.expBits := Nat.pow_le_pow_right (by decide) F.two_le_expBits
    omega
  rw [hE, Fmt.unitExp]
  generalize F.bias = b at *
  generalize F.fracBits = p at *
  obtain ⟨b, rfl⟩ := Nat.exists_eq_add_of_le' hb
  obtain ⟨p, rfl⟩ := Nat.exists_eq_add_of_le' hp
  have h1 : 2 * (b + 1 + 1) - 3 = 2 * b + 1 := by omega
  have h2 : b + 1 + (p + 1) - 1 = b + p + 1 := by omega
  have h3 : ((b + 1 : Nat) : ℤ) - (p + 1 : Nat) - 1 = b - ((p + 1 : Nat) : ℤ) := by push_cast; ring
  rw [h1, h2, h3, zpow_sub₀ two_ne_zero, zpow_natCast, zpow_natCast, Nat.cast_mul,
    Nat.cast_pred (Nat.two_pow_pos _)]
  push_cast
  field_simp
  ring

/-- `Num.roundCode_nearest` over the real numbers. -/
theorem Num.roundCode_nearest_real (F : Fmt) {n d : Nat} (hd : 0 < d) (m : Nat) :
    |(Num.magUnits F (Num.roundCode F n d) : ℝ) - n / d| ≤ |(Num.magUnits F m : ℝ) - n / d| ∧
    (|(Num.magUnits F (Num.roundCode F n d) : ℝ) - n / d| = |(Num.magUnits F m : ℝ) - n / d| →
      Num.roundCode F n d ≠ m → Num.roundCode F n d % 2 = 0) := by
  have hd' : (0 : ℝ) < d := Nat.cast_pos.2 hd
  have hscale (v : Nat) : |(v : ℝ) - n / d| = (|(n : Int) - d * v| : Int) / (d : ℝ) := by
    rw [eq_div_iff hd'.ne', ← abs_of_pos hd', ← abs_mul, abs_of_pos hd', sub_mul,
      div_mul_cancel₀ _ hd'.ne', abs_sub_comm]
    push_cast
    ring_nf
  rw [hscale, hscale, div_le_div_iff_of_pos_right hd', div_left_inj' hd'.ne']
  exact_mod_cast Num.roundCode_nearest F hd m

/-- A value of the sign of a real number lies from it as far as their magnitudes do, in units. -/
theorem Num.dist_signedUnits_same (neg : Bool) (m : Nat) (q : ℝ) {U : ℝ} (hU : 0 < U) :
    |(Num.signedUnits F neg m : ℝ) / U - Num.signFactor neg * q / U| =
      |(Num.magUnits F m : ℝ) - q| / U := by
  rw [Num.signedUnits_real, ← sub_div, ← mul_sub, abs_div, abs_mul, Num.abs_signFactor, one_mul,
    abs_of_pos hU]

/-- A value of either sign lies from a real number at least as far as their magnitudes do. -/
theorem Num.dist_magUnits_le (s neg : Bool) (m : Nat) {q U : ℝ} (hq : 0 ≤ q) (hU : 0 < U) :
    |(Num.magUnits F m : ℝ) - q| / U ≤
      |(Num.signedUnits F s m : ℝ) / U - Num.signFactor neg * q / U| := by
  have h := abs_abs_sub_abs_le (Num.signFactor s * Num.magUnits F m) (Num.signFactor neg * q)
  rw [abs_mul, abs_mul, Num.abs_signFactor, Num.abs_signFactor, one_mul, one_mul, Nat.abs_cast,
    abs_of_nonneg hq] at h
  rw [Num.signedUnits_real, ← sub_div, abs_div, abs_of_pos hU]
  exact div_le_div_of_nonneg_right h hU.le

/-- Rounding a sign and n / d units is RN of the real number they stand for (R13). -/
theorem isRN_round (F : Fmt) (neg : Bool) {n d : Nat} (hd : 0 < d) :
    IsRN (Num.round neg n d : Num F) (Num.signFactor neg * (n / d) / 2 ^ F.unitExp) := by
  have hd' : (0 : ℝ) < d := Nat.cast_pos.2 hd
  have hU : (0 : ℝ) < 2 ^ F.unitExp := by positivity
  have hq : (0 : ℝ) ≤ n / d := by positivity
  have hover := Num.magCount_le_roundCode_iff F (n := n) hd
  have hnear := Num.roundCode_nearest_real F (n := n) hd
  have hthr : ((2 : ℝ) ^ (F.bias + 1) - 2 ^ ((F.bias : ℤ) - F.fracBits - 1) ≤
      n / d / 2 ^ F.unitExp) ↔ F.magCount ≤ Num.roundCode F n d := by
    rw [hover, isRN_threshold_eq, div_le_div_iff_of_pos_right hU, div_le_div_iff₀ two_pos hd']
    norm_cast
    rw [Nat.mul_comm d, Nat.mul_comm 2]
  have habs : |Num.signFactor neg * (n / d) / 2 ^ F.unitExp| = (n / d : ℝ) / 2 ^ F.unitExp := by
    rw [abs_div, abs_mul, Num.abs_signFactor, one_mul, abs_of_nonneg hq, abs_of_pos hU]
  obtain hc | hc := Nat.lt_or_ge (Num.roundCode F n d) F.magCount
  · rw [Num.round_eq_ofMag, Num.ofMag_fin _ hc]
    refine ⟨?_, ?_, ?_, fun s m => ?_⟩
    · rw [habs, ← not_le, hthr]
      exact Nat.not_le.2 hc
    · cases neg
      · simp
      · simp [Num.signFactor, neg_div, not_lt.2 (div_nonneg hq hU.le)]
    · cases neg
      · simp [Num.signFactor, not_lt.2 (div_nonneg hq hU.le)]
      · simp
    · have hsame := Num.dist_signedUnits_same (F := F) neg (Num.roundCode F n d) (n / d : ℝ) hU
      have hother := Num.dist_magUnits_le (F := F) s neg m hq hU
      obtain ⟨hle, htie⟩ := hnear m
      have hle' := div_le_div_of_nonneg_right hle hU.le
      simp only [hsame]
      refine ⟨hle'.trans hother, fun heq hcm => htie ?_ fun h => hcm (Fin.ext h)⟩
      exact (div_left_inj' hU.ne').1 (hle'.antisymm (hother.trans_eq heq.symm))
  · rw [Num.round_eq_ofMag, Num.ofMag_inf _ hc]
    refine (hthr.2 hc).trans_eq ?_
    cases neg <;> simp [Num.signFactor]
    ring

/-! ### The four operations -/

/-- Zero units round to the zero of the sign. -/
theorem Num.round_zero (neg : Bool) {d : Nat} (hd : 0 < d) :
    (Num.round neg 0 d : Num F) = .fin neg 0 := by
  simp [Num.round_eq_fin_iff, Num.roundCode, Num.roundExp, Num.roundHalfEven, hd]

/-- An exact sum is rounded, with the sign R13 gives a zero (R13). -/
theorem Num.ofSum_eq_round (b : Bool) (u : Int) :
    (Num.ofSum b u : Num F) = Num.round (if u = 0 then b else decide (u < 0)) u.natAbs 1 := by
  unfold Num.ofSum
  split
  case isTrue h => subst h; exact (Num.round_zero b Nat.one_pos).symm
  case isFalse => rfl

/-- The magnitude of a finite divisor that is not 0. -/
theorem Num.magUnits_pos {m : Nat} (h : m ≠ 0) : 0 < Num.magUnits F m :=
  Nat.pos_of_ne_zero (mt Num.magUnits_eq_zero.1 h)

theorem Num.add_fin_fin (s t : Bool) (m n : Fin F.magCount) :
    (Num.fin s m).add (.fin t n) =
      Num.ofSum (s && t) (Num.signedUnits F s m + Num.signedUnits F t n) := rfl

theorem Num.mul_fin_fin (s t : Bool) (m n : Fin F.magCount) :
    (Num.fin s m).mul (.fin t n) =
      Num.round (s ^^ t) (Num.magUnits F m * Num.magUnits F n) (2 ^ F.unitExp) := rfl

theorem Num.div_fin_fin (s t : Bool) (m : Fin F.magCount) {n : Fin F.magCount} (hn : n.val ≠ 0) :
    (Num.fin s m).div (.fin t n) =
      Num.round (s ^^ t) (Num.magUnits F m * 2 ^ F.unitExp) (Num.magUnits F n) := if_neg hn

theorem isRN_ofSum (b : Bool) (u : Int) : IsRN (Num.ofSum b u : Num F) ((u : ℝ) / 2 ^ F.unitExp) := by
  have hu : (u : ℝ) =
      Num.signFactor (if u = 0 then b else decide (u < 0)) * (u.natAbs / (1 : Nat)) := by
    rw [Nat.cast_natAbs, Nat.cast_one, div_one]
    obtain h | rfl | h := lt_trichotomy u 0
    · simp [Num.signFactor, h, h.ne, abs_of_neg h]
    · simp
    · simp [Num.signFactor, h.not_gt, h.ne', abs_of_pos h]
  rw [Num.ofSum_eq_round, hu]
  exact isRN_round F _ Nat.one_pos

theorem isReal_neg {y : Num F} {v : ℝ} (h : IsReal y v) : IsReal y.neg (-v) := by
  obtain ⟨s, m, rfl, rfl⟩ := h
  exact ⟨!s, m, rfl, by rw [Num.signedUnits_not]; push_cast; ring⟩

theorem isRN_add {x y : Num F} {u v : ℝ} (hx : IsReal x u) (hy : IsReal y v) :
    IsRN (x.add y) (u + v) := by
  obtain ⟨s, m, rfl, rfl⟩ := hx
  obtain ⟨t, n, rfl, rfl⟩ := hy
  rw [← add_div, ← Int.cast_add]
  exact isRN_ofSum _ _

theorem isRN_sub {x y : Num F} {u v : ℝ} (hx : IsReal x u) (hy : IsReal y v) :
    IsRN (x.sub y) (u - v) :=
  sub_eq_add_neg u v ▸ isRN_add hx (isReal_neg hy)

theorem isRN_mul {x y : Num F} {u v : ℝ} (hx : IsReal x u) (hy : IsReal y v) :
    IsRN (x.mul y) (u * v) := by
  obtain ⟨s, m, rfl, rfl⟩ := hx
  obtain ⟨t, n, rfl, rfl⟩ := hy
  rw [Num.mul_fin_fin]
  convert isRN_round F (s ^^ t) (Nat.two_pow_pos F.unitExp) using 1
  rw [Num.signedUnits_real, Num.signedUnits_real, Num.signFactor_xor]
  push_cast
  field_simp

theorem isRN_div {x y : Num F} {u v : ℝ} (hx : IsReal x u) (hy : IsReal y v) (hv : v ≠ 0) :
    IsRN (x.div y) (u / v) := by
  obtain ⟨s, m, rfl, rfl⟩ := hx
  obtain ⟨t, n, rfl, rfl⟩ := hy
  have hn : n.val ≠ 0 := by
    intro h
    simp [Num.signedUnits_real, h] at hv
  have hpos := Num.magUnits_pos (F := F) hn
  rw [Num.div_fin_fin s t m hn]
  convert isRN_round F (s ^^ t) hpos using 1
  have hn' : (Num.magUnits F n : ℝ) ≠ 0 := Nat.cast_ne_zero.2 hpos.ne'
  have ht := Num.signFactor_mul_self t
  have ht' : Num.signFactor t ≠ 0 := left_ne_zero_of_mul_eq_one ht
  rw [Num.signedUnits_real, Num.signedUnits_real, Num.signFactor_xor]
  push_cast
  field_simp
  rw [pow_two, ht, mul_one]

/-! ### The special cases of R13 -/

/-- A sum that is exactly 0 is +0 unless both sign bits are set. -/
theorem Num.add_eq_zero_of_sum {s t : Bool} {m n : Fin F.magCount}
    (h : Num.signedUnits F s m + Num.signedUnits F t n = 0) :
    (Num.fin s m).add (.fin t n) = .fin (s && t) 0 := by
  rw [Num.add_fin_fin, h]
  rfl

/-- A difference that is exactly 0 is +0 unless it is −0 − +0. -/
theorem Num.sub_eq_zero_of_eq {s t : Bool} {m n : Fin F.magCount}
    (h : Num.signedUnits F s m = Num.signedUnits F t n) :
    (Num.fin s m).sub (.fin t n) = .fin (s && !t) 0 :=
  Num.add_eq_zero_of_sum (by rw [Num.signedUnits_not, h, add_neg_cancel])

theorem Num.mul_eq_zero_of_zero {s t : Bool} {m n : Fin F.magCount} (h : m.val = 0 ∨ n.val = 0) :
    (Num.fin s m).mul (.fin t n) = .fin (s ^^ t) 0 := by
  have hprod : Num.magUnits F m * Num.magUnits F n = 0 := by simpa using h
  rw [Num.mul_fin_fin, hprod, Num.round_zero _ (Nat.two_pow_pos _)]

theorem Num.div_eq_zero_of_zero {s t : Bool} {m n : Fin F.magCount} (hm : m.val = 0)
    (hn : n.val ≠ 0) : (Num.fin s m).div (.fin t n) = .fin (s ^^ t) 0 := by
  rw [Num.div_fin_fin s t m hn, hm, Num.magUnits_zero, Nat.zero_mul,
    Num.round_zero _ (Num.magUnits_pos hn)]

/-- Any value over a finite zero: 0 / 0 is NaN, the rest an infinity. -/
theorem Num.div_zero_of_fin (s t : Bool) (m : Fin F.magCount) {n : Fin F.magCount} (hn : n.val = 0) :
    (Num.fin s m).div (.fin t n) = if m.val = 0 then .nan else .inf (s ^^ t) := if_pos hn

theorem Num.add_nan (x : Num F) : x.add .nan = .nan := by cases x <;> rfl
theorem Num.mul_nan (x : Num F) : x.mul .nan = .nan := by cases x <;> rfl
theorem Num.div_nan (x : Num F) : x.div .nan = .nan := by cases x <;> rfl

/-- Infinities of opposite signs subtract, of one sign give NaN. -/
theorem Num.inf_sub_inf (s t : Bool) :
    (Num.inf s : Num F).sub (.inf t) = if s = t then .nan else .inf s := by
  cases s <;> cases t <;> rfl

/-! ### The order of values -/

theorem Num.key_fin (s : Bool) (m : Fin F.magCount) :
    (Num.fin s m).key = if s then -(m.val : Int) else m.val := rfl

theorem Num.key_inf (s : Bool) :
    (Num.inf s : Num F).key = if s then -(F.magCount : Int) else F.magCount := rfl

/-- Keys of finite values lie strictly between those of the infinities. -/
theorem Num.key_fin_bounds (s : Bool) (m : Fin F.magCount) :
    -(F.magCount : Int) < (Num.fin s m).key ∧ (Num.fin s m).key < F.magCount := by
  have hm := m.isLt
  rw [Num.key_fin]
  split <;> omega

/-- Keys order finite values as their exact values do. -/
theorem Num.signedUnits_lt_iff (s t : Bool) (m n : Fin F.magCount) :
    Num.signedUnits F s m < Num.signedUnits F t n ↔ (Num.fin s m).key < (Num.fin t n).key := by
  have hlt : Num.magUnits F m < Num.magUnits F n ↔ m.val < n.val :=
    (Num.magUnits_strictMono F).lt_iff_lt
  have hgt : Num.magUnits F n < Num.magUnits F m ↔ n.val < m.val :=
    (Num.magUnits_strictMono F).lt_iff_lt
  have hm : Num.magUnits F m = 0 ↔ m.val = 0 := Num.magUnits_eq_zero
  have hn : Num.magUnits F n = 0 ↔ n.val = 0 := Num.magUnits_eq_zero
  rw [Num.key_fin, Num.key_fin, Num.signedUnits, Num.signedUnits]
  cases s <;> cases t <;> simp only [Bool.false_eq_true, if_true, if_false] <;> omega

@[simp] theorem Num.isNan_fin (s : Bool) (m : Fin F.magCount) : (Num.fin s m).isNan = false := rfl
@[simp] theorem Num.isNan_inf (s : Bool) : (Num.inf s : Num F).isNan = false := rfl
@[simp] theorem Num.isNan_nan : (Num.nan : Num F).isNan = true := rfl

theorem Num.lt_fin_iff (s t : Bool) (m n : Fin F.magCount) :
    (Num.fin s m).lt (.fin t n) = true ↔ Num.signedUnits F s m < Num.signedUnits F t n := by
  simp [Num.lt_iff, Num.signedUnits_lt_iff]

theorem Num.le_fin_iff (s t : Bool) (m n : Fin F.magCount) :
    (Num.fin s m).le (.fin t n) = true ↔ Num.signedUnits F s m ≤ Num.signedUnits F t n := by
  rw [← not_lt, Num.signedUnits_lt_iff]
  simp [Num.le_iff]

theorem Num.neg_inf_lt_fin (s : Bool) (m : Fin F.magCount) :
    (Num.inf true).lt (.fin s m) = true := by
  simpa [Num.lt_iff, Num.key_inf] using (Num.key_fin_bounds s m).1

theorem Num.fin_lt_inf (s : Bool) (m : Fin F.magCount) :
    (Num.fin s m).lt (.inf false) = true := by
  simpa [Num.lt_iff, Num.key_inf] using (Num.key_fin_bounds s m).2

theorem Num.neg_inf_lt_inf (F : Fmt) : (Num.inf true : Num F).lt (.inf false) = true := by
  have h := (Num.key_fin_bounds false (0 : Fin F.magCount)).1.trans (Num.key_fin_bounds false 0).2
  simpa [Num.lt_iff, Num.key_inf] using h

theorem Num.lt_self (x : Num F) : x.lt x = false := by simp [Num.lt]

/-- `<` fails exactly on a NaN or on keys the other way round. -/
theorem Num.lt_eq_false_iff (a b : Num F) :
    a.lt b = false ↔ (a.isNan = false → b.isNan = false → b.key ≤ a.key) := by
  rw [← Bool.not_eq_true, Num.lt_iff]
  simp

/-- A value is no NaN exactly when the test of R12 says so. -/
theorem Num.isNan_eq_false_iff (a : Num F) : a.isNan = false ↔ a ≠ .nan := by
  rw [← Bool.not_eq_true, Num.isNan_iff]

/-- `≤` is `<` or, of two values that are no NaN, neither less (R15). -/
theorem Num.le_iff_lt_or (x y : Num F) :
    x.le y = true ↔ x.lt y = true ∨ (x ≠ .nan ∧ y ≠ .nan ∧ y.lt x = false) := by
  rw [Num.le_iff, Num.lt_iff, Num.lt_eq_false_iff, ← Num.isNan_eq_false_iff,
    ← Num.isNan_eq_false_iff]
  constructor
  · rintro ⟨hx, hy, hle⟩
    exact .inr ⟨hx, hy, fun _ _ => hle⟩
  · rintro (⟨hx, hy, hlt⟩ | ⟨hx, hy, hle⟩)
    · exact ⟨hx, hy, hlt.le⟩
    · exact ⟨hx, hy, hle hy hx⟩

theorem Num.lt_nan (x : Num F) : x.lt .nan = false := by simp [Num.lt]
theorem Num.nan_lt (x : Num F) : Num.nan.lt x = false := by simp [Num.lt]
theorem Num.le_nan (x : Num F) : x.le .nan = false := by simp [Num.le]
theorem Num.nan_le (x : Num F) : Num.nan.le x = false := by simp [Num.le]

theorem Num.le_refl_of_ne_nan {x : Num F} (h : x ≠ .nan) : x.le x = true :=
  (Num.le_iff x x).2 ⟨(Num.isNan_eq_false_iff x).2 h, (Num.isNan_eq_false_iff x).2 h, le_rfl⟩

/-! ### clamp -/

theorem Num.clamp_of_lt {v lo hi : Num F} (h : v.lt lo = true) : v.clamp lo hi = lo := if_pos h

/-- With the bounds in order a value above hi is not below lo, so clamp gives hi. -/
theorem Num.clamp_of_gt {v lo hi : Num F} (hb : lo.le hi = true) (h : v.gt hi = true) :
    v.clamp lo hi = hi := by
  have hlo : v.lt lo = false := by
    rw [Num.lt_eq_false_iff]
    have := (Num.le_iff _ _).1 hb
    have := (Num.gt_iff _ _).1 h
    omega
  simp [Num.clamp, hlo, h]

theorem Num.clamp_of_inside {v lo hi : Num F} (hl : v.lt lo = false) (hh : v.gt hi = false) :
    v.clamp lo hi = v := by simp [Num.clamp, hl, hh]

/-- clamp of a value that is no NaN lies between bounds that are in order (R19). -/
theorem Num.clamp_between {v lo hi : Num F} (hb : lo.le hi = true) (hv : v ≠ .nan) :
    lo.le (v.clamp lo hi) = true ∧ (v.clamp lo hi).le hi = true := by
  obtain ⟨hlo, hhi, -⟩ := (Num.le_iff _ _).1 hb
  rw [Num.isNan_eq_false_iff] at hlo hhi
  cases hl : v.lt lo with
  | true =>
    rw [Num.clamp_of_lt hl]
    exact ⟨Num.le_refl_of_ne_nan hlo, hb⟩
  | false =>
    cases hh : v.gt hi with
    | true =>
      rw [Num.clamp_of_gt hb hh]
      exact ⟨hb, Num.le_refl_of_ne_nan hhi⟩
    | false =>
      rw [Num.clamp_of_inside hl hh]
      exact ⟨(Num.le_iff_lt_or _ _).2 (.inr ⟨hlo, hv, hl⟩),
        (Num.le_iff_lt_or _ _).2 (.inr ⟨hv, hhi, hh⟩)⟩

/-! ### Port words -/

theorem Num.ofSignMag_inf (neg : Bool) : (Num.ofSignMag neg F.magCount : Num F) = .inf neg := by
  simp [Num.ofSignMag]

theorem Num.ofSignMag_nan (neg : Bool) {m : Nat} (h : F.magCount < m) :
    (Num.ofSignMag neg m : Num F) = .nan := by
  rw [Num.ofSignMag, dif_neg h.not_gt, if_neg h.ne']

/-- A port word is read as the sign and the code it was made of. -/
theorem Num.ofWord_signMagWord (s : Bool) {m : Nat} (hm : m < 2 ^ 31) :
    Num.ofWord (Num.signMagWord s m) = Num.ofSignMag s m := by
  rw [Num.ofWord, BitVec.msb_eq_decide, Num.signMagWord_toNat s hm]
  cases s
  · congr 1
    · simpa using hm
    · simpa using Nat.mod_eq_of_lt hm
  · congr 1
    · simp
    · simpa using Nat.mod_eq_of_lt hm

/-- A port word is the word of its bit 31 and its bits 30:0. -/
theorem Num.signMagWord_of_fields (w : Word) : Num.signMagWord w.msb (w.toNat % 2 ^ 31) = w := by
  have hw := w.isLt
  apply BitVec.eq_of_toNat_eq
  rw [Num.signMagWord_toNat _ (Nat.mod_lt _ (by decide)), BitVec.msb_eq_decide]
  simp only [decide_eq_true_eq]
  split <;> omega

/-- Bits that encode no NaN are those of the value they encode. -/
theorem numWord_ofSignMag (d : Nat) (s : Bool) {m : Nat}
    (h : (Num.ofSignMag s m : Value) ≠ .nan) :
    Machine.numWord d (Num.ofSignMag s m) = Num.signMagWord s m := by
  obtain hm | rfl | hm := Nat.lt_trichotomy m Config.fmt.magCount
  · rw [Num.ofSignMag_fin s hm]; rfl
  · rw [Num.ofSignMag_inf]; rfl
  · exact absurd (Num.ofSignMag_nan s hm) h

/-- The word of a value encodes it, a NaN's too whatever encoding is drawn (R12). -/
theorem ofWord_numWord (d : Nat) (x : Value) : Num.ofWord (Machine.numWord d x) = x := by
  have hcount := binary32_magCount
  cases x with
  | nan =>
    have hfrac := (Config.nanCode d).fracPred.isLt
    rw [Machine.numWord, Machine.nanWord, Num.ofWord_signMagWord _ (by omega),
      Num.ofSignMag_nan _ (by omega)]
  | inf s => rw [Machine.numWord, Num.ofWord_signMagWord _ (by omega), Num.ofSignMag_inf]
  | fin s m =>
    rw [Machine.numWord, Num.ofWord_signMagWord _ (by omega), Num.ofSignMag_fin _ m.isLt]

end Sys2Proof
end

section
/-! SUPPORT. The statements about numbers of 00_scope.md, R11 to R19. -/

namespace Sys2Proof

/-- Settles O6: reading undoes writing (`ofWord_numWord`), and bits that are no NaN encoding are
written back as read (`numWord_ofSignMag`). -/
theorem portWordsEncodeValues : Obligations.PortWordsEncodeValues := by
  refine ⟨ofWord_numWord, fun d w hw => ?_⟩
  rw [Num.ofWord, numWord_ofSignMag d _ hw, Num.signMagWord_of_fields]

/-- Settles O7: nearest and even by `Num.roundCode_nearest`, RN of the exact result by `isRN_round`. -/
theorem roundingIsNearestEven : Obligations.RoundingIsNearestEven := by
  intro F
  refine ⟨?_, ?_, ?_, ?_, ?_⟩
  · intro neg n d s m m' hd h
    obtain ⟨rfl, hm⟩ := Num.round_eq_fin_iff.1 h
    have hnear := Num.roundCode_nearest F (n := n) hd m'
    rw [hm] at hnear
    exact ⟨rfl, hnear.1, fun heq hne => hnear.2 heq fun h => hne (Fin.ext h)⟩
  · exact fun x y u v hx hy => ⟨isRN_add hx hy, isRN_sub hx hy, isRN_mul hx hy, isRN_div hx hy⟩
  · intro s t m n
    refine ⟨Num.add_eq_zero_of_sum, Num.sub_eq_zero_of_eq, Num.mul_eq_zero_of_zero,
      Num.div_eq_zero_of_zero, fun hm hn => ?_, fun hm hn => ?_⟩
    · rw [Num.div_zero_of_fin s t m hn, if_neg hm]
    · rw [Num.div_zero_of_fin s t m hn, if_pos hm]
  · exact fun x => ⟨x.add_nan, x.add_nan, x.mul_nan, x.div_nan, rfl, rfl, rfl, rfl⟩
  · exact fun s t m => ⟨rfl, Num.inf_sub_inf s t, rfl, rfl, rfl, rfl, rfl, rfl, rfl,
      by rw [Bool.xor_comm]; rfl, rfl, by rw [Bool.xor_comm]; rfl⟩

/-- Settles O8, by `Num.magCount_le_roundCode_iff`. -/
theorem roundingOverflowsAtThreshold : Obligations.RoundingOverflowsAtThreshold := by
  intro F neg n d hd
  rw [Num.round_eq_inf_iff, Num.magCount_le_roundCode_iff F hd]
  exact ⟨and_iff_right rfl, Num.round_ne_nan neg n d⟩

/-- Settles O9: keys order values as their exact values do (`Num.signedUnits_lt_iff`). -/
theorem comparisonsFollowValues : Obligations.ComparisonsFollowValues := by
  exact fun F => ⟨fun s t m n => ⟨Num.lt_fin_iff s t m n, Num.le_fin_iff s t m n⟩,
    fun s m => ⟨Num.neg_inf_lt_fin s m, Num.fin_lt_inf s m⟩, Num.neg_inf_lt_inf F,
    fun x y => ⟨x.lt_self, rfl, rfl, x.le_iff_lt_or y⟩,
    fun x => ⟨x.lt_nan, x.nan_lt, x.le_nan, x.nan_le⟩⟩

/-- Settles O10, by the three cases of R19. -/
theorem clampStaysInBounds : Obligations.ClampStaysInBounds := by
  intro F v lo hi hb
  refine ⟨Num.clamp_of_lt, Num.clamp_of_gt hb, Num.clamp_of_inside, ?_, Num.clamp_between hb⟩
  rintro rfl
  exact Num.clamp_of_inside lo.nan_lt hi.lt_nan

end Sys2Proof
end

section
/-! SUPPORT. What a command can write to the registers and what a step can do to the state, each said
once; the invariant and the frames of 10_state.md are case analyses over these two. -/

namespace Sys2Proof.Machine

variable {F : Fmt}

/-! ### Coefficients of Biquads and of banks -/

/-- z1 and z2 are +0 (R43). -/
def Biquad.AtRest (q : Biquad F) : Prop := q.z1 = Num.zero ∧ q.z2 = Num.zero

theorem bqNew_atRest : (bqNew : Biquad F).AtRest := ⟨rfl, rfl⟩
theorem bqSetLowpass_atRest (p : Params F) (freq fs : Num F) :
    (bqSetLowpass p freq fs).AtRest := ⟨rfl, rfl⟩
theorem bqSetHighpass_atRest (p : Params F) (freq fs : Num F) :
    (bqSetHighpass p freq fs).AtRest := ⟨rfl, rfl⟩

@[refl] theorem Biquad.SameCoefs.refl (q : Biquad F) : q.SameCoefs q := ⟨rfl, rfl, rfl, rfl, rfl⟩

@[symm] theorem Biquad.SameCoefs.symm {q q' : Biquad F} (h : q.SameCoefs q') : q'.SameCoefs q := by
  obtain ⟨h0, h1, h2, h3, h4⟩ := h
  exact ⟨h0.symm, h1.symm, h2.symm, h3.symm, h4.symm⟩

theorem Biquad.SameCoefs.trans {q q' q'' : Biquad F} (h : q.SameCoefs q') (h' : q'.SameCoefs q'') :
    q.SameCoefs q'' := by
  obtain ⟨h0, h1, h2, h3, h4⟩ := h
  obtain ⟨k0, k1, k2, k3, k4⟩ := h'
  exact ⟨h0.trans k0, h1.trans k1, h2.trans k2, h3.trans k3, h4.trans k4⟩

/-- bq_process writes no coefficient (R138). -/
theorem bqProcess_sameCoefs (q : Biquad F) (x : Num F) : q.SameCoefs (bqProcess q x).2 :=
  ⟨rfl, rfl, rfl, rfl, rfl⟩

/-- A property of every index of a bank, index by index. -/
theorem forall_biquadIndex {P : BitVec 3 → Prop} :
    (∀ k, P k) ↔ P 0 ∧ P 1 ∧ P 2 ∧ P 3 ∧ P 4 ∧ P 5 ∧ P 6 ∧ P 7 := by
  refine ⟨fun h => ⟨h 0, h 1, h 2, h 3, h 4, h 5, h 6, h 7⟩, ?_⟩
  rintro ⟨h0, h1, h2, h3, h4, h5, h6, h7⟩ k
  obtain ⟨i, rfl⟩ : ∃ i : Fin 8, k = BitVec.ofFin i := ⟨k.toFin, rfl⟩
  fin_cases i
  exacts [h0, h1, h2, h3, h4, h5, h6, h7]

@[refl] theorem BiquadBank.SameCoefs.refl (f : BiquadBank F) : f.SameCoefs f := fun _ => .refl _

/-- A Biquad put in the place of one with the same coefficients. -/
theorem BiquadBank.sameCoefs_put {f : BiquadBank F} {k : BitVec 3} {q : Biquad F}
    (h : (f.get k).SameCoefs q) : f.SameCoefs (f.put k q) := by
  intro k'
  rw [biquad_get_put]
  split
  case isTrue hk => exact hk ▸ h
  case isFalse => exact .refl _

/-- xo_split writes no coefficient (R157). -/
theorem xoSplit_sameCoefs (f : BiquadBank F) (x : Num F) : f.SameCoefs (xoSplit f x).2 := by
  refine forall_biquadIndex.2 ⟨?_, ?_, ?_, ?_, ?_, ?_, ?_, ?_⟩ <;> exact bqProcess_sameCoefs _ _

/-- engine_sample writes no coefficient (R194). -/
theorem engineSample_sameCoefs (p : Params F) (sl sm sh : Settings F) (ch : Channel F) (x : Num F) :
    ch.bq.SameCoefs (engineSample p sl sm sh ch x).2.bq := xoSplit_sameCoefs ch.bq x

/-- xo_design leaves every Biquad at rest (R151). -/
theorem xoDesign_atRest (p : Params F) (low high fs : Num F) :
    ∀ k, ((xoDesign p low high fs).get k).AtRest := by
  refine forall_biquadIndex.2 ⟨?_, ?_, ?_, ?_, ?_, ?_, ?_, ?_⟩ <;> exact ⟨rfl, rfl⟩

/-- A bank fresh from INIT is at rest (R62). -/
theorem freshChannel_atRest (p : Params F) : ∀ k, ((freshChannel p).bq.get k).AtRest := by
  refine forall_biquadIndex.2 ⟨?_, ?_, ?_, ?_, ?_, ?_, ?_, ?_⟩ <;> exact bqNew_atRest

theorem xoDesign_paired (p : Params F) (low high fs : Num F) : (xoDesign p low high fs).Paired :=
  ⟨.refl _, .refl _, .refl _, .refl _⟩

theorem freshChannel_paired (p : Params F) : (freshChannel p).bq.Paired :=
  ⟨.refl _, .refl _, .refl _, .refl _⟩

/-- Pairing depends on the coefficients only. -/
theorem BiquadBank.Paired.of_sameCoefs {f f' : BiquadBank F} (hf : f.Paired) (h : f.SameCoefs f') :
    f'.Paired := by
  obtain ⟨hlow, hmidHp, hmidLp, hhigh⟩ := hf
  exact ⟨(h 0).symm.trans (hlow.trans (h 1)), (h 2).symm.trans (hmidHp.trans (h 3)),
    (h 4).symm.trans (hmidLp.trans (h 5)), (h 6).symm.trans (hhigh.trans (h 7))⟩

/-! ### What a command can write -/

/-- What a command with opcode `o` can do to the Biquads of a bank there was before it (R42): run
them, design one, or design all. -/
inductive BankWrite (p : Params F) (o : Opcode) (f : BiquadBank F) : BiquadBank F → Prop where
  | run {f' : BiquadBank F} : f.SameCoefs f' → BankWrite p o f f'
  | design {k : BitVec 3} {q : Biquad F} :
      o = .bqSetlp ∨ o = .bqSethp → q.AtRest → BankWrite p o f (f.put k q)
  | redesign {low high fs : Num F} : o = .xoUpd → BankWrite p o f (xoDesign p low high fs)

/-- What a command with opcode `o` can write to the registers, at a block's NCH_MAX: one constructor
per shape of write, shared by the commands that write alike. Any command can write nothing or take a
fault. -/
inductive RegWrite (p : Params F) (nchMax : BitVec 8) (o : Opcode) (r : Regs F) :
    Regs F → Prop where
  | nothing : RegWrite p nchMax o r r
  | fault (f : FaultCode) : RegWrite p nchMax o r { r with fault := f.code }
  | init {nch : BitVec 8} {fs : Num F} : o = .init → nch.toNat ≤ nchMax.toNat →
      RegWrite p nchMax o r
        { r with
          nch := nch
          rate := some { fs := fs, decayW := decayWeight p fs }
          chans := List.replicate nch.toNat (freshChannel p)
          xo := none
          set := ⟨none, none, none⟩
          blockPeak := Num.zero }
  | clearBlockPeak : RegWrite p nchMax o r { r with blockPeak := Num.zero }
  | channel {c : BitVec 8} {ch ch' : Channel F} : r.chans[c.toNat]? = some ch →
      BankWrite p o ch.bq ch'.bq → RegWrite p nchMax o r (r.putChan c ch')
  | sample {c : BitVec 8} {ch ch' : Channel F} {y : Num F} : r.chans[c.toNat]? = some ch →
      ch.bq.SameCoefs ch'.bq →
      RegWrite p nchMax o r { r.putChan c ch' with blockPeak := blockPeakNext r.blockPeak y }
  | storePeak {w v : Num F} : o = .blkEnd ∨ o = .pkUpd →
      RegWrite p nchMax o r (r.pkUpdate w v)
  | splits {lo hi low high : Num F} {e : RateRegs F} : o = .xoUpd → r.rate = some e →
      xoClamp lo hi e.fs = .ok (low, high) →
      RegWrite p nchMax o r
        { r with
          xo := some { lowFreq := low, highFreq := high }
          chans := r.chans.map fun ch => { ch with bq := xoDesign p low high e.fs } }
  | snapshot {b : Band} {v : Settings F} {e : RateRegs F} : o = .bcSet → r.rate = some e →
      Num.one.le v.ratio = true → RegWrite p nchMax o r { r with set := r.set.put b v }
  | ui {f : Bool} : o = .pkAtt → RegWrite p nchMax o r { r with ui := f }

/-- A resolved snapshot has ratio ≥ 1 (R177, R182 (e)). -/
theorem one_le_settingsResolve_ratio (tf : TF F) (fs thr ratio att rel makeup : Num F) :
    Num.one.le (settingsResolve tf fs thr ratio att rel makeup).ratio = true :=
  Num.le_fmaxc ratio Num.one ((Num.isNan_eq_false_iff _).2 (Num.round_ne_nan _ _ _))

/-- A command whose rule succeeds writes in one of these ways. -/
theorem rule_write {p : Params Config.fmt} {nchMax : BitVec 8} {i : Instr} {r r' : Regs Config.fmt}
    {rs : List (ResultWord Config.fmt)} (h : Instr.rule p nchMax i r = .ok (r', rs)) :
    RegWrite p nchMax i.opcode r r' := by
  cases i with
  | init nch fs =>
    obtain ⟨hn, -, rfl⟩ := init_ok h
    exact .init rfl hn
  | blkBeg =>
    obtain ⟨-, -, rfl⟩ := blkBeg_ok h
    exact .clearBlockPeak
  | sample c x =>
    obtain ⟨_, ch, sl, sm, sh, -, -, hch, -, -, rfl⟩ := sample_ok h
    exact .sample hch (engineSample_sameCoefs _ _ _ _ _ _)
  | blkEnd =>
    obtain ⟨e, -, -, rfl⟩ := blkEnd_ok h
    split
    · exact .storePeak (.inl rfl)
    · exact .nothing
  | bqSetlp c k freq fs =>
    obtain ⟨_, ch, -, -, hch, -, rfl⟩ := bqSetlp_ok h
    exact .channel hch (.design (.inl rfl) (bqSetLowpass_atRest _ _ _))
  | bqSethp c k freq fs =>
    obtain ⟨_, ch, -, -, hch, -, rfl⟩ := bqSethp_ok h
    exact .channel hch (.design (.inr rfl) (bqSetHighpass_atRest _ _ _))
  | bqStep c k x =>
    obtain ⟨_, ch, -, -, hch, -, rfl⟩ := bqStep_ok h
    exact .channel hch (.run (BiquadBank.sameCoefs_put (bqProcess_sameCoefs _ _)))
  | xoUpd lo hi =>
    obtain ⟨e, he, ⟨-, rfl, -⟩ | ⟨low, high, -, hclamp, -, rfl⟩⟩ := xoUpd_ok h
    · exact .nothing
    · exact .splits rfl he hclamp
  | xoSplit c x =>
    obtain ⟨_, ch, -, -, hch, -, rfl⟩ := xoSplit_ok h
    exact .channel hch (.run (xoSplit_sameCoefs _ _))
  | bcSet b thr ratio att rel makeup =>
    obtain ⟨e, v, he, -, -, rfl⟩ := bcSet_ok h
    exact .snapshot rfl he (one_le_settingsResolve_ratio _ _ _ _ _ _ _)
  | bcStep c b x =>
    obtain ⟨_, ch, _, _, -, -, hch, -, -, -, rfl⟩ := bcStep_ok h
    exact .channel hch (.run (.refl _))
  | pkAtt f =>
    obtain ⟨-, rfl⟩ := pkAtt_ok h
    exact .ui rfl
  | pkUpd v =>
    obtain ⟨e, -, -, rfl⟩ := pkUpd_ok h
    exact .storePeak (.inr rfl)
  | pkRead =>
    obtain ⟨-, rfl⟩ := pkRead_ok h
    exact .nothing
  | regRd addr =>
    obtain ⟨_, _, -, -, -, rfl⟩ := regRd_ok h
    exact .nothing

/-- Every command, faulting or not, writes in one of these ways. -/
theorem exec_write {i : Instr} {s t : State} (h : exec i s = .next t) :
    RegWrite Config.params s.nchMax i.opcode s.regs t.regs := by
  obtain ⟨-, rfl⟩ | ⟨f, -, -, rfl⟩ | ⟨r, rs, -, hr, rfl⟩ := exec_cases h
  · exact .nothing
  · exact .fault f
  · exact rule_write hr

/-- A command writes neither NCH_MAX nor the reset input. -/
theorem exec_frame {i : Instr} {s t : State} (h : exec i s = .next t) :
    t.nchMax = s.nchMax ∧ t.ports.inReset = s.ports.inReset := by
  obtain ⟨-, rfl⟩ | ⟨f, -, -, rfl⟩ | ⟨r, rs, -, -, rfl⟩ := exec_cases h <;> exact ⟨rfl, rfl⟩

/-- An illegal command is refused in the fault state, else it raises F_ILLEGAL (R109, R241). -/
theorem illegalCommand_cases (op : BitVec 8) (s : State) :
    illegalCommand op s = s.refuse op ∨ illegalCommand op s = s.raise op .illegal := by
  obtain ⟨-, h⟩ | ⟨_, -, hf, h⟩ | ⟨_, _, -, hr, -⟩ :=
    runCommand_cases op (fun _ => .error .illegal) s
  · exact .inl h
  · cases hf; exact .inr h
  · cases hr

/-- An illegal command writes what a command of any opcode can. -/
theorem illegalCommand_write (p : Params Config.fmt) (nchMax op : BitVec 8) (o : Opcode)
    (s : State) : RegWrite p nchMax o s.regs (illegalCommand op s).regs := by
  obtain h | h := illegalCommand_cases op s <;> rw [h]
  · exact .nothing
  · exact .fault .illegal

theorem illegalCommand_frame (op : BitVec 8) (s : State) :
    (illegalCommand op s).nchMax = s.nchMax ∧
      (illegalCommand op s).ports.inReset = s.ports.inReset := by
  obtain h | h := illegalCommand_cases op s <;> rw [h] <;> exact ⟨rfl, rfl⟩

/-- While reset is asserted no command is taken (R260). -/
theorem fetch_of_inReset {s : State} (h : s.ports.inReset = true) : fetch s = .needMore := if_pos h

/-- No event writes NCH_MAX. -/
theorem apply_nchMax (ev : Input) (s : State) : (ev.apply s).nchMax = s.nchMax := by
  cases ev with
  | word w => simp only [Input.apply, arrive]; split <;> rfl
  | uiRead => rfl
  | resetOn => rfl
  | resetOff => rfl

/-- Everything a step can do to the registers, NCH_MAX and the reset input: a command, legal or not,
writes while reset is released, nothing happens, or an outside event does. -/
theorem step_effect {s t : State} (h : step s = .next t) :
    (s.ports.inReset = false ∧ t.ports.inReset = false ∧ t.nchMax = s.nchMax ∧
      ∃ o, RegWrite Config.params s.nchMax o s.regs t.regs) ∨
    t = s ∨
    ∃ ev tl, s.ports.inputs = ev :: tl ∧
      t = ev.apply { s with ports := { s.ports with inputs := tl } } := by
  have released {d : Decoded} (hd : fetch s = d) (hne : d ≠ .needMore) :
      s.ports.inReset = false := by
    rw [← Bool.not_eq_true]
    exact fun hr => hne (hd ▸ fetch_of_inReset hr)
  obtain ⟨i, rest, hf, hs⟩ | ⟨why, op, rest, hf, hs⟩ | ⟨-, hs⟩ := step_cases s
  · have hi : exec i (s.withCmd rest) = .next t := hs ▸ h
    obtain ⟨hn, hr⟩ := exec_frame hi
    have hrel := released hf (by simp)
    exact .inl ⟨hrel, hr.trans hrel, hn, _, exec_write (s := s.withCmd rest) hi⟩
  · obtain rfl : illegalCommand op (s.withCmd rest) = t := by simpa [hs] using h
    obtain ⟨hn, hr⟩ := illegalCommand_frame op (s.withCmd rest)
    have hrel := released hf (by simp)
    exact .inl ⟨hrel, hr.trans hrel, hn, .pkRead,
      illegalCommand_write _ _ op _ (s.withCmd rest)⟩
  · obtain rfl : takeInput s = t := by simpa [hs] using h
    obtain ⟨-, ht⟩ | ⟨ev, tl, hev, ht⟩ := takeInput_cases s
    · exact .inr (.inl ht)
    · exact .inr (.inr ⟨ev, tl, hev, ht⟩)

end Sys2Proof.Machine
end

section
/-! SUPPORT. The statements about the state of 10_state.md: each follows from what a command can
write (`exec_write`) or from what a step can do (`step_effect`). -/

namespace Sys2Proof.Machine

variable {F : Fmt} {p : Params F} {m : BitVec 8} {o : Opcode} {r r' : Regs F}

/-! ### The invariant of the registers -/

/-- The reset registers have the invariant (R61, R63). -/
theorem reset_inv : (Regs.reset : Regs F).Inv where
  uninit _ := ⟨rfl, rfl, rfl⟩
  banks := rfl
  blockPeak := ⟨rfl, rfl⟩
  peakLast := rfl
  seen := Nat.one_pos
  fault := Nat.zero_le 7
  ratio b _ h := by cases b <;> cases h
  split _ h := by cases h

theorem faultCode_le (f : FaultCode) : f.code.toNat ≤ 7 := by cases f <;> decide

/-- The running maximum stays a value that is neither NaN nor negative (R63 (e)). -/
theorem blockPeakNext_nonneg {peak : Num F} (y : Num F)
    (h : peak.isNan = false ∧ peak.signBit = false) :
    (blockPeakNext peak y).isNan = false ∧ (blockPeakNext peak y).signBit = false := by
  unfold blockPeakNext
  split
  case isTrue hgt => exact ⟨((Num.gt_iff _ _).1 hgt).1, y.abs_signBit⟩
  case isFalse => exact h

/-- The clamped splits of XO.UPD are in order (R153, D16). A NaN request for LOW_FREQ would make the
second pair of bounds NaN, which is a fault; one for HIGH_FREQ passes. -/
theorem xoClamp_ordered {lo hi fs low high : Num F} (h : xoClamp lo hi fs = .ok (low, high)) :
    (Num.ofDec Config.lowMinHz).le low = true ∧
      (high = .nan ∨ (low.add (Num.ofDec Config.sepMinHz)).le high = true) := by
  obtain ⟨hloBounds, hlow, hhiBounds, hhigh⟩ := xoClamp_ok h
  constructor
  · have hlo : lo ≠ .nan := by
      rintro rfl
      rw [Num.clamp_of_inside (Num.nan_lt _) (Num.lt_nan _)] at hlow
      rw [hlow, show Num.nan.add _ = (.nan : Num F) from rfl, Num.nan_le] at hhiBounds
      cases hhiBounds
    exact hlow ▸ (Num.clamp_between hloBounds hlo).1
  · by_cases hhi : hi = .nan
    · rw [hhi, Num.clamp_of_inside (Num.nan_lt _) (Num.lt_nan _)] at hhigh
      exact .inl hhigh
    · exact .inr (hhigh ▸ (Num.clamp_between hhiBounds hhi).1)

/-- Whatever a command writes, the registers keep their invariant (R63). -/
theorem RegWrite.inv (h : RegWrite p m o r r') (hr : r.Inv) : r'.Inv := by
  cases h with
  | nothing => exact hr
  | fault f => exact { hr with fault := faultCode_le f }
  | init _ _ =>
    exact { hr with
      uninit := nofun
      banks := List.length_replicate
      blockPeak := ⟨rfl, rfl⟩
      ratio := fun b _ h => by cases b <;> cases h
      split := nofun }
  | clearBlockPeak => exact { hr with blockPeak := ⟨rfl, rfl⟩ }
  | channel _ _ => exact { hr with banks := by simpa using hr.banks }
  | sample _ _ =>
    exact { hr with
      banks := by simpa using hr.banks
      blockPeak := blockPeakNext_nonneg _ hr.blockPeak }
  | storePeak _ =>
    exact { hr with
      peakLast := List.getLast?_concat
      seen := by simpa using Nat.lt_succ_of_lt hr.seen }
  | splits _ he hclamp =>
    exact { hr with
      uninit := fun h => absurd (he ▸ h) nofun
      banks := by simpa using hr.banks
      split := by
        rintro f ⟨⟩
        exact xoClamp_ordered hclamp }
  | @snapshot b v e _ he hratio =>
    exact { hr with
      uninit := fun h => absurd (he ▸ h) nofun
      ratio := by
        intro b' v' hv
        rw [settings_get_put] at hv
        split at hv
        · cases hv; exact hratio
        · exact hr.ratio b' v' hv }
  | ui _ => exact { hr with }

/-- NCH stays within NCH_MAX: INIT checks it and no other command writes NCH (R47). -/
theorem RegWrite.nch_le (h : RegWrite p m o r r') (hr : r.nch.toNat ≤ m.toNat) :
    r'.nch.toNat ≤ m.toNat := by
  cases h with
  | init _ hn => exact hn
  | _ => exact hr

/-! ### The invariant along a step -/

/-- A UI read returns an index of PEAK_HIST (R87). -/
theorem uiIndex_lt {s : State} (h : s.regs.uiSeen < s.regs.peakHist.length) :
    uiIndex s < s.regs.peakHist.length := by
  have := Nat.mod_lt (Config.uiDraw s.ports.draws) (Nat.sub_pos_of_lt h)
  unfold uiIndex
  omega

/-- A UI read of the reset registers, whose history has one value, leaves them (log entry 8). -/
theorem uiPortRead_of_reset {s : State} (h : s.regs = Regs.reset) :
    (uiPortRead s).regs = Regs.reset := by
  have hj : uiIndex s = 0 := by simp [uiIndex, h, Regs.reset, Nat.mod_one]
  change { s.regs with uiSeen := uiIndex s } = Regs.reset
  rw [hj, h]
  rfl

/-- An outside event keeps the invariant. -/
theorem apply_inv (ev : Input) {s : State} (h : s.Inv) : (ev.apply s).Inv := by
  cases ev with
  | word w =>
    simp only [Input.apply, arrive]
    split
    case isTrue => exact h
    case isFalse hrel => exact { h with reset := fun hon => absurd hon hrel }
  | uiRead =>
    exact
      { regs := { h.regs with seen := uiIndex_lt h.regs.seen }
        nchBound := h.nchBound
        reset := fun hon => ⟨uiPortRead_of_reset (h.reset hon).1, (h.reset hon).2⟩ }
  | resetOn => exact ⟨reset_inv, Nat.zero_le _, fun _ => ⟨rfl, rfl⟩⟩
  | resetOff => exact ⟨h.regs, h.nchBound, nofun⟩

/-- Settles O18: a command keeps the registers' invariant by what it can write, and is taken only
while reset is released; an outside event keeps the rest. -/
theorem stepKeepsInvariant : Obligations.StepKeepsInvariant := by
  intro s t hs hstep
  obtain ⟨-, hrel, hn, o, hw⟩ | rfl | ⟨ev, tl, -, rfl⟩ := step_effect hstep
  · exact
      { regs := hw.inv hs.regs
        nchBound := hn ▸ hw.nch_le hs.nchBound
        reset := fun hon => absurd (hrel ▸ hon) nofun }
  · exact hs
  · exact apply_inv ev ⟨hs.regs, hs.nchBound, hs.reset⟩

/-- Settles O15: the table of R61 is `Regs.reset` written out. -/
theorem hardwareResetGivesResetState : Obligations.HardwareResetGivesResetState :=
  fun _ => ⟨rfl, rfl⟩

/-- Settles O19, by `reset_inv`. -/
theorem resetHasInvariant : Obligations.ResetHasInvariant := ⟨reset_inv, Nat.zero_le _, nofun⟩

/-! ### Coefficients -/

/-- A Biquad whose coefficients changed was designed, so it is at rest (R43). -/
theorem BankWrite.atRest {f f' : BiquadBank F} (h : BankWrite p o f f') {k : BitVec 3}
    (hk : ¬ (f.get k).SameCoefs (f'.get k)) : (f'.get k).AtRest := by
  cases h with
  | run hsame => exact absurd (hsame k) hk
  | @design k' q _ hq =>
    have hkk : k = k' := by
      by_contra hne
      exact hk (by rw [biquad_get_put, if_neg hne])
    rw [biquad_get_put, if_pos hkk]
    exact hq
  | redesign _ => exact xoDesign_atRest _ _ _ _ k

/-- The commands that run Biquads write no coefficient (R42). -/
theorem BankWrite.sameCoefs {f f' : BiquadBank F} (h : BankWrite p o f f') (hlp : o ≠ .bqSetlp)
    (hhp : o ≠ .bqSethp) (hxo : o ≠ .xoUpd) : f.SameCoefs f' := by
  cases h with
  | run hsame => exact hsame
  | design ho _ => exact absurd ho (not_or.2 ⟨hlp, hhp⟩)
  | redesign ho => exact absurd ho hxo

/-- Only the two unit designs can part a cascade (R63 (c)). -/
theorem BankWrite.paired {f f' : BiquadBank F} (h : BankWrite p o f f') (hlp : o ≠ .bqSetlp)
    (hhp : o ≠ .bqSethp) (hf : f.Paired) : f'.Paired := by
  cases h with
  | run hsame => exact hf.of_sameCoefs hsame
  | design ho _ => exact absurd ho (not_or.2 ⟨hlp, hhp⟩)
  | redesign _ => exact xoDesign_paired _ _ _ _

/-- A bank after one bank has been replaced: the new one, or one there was. -/
theorem chans_set_cases {l : List (Channel F)} {c n : Nat} {ch ch' new : Channel F}
    (hch : l[c]? = some ch) (hw : BankWrite p o ch.bq new.bq) (h : (l.set c new)[n]? = some ch') :
    ∃ old, l[n]? = some old ∧ BankWrite p o old.bq ch'.bq := by
  rw [List.getElem?_set] at h
  split at h
  case isTrue hcn =>
    split at h
    · cases h; exact ⟨ch, hcn ▸ hch, hw⟩
    · cases h
  case isFalse => exact ⟨ch', h, .run (.refl _)⟩

/-- The bank of a channel after a command: written in one of the ways of `BankWrite`, or fresh from
INIT. -/
theorem RegWrite.bank (h : RegWrite p m o r r') {n : Nat} {ch' : Channel F}
    (hn : r'.chans[n]? = some ch') :
    (∃ ch, r.chans[n]? = some ch ∧ BankWrite p o ch.bq ch'.bq) ∨
      (o = .init ∧ ch' = freshChannel p) := by
  cases h with
  | init ho _ => exact .inr ⟨ho, List.eq_of_mem_replicate (List.mem_of_getElem? hn)⟩
  | channel hch hw => exact .inl (chans_set_cases hch hw hn)
  | sample hch hsame => exact .inl (chans_set_cases hch (.run hsame) hn)
  | splits ho _ _ =>
    rw [List.getElem?_map] at hn
    obtain ⟨ch, hch, rfl⟩ := Option.map_eq_some_iff.1 hn
    exact .inl ⟨ch, hch, .redesign ho⟩
  | _ => exact .inl ⟨ch', hn, .run (.refl _)⟩

/-- No command but INIT changes how many banks there are. -/
theorem RegWrite.chans_length (h : RegWrite p m o r r') (ho : o ≠ .init) :
    r'.chans.length = r.chans.length := by
  cases h with
  | init h _ => exact absurd h ho
  | channel _ _ => exact List.length_set
  | sample _ _ => exact List.length_set
  | splits _ _ _ => exact List.length_map _
  | _ => rfl

/-- Settles O39: a changed Biquad was written by a design or is fresh, and both leave it at rest. -/
theorem coefficientChangeResetsState : Obligations.CoefficientChangeResetsState := by
  refine ⟨fun F p freq fs => ⟨rfl, rfl, rfl, rfl, rfl, rfl⟩, ?_⟩
  intro i s t n k ch ch' h hch hch' hk
  obtain ⟨old, hold, hw⟩ | ⟨-, rfl⟩ := (exec_write h).bank hch'
  · obtain rfl : old = ch := Option.some.inj (hold ▸ hch)
    exact hw.atRest hk
  · exact freshChannel_atRest _ k

/-- Settles O40: no bank but INIT's is new (`RegWrite.bank`), and an old one was
run, not designed. -/
theorem onlyDesignsWriteCoefficients : Obligations.OnlyDesignsWriteCoefficients := by
  intro i s t h hinit
  refine ⟨(exec_write h).chans_length hinit, fun hlp hhp hxo n ch ch' hch hch' => ?_⟩
  obtain ⟨old, hold, hw⟩ | ⟨ho, -⟩ := (exec_write h).bank hch'
  · obtain rfl : old = ch := Option.some.inj (hold ▸ hch)
    exact hw.sameCoefs hlp hhp hxo
  · exact absurd ho hinit

/-- Settles O41: every bank left is written from a paired one, or fresh. -/
theorem cascadesStayPaired : Obligations.CascadesStayPaired := by
  intro i s t h hlp hhp hpaired ch' hmem
  obtain ⟨n, hn⟩ := List.getElem?_of_mem hmem
  obtain ⟨ch, hch, hw⟩ | ⟨-, rfl⟩ := (exec_write h).bank hn
  · exact hw.paired hlp hhp (hpaired ch (List.mem_of_getElem? hch))
  · exact freshChannel_paired _

/-! ### The meter and the control registers -/

/-- A command leaves PEAK and PEAK_HIST, or is BLK.END or PK.UPD and stores one value
(R54, R219). -/
theorem RegWrite.peak (h : RegWrite p m o r r') :
    (r'.peak = r.peak ∧ r'.peakHist = r.peakHist) ∨
      ((o = .blkEnd ∨ o = .pkUpd) ∧ r'.peakHist = r.peakHist ++ [r'.peak]) := by
  cases h with
  | storePeak ho => exact .inr ⟨ho, rfl⟩
  | _ => exact .inl ⟨rfl, rfl⟩

/-- An outside event stores nothing to PEAK, or is the assertion of reset (R260). -/
theorem apply_peak (ev : Input) (s : State) :
    ((ev.apply s).regs.peak = s.regs.peak ∧ (ev.apply s).regs.peakHist = s.regs.peakHist) ∨
      (ev.apply s).regs = Regs.reset := by
  cases ev with
  | word w =>
    simp only [Input.apply, arrive]
    split <;> exact .inl ⟨rfl, rfl⟩
  | uiRead => exact .inl ⟨rfl, rfl⟩
  | resetOn => exact .inr rfl
  | resetOff => exact .inl ⟨rfl, rfl⟩

/-- Settles O54, by what a command (`RegWrite.peak`) and an event (`apply_peak`) can store. -/
theorem peakHistoryRecordsEveryStore : Obligations.PeakHistoryRecordsEveryStore := by
  constructor
  · intro s t h
    obtain ⟨-, -, -, o, hw⟩ | rfl | ⟨ev, tl, -, rfl⟩ := step_effect h
    · exact hw.peak.imp id fun ⟨_, hstore⟩ => .inl ⟨_, rfl, hstore⟩
    · exact .inl ⟨rfl, rfl⟩
    · exact (apply_peak ev _).imp id .inr
  · intro i s t h hend hupd
    exact (exec_write h).peak.resolve_right fun ⟨ho, _⟩ => absurd ho (not_or.2 ⟨hend, hupd⟩)

theorem RegWrite.rate_nch (h : RegWrite p m o r r') (ho : o ≠ .init) :
    r'.rate = r.rate ∧ r'.nch = r.nch := by
  cases h with
  | init h _ => exact absurd h ho
  | _ => exact ⟨rfl, rfl⟩

theorem RegWrite.set (h : RegWrite p m o r r') (hinit : o ≠ .init) (hset : o ≠ .bcSet) :
    r'.set = r.set := by
  cases h with
  | init h _ => exact absurd h hinit
  | snapshot h _ _ => exact absurd h hset
  | _ => rfl

theorem RegWrite.xo (h : RegWrite p m o r r') (hinit : o ≠ .init) (hxo : o ≠ .xoUpd) :
    r'.xo = r.xo := by
  cases h with
  | init h _ => exact absurd h hinit
  | splits h _ _ => exact absurd h hxo
  | _ => rfl

theorem RegWrite.ui_eq (h : RegWrite p m o r r') (ho : o ≠ .pkAtt) : r'.ui = r.ui := by
  cases h with
  | ui h => exact absurd h ho
  | _ => rfl

theorem RegWrite.uiSeen (h : RegWrite p m o r r') : r'.uiSeen = r.uiSeen := by
  cases h <;> rfl

/-- No step writes NCH_MAX (log entry 4). -/
theorem step_nchMax {s t : State} (h : step s = .next t) : t.nchMax = s.nchMax := by
  obtain ⟨-, -, hn, -⟩ | rfl | ⟨ev, tl, -, rfl⟩ := step_effect h
  · exact hn
  · rfl
  · exact apply_nchMax ev _

/-- Settles O57, one frame of `RegWrite` per register. -/
theorem controlRegistersHaveOneWriter : Obligations.ControlRegistersHaveOneWriter := by
  refine ⟨fun i s t h => ?_, fun s t h => step_nchMax h⟩
  have hw := exec_write h
  exact ⟨hw.rate_nch, hw.set, hw.xo, hw.ui_eq, hw.uiSeen⟩

/-! ### STATUS and INIT -/

/-- A flag stands at its bit of STATUS and nowhere else. -/
theorem flagBit_getLsbD (f : Bool) {j : Nat} (hj : j < 32) (i : Nat) :
    (flagBit f j).getLsbD i = (i == j && f) := by
  cases f with
  | false => simp [flagBit]
  | true =>
    rw [flagBit, if_pos rfl, BitVec.getLsbD_ofNat, Nat.testBit_two_pow]
    by_cases hi : i = j
    · simp [hi, hj]
    · simp [hi, Ne.symm hi]

/-- STATUS bit by bit (R51). -/
theorem statusWord_getLsbD (r : Regs F) (i : Nat) :
    r.statusWord.getLsbD i =
      (i == 0 && r.inited || i == 1 && r.ui || i == 2 && r.xoValid || i == 8 && r.setValid .low ||
        i == 9 && r.setValid .mid || i == 10 && r.setValid .high) := by
  simp only [Regs.statusWord, BitVec.getLsbD_or, flagBit_getLsbD _ (by decide : 0 < 32),
    flagBit_getLsbD _ (by decide : 1 < 32), flagBit_getLsbD _ (by decide : 2 < 32),
    flagBit_getLsbD _ (by decide : 8 < 32), flagBit_getLsbD _ (by decide : 9 < 32),
    flagBit_getLsbD _ (by decide : 10 < 32)]

/-- Settles O56: address 1 is STATUS, and its word is `statusWord_getLsbD`. -/
theorem statusShowsFlags : Obligations.StatusShowsFlags :=
  fun s hf => ⟨s.regs.statusWord, exec_answered (.regRd 1) rfl hf rfl, statusWord_getLsbD s.regs⟩

/-- INIT within NCH_MAX succeeds (R191). -/
theorem init_eq_ok {nch : BitVec 8} (hn : nch.toNat ≤ m.toNat) (fs : Num F) :
    Regs.init p m nch fs r = .ok
      ({ r with
        nch := nch
        rate := some { fs := fs, decayW := decayWeight p fs }
        chans := List.replicate nch.toNat (freshChannel p)
        xo := none
        set := ⟨none, none, none⟩
        blockPeak := Num.zero }, []) := if_neg (Nat.not_lt.2 hn)

/-- Settles O32: the rule of INIT succeeds within NCH_MAX, with the values R62 writes out. -/
theorem initRebuildsEveryBank : Obligations.InitRebuildsEveryBank :=
  fun nch fs _ hf hn =>
    exec_answered (.init nch fs) (o := .init) rfl hf (init_eq_ok hn (Num.ofWord fs))

end Sys2Proof.Machine
end

section
/-! SUPPORT. Commands that name a channel (20_memory.md R94): such a command is its effect on that
channel's bank, and effects on different banks commute, BLOCK_PEAK's maximum included. -/

namespace Sys2Proof

variable {F : Fmt}

/-- The order of keys tells two magnitudes apart (R15). -/
theorem Num.abs_eq_of_key_eq {x y : Num F} (hx : x.isNan = false) (hy : y.isNan = false)
    (h : x.abs.key = y.abs.key) : x.abs = y.abs := by
  cases x with
  | nan => cases hx
  | inf s =>
    cases y with
    | nan => cases hy
    | inf t => rfl
    | fin t n => exact absurd h (Num.key_fin_bounds false n).2.ne'
  | fin s m =>
    cases y with
    | nan => cases hy
    | inf t => exact absurd h (Num.key_fin_bounds false m).2.ne
    | fin t n => exact congrArg (Num.fin false) (Fin.ext (Int.ofNat.inj h))

end Sys2Proof

namespace Sys2Proof.Machine

variable {F : Fmt}

/-! ### The effect of a command on the bank it names -/

/-- What a command does to the bank of the channel it names: the bank it leaves, its results, and the
output that enters BLOCK_PEAK, if it has one (R194). -/
structure BankEffect (F : Fmt) where
  bank : Channel F
  results : List (ResultWord F)
  output : Option (Num F)

/-- The channel a command of R94 names. -/
def Instr.channel? : Instr → Option (BitVec 8)
  | .bqSetlp c _ _ _ | .bqSethp c _ _ _ | .bqStep c _ _ | .xoSplit c _ | .bcStep c _ _
  | .sample c _ => some c
  | _ => none

/-- The effect of a command on the bank of the channel it names, `none` when its band or a snapshot it
reads is missing. `hasEffect_of_rule` and `HasEffect.rule_ok` tie it to the command's rule. -/
def Instr.bankEffect (p : Params Config.fmt) (set : SettingsFile Config.fmt)
    (ch : Channel Config.fmt) : Instr → Option (BankEffect Config.fmt)
  | .bqSetlp _ k freq fs =>
    some ⟨ch.putBq k (bqSetLowpass p (Num.ofWord freq) (Num.ofWord fs)), [], none⟩
  | .bqSethp _ k freq fs =>
    some ⟨ch.putBq k (bqSetHighpass p (Num.ofWord freq) (Num.ofWord fs)), [], none⟩
  | .bqStep _ k x =>
    let out := bqProcess (ch.bq.get k) (Num.ofWord x)
    some ⟨ch.putBq k out.2, [.num out.1], none⟩
  | .xoSplit _ x =>
    let out := xoSplit ch.bq (Num.ofWord x)
    some ⟨{ ch with bq := out.2 }, [.num out.1.1, .num out.1.2.1, .num out.1.2.2], none⟩
  | .bcStep _ b x => do
    let band ← Band.ofField b
    let v ← set.get band
    let out := bcProcess p (ch.bc.get band) v (Num.ofWord x)
    some ⟨ch.putBc band out.2, [.num out.1], none⟩
  | .sample _ x => do
    let sl ← set.get .low
    let sm ← set.get .mid
    let sh ← set.get .high
    let out := engineSample p sl sm sh ch (Num.ofWord x)
    some ⟨out.2, [.num out.1], some out.1⟩
  | _ => none

/-- The checks of a command that names channel c pass on the registers, and its effect is e. -/
structure HasEffect (p : Params Config.fmt) (i : Instr) (c : BitVec 8) (r : Regs Config.fmt)
    (e : BankEffect Config.fmt) : Prop where
  inited : ∃ v, r.rate = some v
  bound : c.toNat < r.nch.toNat
  bank : ∃ ch, r.chans[c.toNat]? = some ch ∧ Instr.bankEffect p r.set ch i = some e

/-- BLOCK_PEAK after an output, if there is one (R194). -/
def takeOutput (peak : Num F) (y : Option (Num F)) : Num F := y.elim peak (blockPeakNext peak)

/-- The registers with the bank of channel c replaced and an output taken into BLOCK_PEAK. -/
def Regs.putEffect (r : Regs F) (c : BitVec 8) (e : BankEffect F) : Regs F :=
  { r.putChan c e.bank with blockPeak := takeOutput r.blockPeak e.output }

section
variable (r : Regs F) (c : BitVec 8) (e : BankEffect F)

@[simp] theorem putEffect_rate : (r.putEffect c e).rate = r.rate := rfl
@[simp] theorem putEffect_nch : (r.putEffect c e).nch = r.nch := rfl
@[simp] theorem putEffect_set : (r.putEffect c e).set = r.set := rfl
@[simp] theorem putEffect_fault : (r.putEffect c e).fault = r.fault := rfl
@[simp] theorem putEffect_chans : (r.putEffect c e).chans = r.chans.set c.toNat e.bank := rfl
@[simp] theorem putEffect_blockPeak :
    (r.putEffect c e).blockPeak = takeOutput r.blockPeak e.output := rfl
end

section
variable {p : Params Config.fmt} {m : BitVec 8} {i j : Instr} {c d : BitVec 8}
  {r r' : Regs Config.fmt} {rs : List (ResultWord Config.fmt)} {e e' : BankEffect Config.fmt}

/-- A command that names channel c and succeeds does what its effect says. -/
theorem hasEffect_of_rule (hc : Instr.channel? i = some c)
    (h : Instr.rule p m i r = .ok (r', rs)) :
    ∃ e, HasEffect p i c r e ∧ rs = e.results ∧ r' = r.putEffect c e := by
  cases i with
  | bqSetlp _ k freq fs =>
    cases hc
    obtain ⟨v, ch, hv, hn, hch, rfl, rfl⟩ := bqSetlp_ok h
    exact ⟨_, ⟨⟨v, hv⟩, hn, ch, hch, rfl⟩, rfl, rfl⟩
  | bqSethp _ k freq fs =>
    cases hc
    obtain ⟨v, ch, hv, hn, hch, rfl, rfl⟩ := bqSethp_ok h
    exact ⟨_, ⟨⟨v, hv⟩, hn, ch, hch, rfl⟩, rfl, rfl⟩
  | bqStep _ k x =>
    cases hc
    obtain ⟨v, ch, hv, hn, hch, rfl, rfl⟩ := bqStep_ok h
    exact ⟨_, ⟨⟨v, hv⟩, hn, ch, hch, rfl⟩, rfl, rfl⟩
  | xoSplit _ x =>
    cases hc
    obtain ⟨v, ch, hv, hn, hch, rfl, rfl⟩ := xoSplit_ok h
    exact ⟨_, ⟨⟨v, hv⟩, hn, ch, hch, rfl⟩, rfl, rfl⟩
  | bcStep _ b x =>
    cases hc
    obtain ⟨v, ch, band, st, hv, hn, hch, hb, hst, rfl, rfl⟩ := bcStep_ok h
    exact ⟨_, ⟨⟨v, hv⟩, hn, ch, hch,
      Option.bind_eq_some_iff.2 ⟨band, hb, Option.bind_eq_some_iff.2 ⟨st, hst, rfl⟩⟩⟩, rfl, rfl⟩
  | sample _ x =>
    cases hc
    obtain ⟨v, ch, sl, sm, sh, hv, hn, hch, hset, rfl, rfl⟩ := sample_ok h
    exact ⟨_, ⟨⟨v, hv⟩, hn, ch, hch, by rw [hset]; rfl⟩, rfl, rfl⟩
  | _ => cases hc

/-- A command that names channel c succeeds where its checks pass. -/
theorem HasEffect.rule_ok (h : HasEffect p i c r e) (hc : Instr.channel? i = some c) :
    Instr.rule p m i r = .ok (r.putEffect c e, e.results) := by
  obtain ⟨⟨v, hv⟩, hn, ch, hch, he⟩ := h
  have hrate := needRate_ok.2 hv
  have hchan := needChan_ok.2 ⟨hn, hch⟩
  cases i with
  | bqSetlp _ k freq fs =>
    cases hc
    cases he
    simp only [Instr.rule, Regs.bqSetlp, hrate, hchan, except_ok_bind]
    rfl
  | bqSethp _ k freq fs =>
    cases hc
    cases he
    simp only [Instr.rule, Regs.bqSethp, hrate, hchan, except_ok_bind]
    rfl
  | bqStep _ k x =>
    cases hc
    cases he
    simp only [Instr.rule, Regs.bqStep, hrate, hchan, except_ok_bind]
    rfl
  | xoSplit _ x =>
    cases hc
    cases he
    simp only [Instr.rule, Regs.xoSplit, hrate, hchan, except_ok_bind]
    rfl
  | bcStep _ b x =>
    cases hc
    obtain ⟨band, hb, he⟩ := Option.bind_eq_some_iff.1 he
    obtain ⟨st, hst, he⟩ := Option.bind_eq_some_iff.1 he
    cases he
    simp only [Instr.rule, Regs.bcStep, needBand_ok.2 hb, hrate, hchan, needSet_ok.2 hst,
      except_ok_bind]
    rfl
  | sample _ x =>
    cases hc
    obtain ⟨sl, hsl, he⟩ := Option.bind_eq_some_iff.1 he
    obtain ⟨sm, hsm, he⟩ := Option.bind_eq_some_iff.1 he
    obtain ⟨sh, hsh, he⟩ := Option.bind_eq_some_iff.1 he
    cases he
    simp only [Instr.rule, Regs.sample, hrate, hchan, needSet_ok.2 hsl, needSet_ok.2 hsm,
      needSet_ok.2 hsh, except_ok_bind]
    rfl
  | _ => cases hc

/-! ### Effects commute -/

/-- A bank is its eight Biquads. -/
theorem biquadBank_ext {f f' : BiquadBank F} (h : ∀ k, f.get k = f'.get k) : f = f' := by
  obtain ⟨h0, h1, h2, h3, h4, h5, h6, h7⟩ := forall_biquadIndex.1 h
  cases f; cases f'
  simp_all [BiquadBank.get]

/-- Writes of two Biquads of one bank commute (R41). -/
theorem putBq_comm {k l : BitVec 3} (hkl : k ≠ l) (ch : Channel F) (v w : Biquad F) :
    (ch.putBq k v).putBq l w = (ch.putBq l w).putBq k v := by
  have hbank : (ch.bq.put k v).put l w = (ch.bq.put l w).put k v := by
    refine biquadBank_ext fun n => ?_
    simp only [biquad_get_put]
    split <;> split <;> simp_all
  exact congrArg (fun bq => { ch with bq := bq }) hbank

theorem blockPeakNext_of_gt {peak y : Num F} (h : y.abs.gt peak = true) :
    blockPeakNext peak y = y.abs := if_pos h

theorem blockPeakNext_of_not_gt {peak y : Num F} (h : ¬ y.abs.gt peak = true) :
    blockPeakNext peak y = peak := if_neg h

/-- An output that is not above BLOCK_PEAK does not count after another output either. -/
theorem blockPeakNext_absorbs {peak z : Num F} (y : Num F) (hz : ¬ z.abs.gt peak = true) :
    blockPeakNext (blockPeakNext peak y) z = blockPeakNext peak y := by
  by_cases hy : y.abs.gt peak = true
  · rw [blockPeakNext_of_gt hy]
    refine blockPeakNext_of_not_gt fun hzy => hz ?_
    obtain ⟨-, hp, hpy⟩ := (Num.gt_iff _ _).1 hy
    obtain ⟨hzn, -, hyz⟩ := (Num.gt_iff _ _).1 hzy
    exact (Num.gt_iff _ _).2 ⟨hzn, hp, hpy.trans hyz⟩
  · rw [blockPeakNext_of_not_gt hy, blockPeakNext_of_not_gt hz]

/-- The running maximum does not depend on the order of the outputs (R194): NaN is passed over, and
outputs of equal rank have one magnitude. -/
theorem blockPeakNext_comm (peak y z : Num F) :
    blockPeakNext (blockPeakNext peak y) z = blockPeakNext (blockPeakNext peak z) y := by
  by_cases hz : z.abs.gt peak = true
  case neg => rw [blockPeakNext_absorbs y hz, blockPeakNext_of_not_gt hz]
  by_cases hy : y.abs.gt peak = true
  case neg => rw [blockPeakNext_absorbs z hy, blockPeakNext_of_not_gt hy]
  rw [blockPeakNext_of_gt hy, blockPeakNext_of_gt hz]
  obtain ⟨hyn, -, -⟩ := (Num.gt_iff _ _).1 hy
  obtain ⟨hzn, -, -⟩ := (Num.gt_iff _ _).1 hz
  have hgt {a b : Num F} (ha : a.abs.isNan = false) (hb : b.abs.isNan = false) :
      a.abs.gt b.abs = true ↔ b.abs.key < a.abs.key := by simp [Num.gt_iff, ha, hb]
  obtain hlt | heq | hlt := lt_trichotomy y.abs.key z.abs.key
  · rw [blockPeakNext_of_gt ((hgt hzn hyn).2 hlt),
      blockPeakNext_of_not_gt (mt (hgt hyn hzn).1 hlt.not_gt)]
  · rw [blockPeakNext_of_not_gt (mt (hgt hzn hyn).1 heq.not_lt),
      blockPeakNext_of_not_gt (mt (hgt hyn hzn).1 heq.not_gt)]
    exact Num.abs_eq_of_key_eq (y.abs_isNan ▸ hyn) (z.abs_isNan ▸ hzn) heq
  · rw [blockPeakNext_of_not_gt (mt (hgt hzn hyn).1 hlt.not_gt),
      blockPeakNext_of_gt ((hgt hyn hzn).2 hlt)]

theorem takeOutput_comm (peak : Num F) (y z : Option (Num F)) :
    takeOutput (takeOutput peak y) z = takeOutput (takeOutput peak z) y := by
  cases y with
  | none => rfl
  | some y =>
    cases z with
    | none => rfl
    | some z => exact blockPeakNext_comm peak y z

/-- Effects on different channels commute, BLOCK_PEAK included (R94). -/
theorem putEffect_comm (hcd : c ≠ d) (r : Regs F) (e e' : BankEffect F) :
    (r.putEffect c e).putEffect d e' = (r.putEffect d e').putEffect c e := by
  have hne : c.toNat ≠ d.toNat := mt BitVec.eq_of_toNat_eq hcd
  simp only [Regs.putEffect, Regs.putChan]
  rw [takeOutput_comm, List.set_comm _ _ hne]

/-- An effect on another channel changes neither the checks of a command nor its effect. -/
theorem hasEffect_putEffect (hcd : c ≠ d) :
    HasEffect p i c (r.putEffect d e') e ↔ HasEffect p i c r e := by
  have hbank : (r.putEffect d e').chans[c.toNat]? = r.chans[c.toNat]? :=
    List.getElem?_set_ne (mt BitVec.eq_of_toNat_eq hcd.symm)
  constructor
  · rintro ⟨hv, hn, ch, hch, he⟩
    exact ⟨hv, hn, ch, hbank ▸ hch, he⟩
  · rintro ⟨hv, hn, ch, hch, he⟩
    exact ⟨hv, hn, ch, hbank.trans hch, he⟩

/-! ### Commands commute -/

/-- From registers where command i and then command j succeed, j and then i succeed too, with the same
results and the same registers at the end. -/
def RulesSwap (p : Params Config.fmt) (m : BitVec 8) (i j : Instr) (r : Regs Config.fmt) : Prop :=
  ∀ r₁ r₂ ri rj, Instr.rule p m i r = .ok (r₁, ri) → Instr.rule p m j r₁ = .ok (r₂, rj) →
    ∃ r₁', r₁'.fault = r.fault ∧ Instr.rule p m j r = .ok (r₁', rj) ∧
      Instr.rule p m i r₁' = .ok (r₂, ri)

/-- Commands that name different channels swap. -/
theorem rulesSwap_of_ne (hi : Instr.channel? i = some c) (hj : Instr.channel? j = some d)
    (hcd : c ≠ d) : RulesSwap p m i j r := by
  intro r₁ r₂ ri rj h₁ h₂
  obtain ⟨e, he, rfl, rfl⟩ := hasEffect_of_rule hi h₁
  obtain ⟨e', he', rfl, rfl⟩ := hasEffect_of_rule hj h₂
  refine ⟨r.putEffect d e', rfl, ((hasEffect_putEffect hcd.symm).1 he').rule_ok hj, ?_⟩
  rw [putEffect_comm hcd]
  exact ((hasEffect_putEffect hcd).2 he).rule_ok hi

/-- The effect of a command that designs one Biquad: BQ[c][k] is written, whatever stood in the bank. -/
def Instr.Designs (p : Params Config.fmt) (i : Instr) (k : BitVec 3) : Prop :=
  ∃ q, ∀ set ch, Instr.bankEffect p set ch i = some ⟨ch.putBq k q, [], none⟩

/-- BQ.SETLP and BQ.SETHP name their channel and design their Biquad (R135, R136). -/
theorem channel_designs {k : BitVec 3}
    (h : (∃ f fs, i = .bqSetlp c k f fs) ∨ (∃ f fs, i = .bqSethp c k f fs)) :
    Instr.channel? i = some c ∧ Instr.Designs p i k := by
  obtain ⟨_, _, rfl⟩ | ⟨_, _, rfl⟩ := h <;> exact ⟨rfl, _, fun _ _ => rfl⟩

/-- Designs of two Biquads of one channel swap. -/
theorem rulesSwap_designs {k l : BitVec 3} (hi : Instr.channel? i = some c)
    (hj : Instr.channel? j = some c) (hik : Instr.Designs p i k) (hjl : Instr.Designs p j l)
    (hkl : k ≠ l) : RulesSwap p m i j r := by
  intro r₁ r₂ ri rj h₁ h₂
  obtain ⟨q, hq⟩ := hik
  obtain ⟨q', hq'⟩ := hjl
  obtain ⟨e, ⟨hv, hn, ch, hch, he⟩, rfl, rfl⟩ := hasEffect_of_rule hi h₁
  obtain ⟨e', ⟨-, -, ch', hch', he'⟩, rfl, rfl⟩ := hasEffect_of_rule hj h₂
  obtain rfl := Option.some.inj ((hq _ _).symm.trans he)
  obtain rfl := Option.some.inj ((hq' _ _).symm.trans he')
  have hlt : c.toNat < r.chans.length := (List.getElem?_eq_some_iff.1 hch).1
  obtain rfl : ch.putBq k q = ch' := by simpa [hlt] using hch'
  refine ⟨r.putEffect c ⟨ch.putBq l q', [], none⟩, rfl,
    HasEffect.rule_ok ⟨hv, hn, ch, hch, hq' _ _⟩ hj, ?_⟩
  have hi' : HasEffect p i c (r.putEffect c ⟨ch.putBq l q', [], none⟩)
      ⟨(ch.putBq l q').putBq k q, [], none⟩ := ⟨hv, hn, _, by simp [hlt], hq _ _⟩
  rw [hi'.rule_ok hi]
  simp [Regs.putEffect, Regs.putChan, takeOutput, putBq_comm hkl]

/-- No cause of R239 has the code 0, which says that there is no fault (R52). -/
theorem faultCode_ne_zero (f : FaultCode) : f.code ≠ 0#8 := by cases f <;> decide

/-- A command that leaves FAULT at 0 has succeeded. -/
theorem exec_ok_of_fault_eq_zero {s t : State} (h : exec i s = .next t) (hf : t.regs.fault = 0#8) :
    ∃ r rs, s.regs.fault = 0#8 ∧ Instr.rule Config.params s.nchMax i s.regs = .ok (r, rs) ∧
      t = s.complete i.opcode.code r rs := by
  obtain ⟨hne, rfl⟩ | ⟨f, -, -, rfl⟩ | hok := exec_cases h
  · exact absurd hf hne
  · exact absurd hf (faultCode_ne_zero f)
  · exact hok

/-- A command whose rule succeeds, FAULT being 0, completes. -/
theorem exec_eq_complete {s t : State} {rs : List (ResultWord Config.fmt)}
    (h : exec i s = .next t) (hf : s.regs.fault = 0#8)
    (hr : Instr.rule Config.params s.nchMax i s.regs = .ok (r, rs)) :
    t = s.complete i.opcode.code r rs := (exec_inv h).trans (runCommand_ok hf hr)

/-- Commands whose rules swap leave the same registers in both orders, and each gives the same response
when no result draws a free value. -/
theorem exec_swap {s t t' u u' : State} (hswap : RulesSwap Config.params s.nchMax i j s.regs)
    (hi : exec i s = .next t) (hj : exec j t = .next t') (hj' : exec j s = .next u)
    (hi' : exec i u = .next u') (hf : t'.regs.fault = 0#8) :
    u'.regs = t'.regs ∧
    (t'.ports.draws = s.ports.draws →
      ∃ ri rj : List Word, t.ports.resp = s.ports.resp ++ ri ∧ t'.ports.resp = t.ports.resp ++ rj ∧
        u.ports.resp = s.ports.resp ++ rj ∧ u'.ports.resp = u.ports.resp ++ ri) := by
  obtain ⟨r₂, rj, hft, hrj, rfl⟩ := exec_ok_of_fault_eq_zero hj hf
  obtain ⟨r₁, ri, hfs, hri, rfl⟩ := exec_ok_of_fault_eq_zero hi hft
  obtain ⟨r₁', hf', hrj', hri'⟩ := hswap r₁ r₂ ri rj hri hrj
  obtain rfl := exec_eq_complete hj' hfs hrj'
  obtain rfl := exec_eq_complete hi' (hf'.trans hfs) hri'
  refine ⟨by simp, fun hd => ?_⟩
  obtain ⟨hdi, hdj⟩ : resultDraws ri = 0 ∧ resultDraws rj = 0 := by
    simp only [complete_draws] at hd
    omega
  exact ⟨_, _, rfl, rfl, by simp [hdi], by simp [hdj]⟩

end

end Sys2Proof.Machine
end

section
/-! SUPPORT. The statements of 20_memory.md: what a step takes from the ports (R81, R87), and commands
on different channels (R94), from what `hasEffect_of_rule` and `exec_swap` say of a command. -/

namespace Sys2Proof.Machine

/-! ### Taking commands and UI reads -/

/-- Settles O12: while reset is released the command port is decoded (`fetch`), and a legal command is
performed. -/
theorem stepPerformsDecodedCommand : Obligations.StepPerformsDecodedCommand := by
  intro s i rest hrel hdec
  have hfetch : fetch s = .legal i rest := (if_neg (by simp [hrel])).trans hdec
  obtain ⟨i', rest', hf, hstep⟩ | ⟨_, _, _, hf, -⟩ | ⟨hf, -⟩ := step_cases s
  · obtain ⟨rfl, rfl⟩ : i' = i ∧ rest' = rest := by simpa [hfetch, eq_comm] using hf
    exact hstep
  · cases hfetch.symm.trans hf
  · cases hfetch.symm.trans hf

/-- A UI read that stands first among the outside events happens when no command can be taken. -/
theorem step_uiRead {s : State} {tl : List Input} (hf : fetch s = .needMore)
    (hin : s.ports.inputs = .uiRead :: tl) :
    step s = .next (uiPortRead { s with ports := { s.ports with inputs := tl } }) := by
  simp only [step, hf, takeInput, hin, Input.apply]

/-- Settles O16: the index drawn is one of PEAK_HIST (`uiIndex_lt`), so the value read is stored there,
and the word returned encodes it. -/
theorem uiReadReturnsStoredValue : Obligations.UiReadReturnsStoredValue := by
  intro s tl hinv hf hin
  have hj : uiIndex s < s.regs.peakHist.length := uiIndex_lt hinv.seen
  have hv : s.regs.peakHist.getD (uiIndex s) s.regs.peak = s.regs.peakHist[uiIndex s] :=
    (List.getElem_eq_getD _).symm
  exact ⟨uiIndex s, s.regs.peakHist[uiIndex s], _, _, step_uiRead hf hin, Nat.le_add_right _ _, hj,
    List.getElem?_eq_getElem hj, (ofWord_numWord _ _).trans hv, rfl, rfl, rfl, rfl, rfl⟩

/-! ### Commands on different channels -/

/-- Settles O59: a fault leaves every bank, and a success writes the bank it names. -/
theorem otherChannelsUntouched : Obligations.OtherChannelsUntouched := by
  intro i c s t n hi h hn
  have hc : Instr.channel? i = some c := by
    obtain ⟨_, _, _, rfl⟩ | ⟨_, _, _, rfl⟩ | ⟨_, _, rfl⟩ | ⟨_, rfl⟩ | ⟨_, _, rfl⟩ | ⟨_, rfl⟩ := hi <;> rfl
  obtain ⟨-, rfl⟩ | ⟨f, -, -, rfl⟩ | ⟨r, rs, -, hr, rfl⟩ := exec_cases h
  · rfl
  · rfl
  · obtain ⟨e, -, -, rfl⟩ := hasEffect_of_rule hc hr
    exact List.getElem?_set_ne hn.symm

/-- Settles O58: commands that name different channels swap by `rulesSwap_of_ne`, two designs in one
channel by `rulesSwap_designs`. -/
theorem channelCommandsCommute : Obligations.ChannelCommandsCommute := by
  intro i j c d k l s t t' u u' h hi hj hj' hi' hf
  refine exec_swap ?_ hi hj hj' hi' hf
  obtain ⟨hcd, hic, hjd⟩ | ⟨hne, hic, hjd⟩ := h
  · have hci : Instr.channel? i = some c := by
      obtain ⟨_, _, rfl⟩ | ⟨_, rfl⟩ | ⟨_, _, rfl⟩ | ⟨_, rfl⟩ := hic <;> rfl
    have hcj : Instr.channel? j = some d := by
      obtain ⟨_, _, rfl⟩ | ⟨_, rfl⟩ | ⟨_, _, rfl⟩ | ⟨_, rfl⟩ := hjd <;> rfl
    exact rulesSwap_of_ne hci hcj hcd
  · obtain ⟨hci, hik⟩ := channel_designs hic
    obtain ⟨hcj, hjl⟩ := channel_designs hjd
    by_cases hcd : c = d
    · subst hcd
      exact rulesSwap_designs hci hcj hik hjl (hne.resolve_left (not_not_intro rfl))
    · exact rulesSwap_of_ne hci hcj hcd

end Sys2Proof.Machine
end

section
/-! SUPPORT. The decoder and the encoder as inverses (30_encoding.md R102 to R110, R116): what a row
builds from a header, and what a command encodes to, each read back by the other. -/

namespace Sys2Proof

/-! ### The words of a command -/

/-- The header word of a command (R102). -/
def Instr.headerWord (i : Instr) : Word := (encode i).headD 0

/-- The operand words of a command (R101, R103). -/
def Instr.operands (i : Instr) : List Word := (encode i).tail

theorem encode_eq_cons (i : Instr) : encode i = i.headerWord :: i.operands := by cases i <;> rfl

/-- The laws of Laws/PerInstr.lean, for every command. -/
theorem encodeShape (i : Instr) : Laws.EncodeShape.Statement i := by
  cases i with
  | init nch fs => exact Laws.EncodeShape.init nch fs
  | blkBeg => exact Laws.EncodeShape.blkBeg
  | sample c x => exact Laws.EncodeShape.sample c x
  | blkEnd => exact Laws.EncodeShape.blkEnd
  | bqSetlp c k freq fs => exact Laws.EncodeShape.bqSetlp c k freq fs
  | bqSethp c k freq fs => exact Laws.EncodeShape.bqSethp c k freq fs
  | bqStep c k x => exact Laws.EncodeShape.bqStep c k x
  | xoUpd lo hi => exact Laws.EncodeShape.xoUpd lo hi
  | xoSplit c x => exact Laws.EncodeShape.xoSplit c x
  | bcSet b t r a l g => exact Laws.EncodeShape.bcSet b t r a l g
  | bcStep c b x => exact Laws.EncodeShape.bcStep c b x
  | pkAtt f => exact Laws.EncodeShape.pkAtt f
  | pkUpd p => exact Laws.EncodeShape.pkUpd p
  | pkRead => exact Laws.EncodeShape.pkRead
  | regRd addr => exact Laws.EncodeShape.regRd addr

theorem operands_length (i : Instr) : i.operands.length = i.opcode.operandCount := by
  have hlen := (encodeShape i).1
  rw [encode_eq_cons, List.length_cons] at hlen
  omega

theorem opField_headerWord (i : Instr) : opField i.headerWord = i.opcode.code := by
  have hop := (encodeShape i).2
  rw [encode_eq_cons] at hop
  exact Option.some.inj hop

/-! ### Fields put back in their place -/

/-- A field put back where it was taken from is the word with all other bits cleared (R104). -/
theorem extract_shiftLeft (h : Word) (start len : Nat) :
    (h.extractLsb' start len).setWidth 32 <<< start =
      h &&& (BitVec.allOnes len).setWidth 32 <<< start := by
  apply BitVec.eq_of_getLsbD_eq
  intro i hi
  by_cases hs : i < start
  · simp [hs]
  · have hadd : start + (i - start) = i := by omega
    simp [hs, hi, hadd, Bool.and_comm]

theorem chanField_shiftLeft (h : Word) :
    (chanField h).setWidth 32 <<< 16 = h &&& 0x00FF0000#32 := extract_shiftLeft h 16 8

theorem biquadField_shiftLeft (h : Word) :
    (biquadField h).setWidth 32 <<< 8 = h &&& 0x00000700#32 := extract_shiftLeft h 8 3

theorem bandField_shiftLeft (h : Word) :
    (bandField h).setWidth 32 <<< 8 = h &&& 0x00000300#32 := extract_shiftLeft h 8 2

theorem flagField_shiftLeft (h : Word) :
    (flagField h).setWidth 32 <<< 8 = h &&& 0x00000100#32 := extract_shiftLeft h 8 1

theorem addrField_setWidth (h : Word) : (addrField h).setWidth 32 = h &&& 0x00FFFFFF#32 := by
  simpa [addrField] using extract_shiftLeft h 0 24

/-- Two fields of one header beside its fixed bits are one masked part of it. -/
theorem or_and_or_and (x h m n : Word) : x ||| h &&& m ||| h &&& n = x ||| h &&& (m ||| n) := by
  rw [BitVec.or_assoc, ← BitVec.and_or_distrib_left]

/-! ### Encoding what a row builds, and building from what a command encodes to -/

/-- The command a row builds from a header has the row's fixed bits, and the header's bits where the
row's mask leaves them free (R104, R107). -/
theorem headerWord_build (o : Opcode) (h : Word) (w : Nat → Word) :
    (o.build h w).headerWord = o.pattern ||| (h &&& ~~~o.mask) := by
  cases o <;> simp [Opcode.build, Instr.headerWord, encode, Opcode.pattern, Opcode.mask, header,
    addrHeader, chanField_shiftLeft, biquadField_shiftLeft, bandField_shiftLeft, flagField_shiftLeft,
    addrField_setWidth, or_and_or_and]

/-- The command a row builds has the operands it was built from (R103). -/
theorem operands_build (o : Opcode) (h : Word) (w : Nat → Word) :
    (o.build h w).operands = (List.range o.operandCount).map w := by
  cases o <;> rfl

/-- A row builds a legal command unless its band field is 3 (R108, R109 (c)). -/
theorem build_wellFormed (o : Opcode) (h : Word) (w : Nat → Word) :
    (o.build h w).WellFormed = true ↔ ¬ (o.hasBand = true ∧ bandField h = 3#2) := by
  cases o <;> simp [Opcode.build, Instr.WellFormed, Opcode.hasBand]

/-- A command is what its row builds from its own words, whatever words follow. -/
theorem build_encode (i : Instr) (rest : List Word) :
    i.opcode.build i.headerWord (fun j => (i.operands ++ rest).getD j 0) = i := by
  cases i <;> simp [Opcode.build, Instr.opcode, Instr.headerWord, Instr.operands, encode]

theorem pattern_and_mask (o : Opcode) : o.pattern &&& o.mask = o.pattern := by cases o <;> rfl

/-- The header of a command has the fixed bits of its row (R107). -/
theorem headerWord_and_mask (i : Instr) : i.headerWord &&& i.opcode.mask = i.opcode.pattern := by
  have hw : i.headerWord = i.opcode.pattern ||| (i.headerWord &&& ~~~i.opcode.mask) := by
    conv_lhs => rw [← build_encode i []]
    exact headerWord_build _ _ _
  calc i.headerWord &&& i.opcode.mask
      = (i.opcode.pattern ||| (i.headerWord &&& ~~~i.opcode.mask)) &&& i.opcode.mask := by rw [← hw]
    _ = (i.opcode.pattern &&& i.opcode.mask) |||
          (i.headerWord &&& (~~~i.opcode.mask &&& i.opcode.mask)) := by
        rw [BitVec.and_or_distrib_right, BitVec.and_assoc]
    _ = i.opcode.pattern := by simp [pattern_and_mask]

/-- The header of a well-formed command passes the checks of its row (R109). -/
theorem headerFault_headerWord {i : Instr} (h : i.WellFormed = true) :
    headerFault i.opcode i.headerWord = none := by
  rw [← build_encode i [], build_wellFormed] at h
  exact headerFault_none.2 ⟨headerWord_and_mask i, h⟩

/-- A row rebuilds every header with the row's fixed bits: no bit of it is dropped (R107). -/
theorem headerWord_build_of_mask {o : Opcode} {h : Word} (w : Nat → Word)
    (hm : h &&& o.mask = o.pattern) : (o.build h w).headerWord = h :=
  calc (o.build h w).headerWord
      = o.pattern ||| (h &&& ~~~o.mask) := headerWord_build o h w
    _ = h &&& (o.mask ||| ~~~o.mask) := by rw [← hm, BitVec.and_or_distrib_left]
    _ = h := by rw [BitVec.or_not_self, BitVec.and_allOnes]

/-- The words a command takes from a list are its first ones (R103). -/
theorem map_getD_range {l : List Word} {n : Nat} (h : n ≤ l.length) :
    (List.range n).map (fun j => l.getD j 0) = l.take n := by
  apply List.ext_getElem
  · simp [h]
  · intro j hj _
    have : j < n := by simpa using hj
    simp [show j < l.length by omega]

/-- Words on which the decoder answers a legal command (R103, R110). -/
theorem decode_eq_legal {h : Word} {tl rest : List Word} {i : Instr}
    (hd : decode (h :: tl) = .legal i rest) :
    ∃ o, o.operandCount ≤ tl.length ∧ headerFault o h = none ∧
      i = o.build h (fun j => tl.getD j 0) ∧ rest = tl.drop o.operandCount := by
  obtain ⟨-, hc⟩ | ⟨o, -, ⟨-, hc⟩ | ⟨-, _, -, hc⟩ | ⟨hl, hf, hc⟩⟩ := decode_cases h tl <;>
    rw [hc] at hd <;> cases hd
  exact ⟨o, hl, hf, rfl, rfl⟩

/-- Words on which the decoder answers an illegal command (R109). -/
theorem decode_eq_illegal {h : Word} {tl rest : List Word} {why : IllegalCause} {op : BitVec 8}
    (hd : decode (h :: tl) = .illegal why op rest) :
    op = opField h ∧ ((Opcode.ofCode op = none ∧ rest = tl) ∨
      ∃ o, Opcode.ofCode op = some o ∧ o.operandCount ≤ tl.length ∧
        rest = tl.drop o.operandCount) := by
  obtain ⟨hop, hc⟩ | ⟨o, hop, ⟨-, hc⟩ | ⟨hl, _, -, hc⟩ | ⟨-, -, hc⟩⟩ := decode_cases h tl <;>
    rw [hc] at hd <;> cases hd
  · exact ⟨rfl, .inl ⟨hop, rfl⟩⟩
  · exact ⟨rfl, .inr ⟨o, hop, hl, rfl⟩⟩

/-- Words on which the decoder waits (R110). -/
theorem decode_eq_needMore {h : Word} {tl : List Word} :
    decode (h :: tl) = .needMore ↔
      ∃ o, Opcode.ofCode (opField h) = some o ∧ tl.length < o.operandCount := by
  constructor
  · intro hd
    obtain ⟨-, hc⟩ | ⟨o, hop, ⟨hl, -⟩ | ⟨-, _, -, hc⟩ | ⟨-, -, hc⟩⟩ := decode_cases h tl
    · cases hc.symm.trans hd
    · exact ⟨o, hop, hl⟩
    · cases hc.symm.trans hd
    · cases hc.symm.trans hd
  · rintro ⟨o, hop, hl⟩
    simp [decode, hop, hl]

end Sys2Proof
end

section
/-! SUPPORT. The statements about the encoding of 30_encoding.md: the round trips and lengths (R103,
R107, R109, R110, R116). -/

namespace Sys2Proof

/-- Settles O1: the decoder builds from the words of a command what `build_encode` says, the command. -/
theorem decodeReadsBackEncode : Obligations.DecodeReadsBackEncode := by
  intro i rest hwf
  have hop : Opcode.ofCode (opField i.headerWord) = some i.opcode := by simp [opField_headerWord]
  have hlen : i.opcode.operandCount ≤ (i.operands ++ rest).length := by simp [operands_length]
  rw [encode_eq_cons, List.cons_append, decode_legal hop hlen (headerFault_headerWord hwf),
    build_encode, ← operands_length, List.drop_left]

/-- Settles O2: the row that built the command rebuilds the header (`headerWord_build_of_mask`). -/
theorem encodeReadsBackDecode : Obligations.EncodeReadsBackDecode := by
  intro ws rest i hd
  cases ws with
  | nil => cases hd
  | cons h tl =>
    obtain ⟨o, hl, hf, rfl, rfl⟩ := decode_eq_legal hd
    obtain ⟨hm, hb⟩ := headerFault_none.1 hf
    refine ⟨(build_wellFormed o h _).2 hb, ?_⟩
    rw [encode_eq_cons, headerWord_build_of_mask _ hm, operands_build, map_getD_range hl,
      List.cons_append, List.take_append_drop]

/-- Settles O3, one clause per answer of the decoder. -/
theorem decodeTakesLengthOfOpcode : Obligations.DecodeTakesLengthOfOpcode := by
  intro h tl rest i why op
  refine ⟨fun hd => ?_, fun hd => ?_, decode_eq_needMore⟩
  · obtain ⟨o, hl, -, rfl, rfl⟩ := decode_eq_legal hd
    simp [hl]
  · obtain ⟨rfl, hnone | ⟨o, hop, hl, rfl⟩⟩ := decode_eq_illegal hd
    · exact ⟨rfl, .inl hnone⟩
    · exact ⟨rfl, .inr ⟨o, hop, by simp [hl]⟩⟩

/-- Settles O4: the words are those of the commands (R116), which O1 reads back. -/
theorem writtenOutWordsDecode : Obligations.WrittenOutWordsDecode :=
  ⟨decodeReadsBackEncode (.bqSetlp 0 3 0x463B8000 0x473B8000) [] rfl,
    decodeReadsBackEncode (.bcStep 1 2 0xBE800000) [] rfl,
    decodeReadsBackEncode (.pkAtt 1) [] rfl,
    decodeReadsBackEncode (.regRd 8) [] rfl,
    decodeReadsBackEncode (.init 2 0x473B8000) [] rfl,
    decodeReadsBackEncode (.xoSplit 0 0x3F800000) [] rfl⟩

end Sys2Proof
end

section
/-! SUPPORT. What a command sends and what a sequence of commands keeps, and the statements of
30_encoding.md that follow: illegal commands (R109), responses (R105) and PROCESS_BLOCK (R118). -/

namespace Sys2Proof.Machine

/-! ### Illegal commands -/

/-- Taking a fault as R240 writes it out. -/
theorem raise_eq_faulted (s : State) (op : BitVec 8) (f : FaultCode) :
    s.raise op f = Safety.faulted s (respHeader op f.code) f.code := rfl

/-- Settles O13: with FAULT 0 an illegal command raises F_ILLEGAL (`runCommand_error`). -/
theorem stepFaultsIllegalCommand : Obligations.StepFaultsIllegalCommand := by
  intro s why op rest hrel hdec hf
  have hfetch : fetch s = .illegal why op rest := (if_neg (by simp [hrel])).trans hdec
  have hrun : illegalCommand op (s.withCmd rest) = (s.withCmd rest).raise op .illegal :=
    runCommand_error hf rfl
  obtain ⟨_, _, hf', -⟩ | ⟨_, op', rest', hf', hstep⟩ | ⟨hf', -⟩ := step_cases s
  · cases hfetch.symm.trans hf'
  · cases hfetch.symm.trans hf'
    rw [hstep, hrun, raise_eq_faulted]
    rfl
  · cases hfetch.symm.trans hf'

/-- Settles O23: the band is the first check of both rules. -/
theorem bandThreeFaultsIllegal : Obligations.BandThreeFaultsIllegal :=
  fun _ hf => ⟨fun thr ratio att rel makeup =>
      exec_faulted (.bcSet 3 thr ratio att rel makeup) (o := .bcSet) (f := .illegal) rfl hf rfl,
    fun c x => exec_faulted (.bcStep c 3 x) (o := .bcStep) (f := .illegal) rfl hf rfl⟩

/-! ### Responses -/

/-- One word per result (R105). -/
theorem resultWords_length (draws : Nat) (rs : List (ResultWord Config.fmt)) :
    (resultWords draws rs).length = rs.length := by
  induction rs generalizing draws with
  | nil => rfl
  | cons r rs ih => simp [resultWords, ih]

/-- A command whose rule succeeds leaves FAULT and has the number of results of its row (R105). -/
theorem rule_response {p : Params Config.fmt} {nchMax : BitVec 8} {i : Instr} {r r' : Regs Config.fmt}
    {rs : List (ResultWord Config.fmt)} (h : Instr.rule p nchMax i r = .ok (r', rs)) :
    r'.fault = r.fault ∧ rs.length = i.opcode.resultCount := by
  cases i with
  | init nch fs => obtain ⟨-, rfl, rfl⟩ := init_ok h; exact ⟨rfl, rfl⟩
  | blkBeg => obtain ⟨-, rfl, rfl⟩ := blkBeg_ok h; exact ⟨rfl, rfl⟩
  | sample c x => obtain ⟨_, _, _, _, _, -, -, -, -, rfl, rfl⟩ := sample_ok h; exact ⟨rfl, rfl⟩
  | blkEnd =>
    obtain ⟨e, -, rfl, rfl⟩ := blkEnd_ok h
    refine ⟨?_, rfl⟩
    split <;> rfl
  | bqSetlp c k freq fs => obtain ⟨_, _, -, -, -, rfl, rfl⟩ := bqSetlp_ok h; exact ⟨rfl, rfl⟩
  | bqSethp c k freq fs => obtain ⟨_, _, -, -, -, rfl, rfl⟩ := bqSethp_ok h; exact ⟨rfl, rfl⟩
  | bqStep c k x => obtain ⟨_, _, -, -, -, rfl, rfl⟩ := bqStep_ok h; exact ⟨rfl, rfl⟩
  | xoUpd lo hi =>
    obtain ⟨e, -, ⟨-, rfl, rfl⟩ | ⟨_, _, -, -, rfl, rfl⟩⟩ := xoUpd_ok h
    · exact ⟨rfl, rfl⟩
    · exact ⟨rfl, rfl⟩
  | xoSplit c x => obtain ⟨_, _, -, -, -, rfl, rfl⟩ := xoSplit_ok h; exact ⟨rfl, rfl⟩
  | bcSet b t a l m g => obtain ⟨_, _, -, -, rfl, rfl⟩ := bcSet_ok h; exact ⟨rfl, rfl⟩
  | bcStep c b x => obtain ⟨_, _, _, _, -, -, -, -, -, rfl, rfl⟩ := bcStep_ok h; exact ⟨rfl, rfl⟩
  | pkAtt f => obtain ⟨rfl, rfl⟩ := pkAtt_ok h; exact ⟨rfl, rfl⟩
  | pkUpd v => obtain ⟨_, -, rfl, rfl⟩ := pkUpd_ok h; exact ⟨rfl, rfl⟩
  | pkRead => obtain ⟨rfl, rfl⟩ := pkRead_ok h; exact ⟨rfl, rfl⟩
  | regRd addr => obtain ⟨_, _, -, -, rfl, rfl⟩ := regRd_ok h; exact ⟨rfl, rfl⟩

/-- Settles O31, one case per way a command ends: refused and faulting commands leave FAULT nonzero
and send no result. -/
theorem oneResponsePerCommand : Obligations.OneResponsePerCommand := by
  intro i s t h
  obtain ⟨hf, rfl⟩ | ⟨f, -, -, rfl⟩ | ⟨r, rs, hf, hr, rfl⟩ := exec_cases h
  · exact ⟨[], rfl, by simp [hf]⟩
  · exact ⟨[], rfl, by simp [faultCode_ne_zero]⟩
  · obtain ⟨hfault, hlen⟩ := rule_response hr
    have hzero : r.fault = 0#8 := hfault.trans hf
    refine ⟨resultWords s.ports.draws rs, by simp [hzero], ?_⟩
    simp [hzero, resultWords_length, hlen]

/-! ### PROCESS_BLOCK -/

open Safety Asm

theorem perform_append (l l' : List Instr) (s : State) :
    perform (l ++ l') s = perform l' (perform l s) := by
  induction l generalizing s with
  | nil => rfl
  | cons i l ih => simp [perform, exec_eq, ih]

/-- A property of states that each command of a sequence keeps holds after it. -/
theorem perform_induction {P : State → Prop} {l : List Instr} {s : State}
    (hl : ∀ i ∈ l, ∀ s, P s → P (perform [i] s)) (hs : P s) : P (perform l s) := by
  induction l generalizing s with
  | nil => exact hs
  | cons i l ih =>
    obtain ⟨hi, htl⟩ := List.forall_mem_cons.1 hl
    rw [← List.singleton_append, perform_append]
    exact ih htl (hi s hs)

/-- The registers while PROCESS_BLOCK runs (R198): no fault, INITED with rate `e`, `n` channels with
their banks, and the snapshots of `bands` resolved. -/
structure BlockReady (e : RateRegs Config.fmt) (n : BitVec 8) (bands : List Band) (s : State) :
    Prop where
  inv : s.regs.Inv
  fault : s.regs.fault = 0#8
  rate : s.regs.rate = some e
  nch : s.regs.nch = n
  set : ∀ b ∈ bands, ∃ v, s.regs.set.get b = some v

section
variable {e : RateRegs Config.fmt} {n : BitVec 8} {bands : List Band} {s : State} {i : Instr}
  {r : Regs Config.fmt} {rs : List (ResultWord Config.fmt)}

theorem perform_singleton (hf : s.regs.fault = 0#8)
    (hr : Instr.rule Config.params s.nchMax i s.regs = .ok (r, rs)) :
    perform [i] s = s.complete i.opcode.code r rs := by
  simp [perform, exec_eq, runCommand_ok hf hr]

/-- A successful command other than INIT keeps `BlockReady` if it keeps the snapshots. -/
theorem BlockReady.perform_ok (h : BlockReady e n bands s) (hi : i.opcode ≠ .init)
    {bands' : List Band} (hr : Instr.rule Config.params s.nchMax i s.regs = .ok (r, rs))
    (hset : ∀ b ∈ bands', ∃ v, r.set.get b = some v) : BlockReady e n bands' (perform [i] s) := by
  rw [perform_singleton h.fault hr]
  have hw := rule_write hr
  obtain ⟨hrate, hnch⟩ := hw.rate_nch hi
  exact
    { inv := hw.inv h.inv
      fault := (rule_response hr).1.trans h.fault
      rate := hrate.trans h.rate
      nch := hnch.trans h.nch
      set := hset }

/-- A successful command other than INIT and BC.SET keeps `BlockReady`. -/
theorem BlockReady.perform_keeps (h : BlockReady e n bands s) (hinit : i.opcode ≠ .init)
    (hset : i.opcode ≠ .bcSet) (hr : Instr.rule Config.params s.nchMax i s.regs = .ok (r, rs)) :
    BlockReady e n bands (perform [i] s) :=
  h.perform_ok hinit hr ((rule_write hr).set hinit hset ▸ h.set)

/-- BC.SET of a band succeeds once INITED = 1 (R178). -/
theorem bcSet_eq_ok {F : Fmt} {p : Params F} {r : Regs F} {e : RateRegs F} {b : BitVec 2} {v : Band}
    (hb : Band.ofField b = some v) (he : r.rate = some e) (thr ratio att rel makeup : Num F) :
    Regs.bcSet p b thr ratio att rel makeup r = .ok
      ({ r with set := r.set.put v (settingsResolve p.tf e.fs thr ratio att rel makeup) }, []) := by
  simp only [Regs.bcSet, needBand_ok.2 hb, needRate_ok.2 he, except_ok_bind, except_pure]

/-- BC.SET of a band resolves its snapshot (R178). -/
theorem BlockReady.bcSet (h : BlockReady e n bands s) {b : BitVec 2} {v : Band}
    (hb : Band.ofField b = some v) (p : BandParams) :
    BlockReady e n (v :: bands) (perform [p.command b] s) := by
  refine h.perform_ok (i := p.command b) nofun (bcSet_eq_ok hb h.rate _ _ _ _ _) fun b hb' => ?_
  rw [settings_get_put]
  split
  case isTrue => exact ⟨_, rfl⟩
  case isFalse hne => exact h.set b ((List.mem_cons.1 hb').resolve_left hne)

/-- XO.UPD with clamp bounds in order does not fault (R153, R246). -/
theorem BlockReady.xoUpd (h : BlockReady e n bands s) {lo hi : Word} {lh : Value × Value}
    (hc : xoClamp (Num.ofWord lo) (Num.ofWord hi) e.fs = .ok lh) :
    BlockReady e n bands (perform [.xoUpd lo hi] s) := by
  have hrate := needRate_ok.2 h.rate
  cases hm : xoMustRecompute s.regs.xo (Num.ofWord lo) (Num.ofWord hi) with
  | true =>
    exact h.perform_keeps (i := .xoUpd lo hi) nofun nofun
      (by simp only [Instr.rule, Regs.xoUpd, hrate, hm, hc, except_ok_bind, if_true]; rfl)
  | false =>
    exact h.perform_keeps (i := .xoUpd lo hi) nofun nofun
      (by simp only [Instr.rule, Regs.xoUpd, hrate, hm, except_ok_bind]; rfl)

theorem BlockReady.blkBeg (h : BlockReady e n bands s) :
    BlockReady e n bands (perform [.blkBeg] s) :=
  h.perform_keeps (i := .blkBeg) nofun nofun
    (by simp only [Instr.rule, Regs.blkBeg, needRate_ok.2 h.rate, except_ok_bind]; rfl)

theorem BlockReady.blkEnd (h : BlockReady e n bands s) :
    BlockReady e n bands (perform [.blkEnd] s) := by
  have hrate := needRate_ok.2 h.rate
  cases hui : s.regs.ui with
  | true =>
    exact h.perform_keeps (i := .blkEnd) nofun nofun
      (by simp only [Instr.rule, Regs.blkEnd, hrate, hui, except_ok_bind, if_true]; rfl)
  | false =>
    exact h.perform_keeps (i := .blkEnd) nofun nofun
      (by simp only [Instr.rule, Regs.blkEnd, hrate, hui, except_ok_bind]; rfl)

/-- SAMPLE of a channel there is does not fault once the three snapshots are resolved (R195). -/
theorem BlockReady.sample (h : BlockReady e n [.high, .mid, .low] s) {c : BitVec 8}
    (hc : c.toNat < n.toNat) (x : Word) :
    BlockReady e n [.high, .mid, .low] (perform [.sample c x] s) := by
  have hbound : c.toNat < s.regs.nch.toNat := h.nch ▸ hc
  have hbank : c.toNat < s.regs.chans.length := h.inv.banks ▸ hbound
  have hchan := needChan_ok.2 ⟨hbound, List.getElem?_eq_getElem hbank⟩
  obtain ⟨sl, hl⟩ := h.set .low (by simp)
  obtain ⟨sm, hm⟩ := h.set .mid (by simp)
  obtain ⟨sh, hh⟩ := h.set .high (by simp)
  exact h.perform_keeps (i := .sample c x) nofun nofun
    (by
      simp only [Instr.rule, Regs.sample, needRate_ok.2 h.rate, hchan, needSet_ok.2 hl,
        needSet_ok.2 hm, needSet_ok.2 hh, except_ok_bind]
      rfl)

/-- The commands of a frame no longer than NCH are SAMPLEs of channels there are (R118). -/
theorem mem_frame {xs : List Word} (hxs : xs.length ≤ n.toNat) (hi : i ∈ frame xs) :
    ∃ c x, i = .sample c x ∧ c.toNat < n.toNat := by
  obtain ⟨⟨x, j⟩, hmem, rfl⟩ := List.mem_map.1 hi
  have hj : j < xs.length := (List.mem_zipIdx' hmem).1
  refine ⟨_, _, rfl, ?_⟩
  rw [BitVec.toNat_ofNat]
  exact (Nat.mod_le _ _).trans_lt (hj.trans_le hxs)

theorem BlockReady.frames (h : BlockReady e n [.high, .mid, .low] s) {frames : List (List Word)}
    (hf : ∀ xs ∈ frames, xs.length ≤ n.toNat) :
    BlockReady e n [.high, .mid, .low] (perform (frames.flatMap frame) s) := by
  refine perform_induction (fun i hi s hs => ?_) h
  obtain ⟨xs, hxs, hi⟩ := List.mem_flatMap.1 hi
  obtain ⟨c, x, rfl, hc⟩ := mem_frame (hf xs hxs) hi
  exact hs.sample hc x

end

/-- Settles O60: `BlockReady` holds after every command of the sequence (R118). -/
theorem processBlockNeverFaults : Obligations.ProcessBlockNeverFaults := by
  intro s e p0 p1 p2 lo hi frames lh hinv hfault hrate hclamp hframes
  have hstart : BlockReady e s.regs.nch [] s := ⟨hinv, hfault, hrate, rfl, nofun⟩
  have hset := ((hstart.bcSet (b := 0) rfl p0).bcSet (b := 1) rfl p1).bcSet (b := 2) rfl p2
  have hend := ((hset.xoUpd hclamp).blkBeg.frames hframes).blkEnd
  simp only [← perform_append] at hend
  exact hend.fault

end Sys2Proof.Machine
end

section
/-! SUPPORT. The statements of 40_biquad.md: the identity Biquad (R132, R139 (b)), from exact rounding
and the identities of + and · that follow, and the three Biquad commands (R135 to R137), from what a
command that names a channel does to its bank (`HasEffect.rule_ok`). -/

namespace Sys2Proof

variable {F : Fmt}

/-! ### Exact results are not rounded -/

/-- A quotient that is exactly the value of a finite code rounds to that code (R13). -/
theorem Num.round_of_exact (neg : Bool) {n d : Nat} (hd : 0 < d) {m : Fin F.magCount}
    (h : n = d * Num.magUnits F m) : (Num.round neg n d : Num F) = .fin neg m := by
  have hnear := (Num.roundCode_nearest F (n := n) hd m).1
  have hself : (n : Int) - d * Num.magUnits F m = 0 := by rw [h]; push_cast; ring
  rw [hself, abs_zero, abs_nonpos_iff, sub_eq_zero] at hnear
  have hvalue : d * Num.magUnits F (Num.roundCode F n d) = d * Num.magUnits F m := by
    rw [← h]; exact_mod_cast hnear.symm
  exact Num.round_eq_fin_iff.2
    ⟨rfl, (Num.magUnits_strictMono F).injective (Nat.eq_of_mul_eq_mul_left hd hvalue)⟩

theorem Fmt.one_le_bias (F : Fmt) : 1 ≤ F.bias := by
  have h : 2 ^ 1 ≤ 2 ^ (F.expBits - 1) :=
    Nat.pow_le_pow_right (by decide) (Nat.le_sub_one_of_lt F.two_le_expBits)
  rw [Fmt.bias]
  omega

/-- The code whose exponent field is the bias and whose fraction field is 0 is a finite one. -/
theorem Fmt.bias_mul_lt_magCount (F : Fmt) : F.bias * 2 ^ F.fracBits < F.magCount := by
  rw [F.magCount_eq]
  refine Nat.mul_lt_mul_of_pos_right ?_ (Nat.two_pow_pos _)
  have hlt : 2 ^ (F.expBits - 1) < 2 ^ F.expBits :=
    Nat.pow_lt_pow_right (by decide) (Nat.sub_one_lt_of_lt F.two_le_expBits)
  have hpos := Nat.two_pow_pos (F.expBits - 1)
  rw [Fmt.bias]
  omega

/-- That code stands for 1, which is `2 ^ unitExp` units (R11). -/
theorem Num.magUnits_bias (F : Fmt) :
    Num.magUnits F (F.bias * 2 ^ F.fracBits) = 2 ^ F.unitExp := by
  have hb := F.one_le_bias
  calc Num.magUnits F (F.bias * 2 ^ F.fracBits)
      = Num.magUnits F ((F.bias - 1) * 2 ^ F.fracBits + 2 ^ F.fracBits) := by
        rw [← Nat.add_one_mul, Nat.sub_add_cancel hb]
    _ = 2 ^ F.fracBits * 2 ^ (F.bias - 1) := Num.magUnits_spaced (.inr le_rfl) (by omega)
    _ = 2 ^ F.unitExp := by rw [← pow_add, Fmt.unitExp]; congr 1; omega

/-- The constant 1 is exact at every format (R17). -/
theorem Num.one_eq (F : Fmt) :
    (Num.one : Num F) = .fin false ⟨F.bias * 2 ^ F.fracBits, F.bias_mul_lt_magCount⟩ :=
  Num.round_of_exact false Nat.one_pos (by simp only [Num.magUnits_bias])

/-! ### 1 · x, x + 0 and 0 · x -/

@[simp] theorem Num.signedUnits_zero (s : Bool) : Num.signedUnits F s 0 = 0 := by
  cases s <;> simp [Num.signedUnits]

theorem Num.one_mul (x : Num F) : Num.one.mul x = x := by
  rw [Num.one_eq]
  cases x with
  | nan => rfl
  | inf s =>
    have hne : F.bias * 2 ^ F.fracBits ≠ 0 :=
      Nat.mul_ne_zero (Nat.ne_of_gt F.one_le_bias) (Nat.two_pow_pos _).ne'
    exact (if_neg hne).trans (by rw [Bool.false_xor])
  | fin s m =>
    rw [Num.mul_fin_fin, Bool.false_xor]
    exact Num.round_of_exact s (Nat.two_pow_pos _) (by simp only [Num.magUnits_bias])

/-- The exact sum of a finite value other than 0 and nothing else rounds to that value (R13). -/
theorem Num.ofSum_signedUnits (b s : Bool) {m : Fin F.magCount} (hm : m.val ≠ 0) :
    (Num.ofSum b (Num.signedUnits F s m) : Num F) = .fin s m := by
  have hpos := Num.magUnits_pos (F := F) hm
  have hne : Num.signedUnits F s m ≠ 0 := by cases s <;> simp [Num.signedUnits, hm]
  have hsign : decide (Num.signedUnits F s m < 0) = s := by
    cases s <;> simp [Num.signedUnits, hpos]
  have habs : (Num.signedUnits F s m).natAbs = Num.magUnits F m := by
    cases s <;> simp [Num.signedUnits]
  rw [Num.ofSum, if_neg hne, hsign]
  exact Num.round_of_exact s Nat.one_pos (by rw [habs, Nat.one_mul])

/-- Adding +0 changes no value but −0. -/
theorem Num.add_zero_of_ne {x : Num F} (hx : x ≠ .fin true 0) : x.add Num.zero = x := by
  cases x with
  | nan => rfl
  | inf s => rfl
  | fin s m =>
    by_cases hm : m = 0
    · subst hm
      cases s with
      | false => exact Num.add_eq_zero_of_sum (by simp)
      | true => exact absurd rfl hx
    · rw [Num.zero, Num.signedZero, Num.add_fin_fin, Fin.val_zero, Num.signedUnits_zero, Int.add_zero]
      exact Num.ofSum_signedUnits _ s fun h => hm (Fin.ext h)

/-- −0 + +0 is +0 (R13). -/
theorem Num.neg_zero_add_zero : (Num.fin true 0 : Num F).add Num.zero = Num.zero :=
  Num.add_eq_zero_of_sum (by simp)

/-- +0 times a finite value is the zero of that value's sign (R13). -/
theorem Num.zero_mul_fin (s : Bool) (m : Fin F.magCount) :
    Num.zero.mul (.fin s m) = .fin s 0 := by
  rw [Num.zero, Num.signedZero, Num.mul_eq_zero_of_zero (.inl rfl), Bool.false_xor]

theorem Num.zero_mul_of_not_finite {x : Num F} (hx : x.isFinite = false) :
    Num.zero.mul x = .nan := by
  cases x with
  | nan => rfl
  | inf s => rfl
  | fin s m => cases hx

/-- A zero less itself is +0 (R13). -/
theorem Num.zero_sub_self (s : Bool) : (Num.fin s 0 : Num F).sub (.fin s 0) = Num.zero := by
  rw [Num.sub_eq_zero_of_eq rfl, Bool.and_not_self]
  rfl

end Sys2Proof

namespace Sys2Proof.Machine

/-! ### The identity Biquad -/

/-- The recurrence of R138 at the coefficients and the state of bq_new, where only x + 0 and the
products by +0 remain. -/
theorem bqProcess_bqNew {F : Fmt} (x : Num F) :
    bqProcess bqNew x =
      (x.add Num.zero,
        { bqNew with
          z1 := ((Num.zero.mul x).sub (Num.zero.mul (x.add Num.zero))).add Num.zero
          z2 := (Num.zero.mul x).sub (Num.zero.mul (x.add Num.zero)) }) := by
  simp only [bqProcess, bqNew, Num.one_mul]

/-- A finite value other than −0 leaves the zeros of its own sign to cancel. -/
theorem bqProcess_bqNew_fin {F : Fmt} {s : Bool} {m : Fin F.magCount} (h : s = false ∨ m.val ≠ 0) :
    bqProcess bqNew (.fin s m) = (.fin s m, bqNew) := by
  have hy : (Num.fin s m).add Num.zero = .fin s m := Num.add_zero_of_ne (by rintro ⟨⟩; simp at h)
  have hz : (Num.zero : Num F).add Num.zero = Num.zero := Num.add_zero_of_ne nofun
  rw [bqProcess_bqNew, hy, Num.zero_mul_fin, Num.zero_sub_self, hz]
  rfl

/-- −0 gives y = +0, so that 0 · x and 0 · y are zeros of opposite signs. -/
theorem bqProcess_bqNew_neg_zero {F : Fmt} :
    bqProcess bqNew (.fin true 0 : Num F) = (.fin false 0, { bqNew with z2 := .fin true 0 }) := by
  have hz : (Num.zero.mul (.fin true 0) : Num F).sub (Num.zero.mul Num.zero) = .fin true 0 := by
    have h00 : (Num.zero : Num F).mul Num.zero = .fin false 0 := Num.zero_mul_fin false 0
    rw [Num.zero_mul_fin, h00]
    exact Num.sub_eq_zero_of_eq (by simp)
  rw [bqProcess_bqNew, Num.neg_zero_add_zero, hz, Num.neg_zero_add_zero]
  rfl

theorem bqProcess_bqNew_of_not_finite {F : Fmt} {x : Num F} (hx : x.isFinite = false) :
    bqProcess bqNew x = (x, { bqNew with z1 := .nan, z2 := .nan }) := by
  have hy : x.add Num.zero = x := Num.add_zero_of_ne (by rintro rfl; cases hx)
  rw [bqProcess_bqNew, hy, Num.zero_mul_of_not_finite hx]
  rfl

/-- Settles O11, one lemma per kind of input. -/
theorem identityBiquadPassesInput : Obligations.IdentityBiquadPassesInput :=
  fun _ => ⟨fun _ _ => bqProcess_bqNew_fin, bqProcess_bqNew_neg_zero,
    fun _ => bqProcess_bqNew_of_not_finite⟩

/-! ### The Biquad commands -/

/-- Settles O36: the effect of BQ.SETLP is `bqSetLowpass`, which writes R131 and R133 out. -/
theorem bqSetlpDesignsLowpass : Obligations.BqSetlpDesignsLowpass := by
  intro s e c k freq fs ch hf hrate hn hch
  have heffect : HasEffect Config.params (.bqSetlp c k freq fs) c s.regs
      ⟨ch.putBq k (bqSetLowpass Config.params (Num.ofWord freq) (Num.ofWord fs)), [], none⟩ :=
    ⟨⟨e, hrate⟩, hn, ch, hch, rfl⟩
  exact exec_answered _ (o := .bqSetlp) rfl hf (heffect.rule_ok rfl)

/-- Settles O37: the effect of BQ.SETHP is `bqSetHighpass`, which writes R131 and R134 out. -/
theorem bqSethpDesignsHighpass : Obligations.BqSethpDesignsHighpass := by
  intro s e c k freq fs ch hf hrate hn hch
  have heffect : HasEffect Config.params (.bqSethp c k freq fs) c s.regs
      ⟨ch.putBq k (bqSetHighpass Config.params (Num.ofWord freq) (Num.ofWord fs)), [], none⟩ :=
    ⟨⟨e, hrate⟩, hn, ch, hch, rfl⟩
  exact exec_answered _ (o := .bqSethp) rfl hf (heffect.rule_ok rfl)

/-- Settles O38: the effect of BQ.STEP is `bqProcess`, which is the recurrence of R138. -/
theorem bqStepRunsRecurrence : Obligations.BqStepRunsRecurrence := by
  intro s e c k x ch hf hrate hn hch
  have heffect : HasEffect Config.params (.bqStep c k x) c s.regs
      ⟨ch.putBq k (bqProcess (ch.bq.get k) (Num.ofWord x)).2,
        [.num (bqProcess (ch.bq.get k) (Num.ofWord x)).1], none⟩ :=
    ⟨⟨e, hrate⟩, hn, ch, hch, rfl⟩
  exact exec_answered _ (o := .bqStep) rfl hf (heffect.rule_ok rfl)

end Sys2Proof.Machine
end

section
/-! SUPPORT. The statements of 41_crossover.md: when XO.UPD recomputes (R152, R154), where its clamp
bounds are in order (R153), and its two outcomes; XO.SPLIT (R157, R158), from what a command that names
a channel does to its bank (`HasEffect.rule_ok`). -/

namespace Sys2Proof.Machine

variable {F : Fmt} {p : Params F} {r : Regs F} {e : RateRegs F} {reqLo reqHi : Num F}

/-! ### The rule of XO.UPD -/

/-- R154: XO.UPD recomputes unless a split is applied that neither request leaves by more than
HYST_HZ. -/
theorem xoMustRecompute_eq_true {xo : Option (XoRegs F)} :
    xoMustRecompute xo reqLo reqHi = true ↔ ∀ f, xo = some f →
      shouldRecompute reqLo f.lowFreq (Num.ofDec Config.hystHz) = true ∨
      shouldRecompute reqHi f.highFreq (Num.ofDec Config.hystHz) = true := by
  cases xo <;> simp [xoMustRecompute]

theorem xoMustRecompute_some_eq_false {f : XoRegs F} :
    xoMustRecompute (some f) reqLo reqHi = false ↔
      shouldRecompute reqLo f.lowFreq (Num.ofDec Config.hystHz) = false ∧
      shouldRecompute reqHi f.highFreq (Num.ofDec Config.hystHz) = false :=
  Bool.or_eq_false_iff

/-- R153, the converse of `xoClamp_ok`: with both pairs of bounds in order, both requests are clamped. -/
theorem xoClamp_eq_ok {fs low high : Num F} :
    let nyq := fs.div Num.two
    let lmin := Num.ofDec Config.lowMinHz
    let lmax := nyq.mul (Num.ofDec Config.lowMaxFrac)
    let hmin := low.add (Num.ofDec Config.sepMinHz)
    let hmax := nyq.mul (Num.ofDec Config.highMaxFrac)
    lmin.le lmax = true → low = reqLo.clamp lmin lmax → hmin.le hmax = true →
      high = reqHi.clamp hmin hmax → xoClamp reqLo reqHi fs = .ok (low, high) := by
  intro nyq lmin lmax hmin hmax hlo hlow hhi hhigh
  subst hlow hhigh
  exact (if_neg (by simpa using hlo)).trans (if_neg (by simpa using hhi))

/-- The outcome of R154 that recomputes. -/
theorem xoUpd_eq_ok_of_recompute {low high : Num F} (he : r.rate = some e)
    (hm : xoMustRecompute r.xo reqLo reqHi = true)
    (hc : xoClamp reqLo reqHi e.fs = .ok (low, high)) :
    Regs.xoUpd p reqLo reqHi r = .ok
      ({ r with
        xo := some { lowFreq := low, highFreq := high }
        chans := r.chans.map fun ch => { ch with bq := xoDesign p low high e.fs } }, [.int 1]) := by
  simp only [Regs.xoUpd, needRate_ok.2 he, hm, hc, except_ok_bind, if_true, except_pure]

/-- The outcome of R154 that holds the applied split. -/
theorem xoUpd_eq_ok_of_hold (he : r.rate = some e)
    (hm : xoMustRecompute r.xo reqLo reqHi = false) :
    Regs.xoUpd p reqLo reqHi r = .ok (r, [.int 0]) := by
  simp only [Regs.xoUpd, needRate_ok.2 he, hm, except_ok_bind, Bool.false_eq_true, if_false,
    except_pure]

/-! ### The Crossover commands -/

/-- Settles O42: XO.UPD recomputes, its clamp succeeds, and `xoDesign` writes R151 out. -/
theorem xoUpdRedesignsEveryChannel : Obligations.XoUpdRedesignsEveryChannel := by
  intro s e reqLo reqHi hf hrate hoff ten nyq loHi low hiHi high lp hp hlo hhi
  have hm : xoMustRecompute s.regs.xo (Num.ofWord reqLo) (Num.ofWord reqHi) = true :=
    xoMustRecompute_eq_true.2 hoff
  have hc : xoClamp (Num.ofWord reqLo) (Num.ofWord reqHi) e.fs = .ok (low, high) :=
    xoClamp_eq_ok hlo rfl hhi rfl
  exact exec_answered (.xoUpd reqLo reqHi) (o := .xoUpd) rfl hf
    (xoUpd_eq_ok_of_recompute hrate hm hc)

/-- Settles O43: both differences being within HYST_HZ, XO.UPD holds the applied split. -/
theorem xoUpdHoldsWithinHysteresis : Obligations.XoUpdHoldsWithinHysteresis := by
  intro s e f reqLo reqHi hf hrate hxo hlo hhi
  have hm : xoMustRecompute s.regs.xo (Num.ofWord reqLo) (Num.ofWord reqHi) = false :=
    hxo ▸ xoMustRecompute_some_eq_false.2 ⟨hlo, hhi⟩
  exact exec_answered (.xoUpd reqLo reqHi) (o := .xoUpd) rfl hf (xoUpd_eq_ok_of_hold hrate hm)

/-- Settles O44: the effect of XO.SPLIT is `xoSplit`, which is the three chains of R157. -/
theorem xoSplitStepsThreeChains : Obligations.XoSplitStepsThreeChains := by
  intro s e c x ch hf hrate hn hch
  have heffect : HasEffect Config.params (.xoSplit c x) c s.regs
      ⟨{ ch with bq := (xoSplit ch.bq (Num.ofWord x)).2 },
        [.num (xoSplit ch.bq (Num.ofWord x)).1.1, .num (xoSplit ch.bq (Num.ofWord x)).1.2.1,
          .num (xoSplit ch.bq (Num.ofWord x)).1.2.2], none⟩ :=
    ⟨⟨e, hrate⟩, hn, ch, hch, rfl⟩
  exact exec_answered _ (o := .xoSplit) rfl hf (heffect.rule_ok rfl)

end Sys2Proof.Machine
end

section
/-! SUPPORT. The statements of 42_compressor.md: rounding between bounds that are values, the weights c
and 1 − c of the one-pole formula (R174, R176), the signs of products and of gains (R23, R25), the ratio
1 curve (R175, R180), and the two commands (R178, R179). -/

namespace Sys2Proof

variable {F : Fmt}

/-! ### Rounding does not pass a value -/

/-- What does not exceed a value does not round to a greater one (R13). -/
theorem Num.roundCode_le_of_le {n d m : Nat} (hd : 0 < d) (h : n ≤ d * Num.magUnits F m) :
    Num.roundCode F n d ≤ m := by
  have hnear := (Num.roundCode_nearest F (n := n) hd m).1
  by_contra hlt
  have hval := Nat.mul_lt_mul_of_pos_left (Num.magUnits_strictMono F (Nat.not_le.1 hlt)) hd
  zify at h hval
  grind

/-- What reaches a value does not round to a smaller one (R13). -/
theorem Num.le_roundCode_of_le {n d m : Nat} (hd : 0 < d) (h : d * Num.magUnits F m ≤ n) :
    m ≤ Num.roundCode F n d := by
  have hnear := (Num.roundCode_nearest F (n := n) hd m).1
  by_contra hlt
  have hval := Nat.mul_lt_mul_of_pos_left (Num.magUnits_strictMono F (Nat.not_le.1 hlt)) hd
  zify at h hval
  grind

/-- One unit is the least subnormal, the code 1. -/
theorem Num.magUnits_one (F : Fmt) : Num.magUnits F 1 = 1 :=
  if_pos (Nat.one_lt_two_pow (Nat.one_le_iff_ne_zero.1 F.one_le_fracBits))

/-! ### Weights: the values in (0, 1] -/

/-- The magnitude code of 1 (`Num.one_eq_fin`). -/
def Fmt.oneCode (F : Fmt) : Fin F.magCount := ⟨F.bias * 2 ^ F.fracBits, F.bias_mul_lt_magCount⟩

theorem Num.one_eq_fin (F : Fmt) : (Num.one : Num F) = .fin false F.oneCode := Num.one_eq F

theorem Num.magUnits_oneCode (F : Fmt) : Num.magUnits F F.oneCode = 2 ^ F.unitExp :=
  Num.magUnits_bias F

/-- A value that scales by more than 0 and by at most 1: a pole c strictly between 0 and 1, and its
1 − c. -/
def Num.IsWeight (w : Num F) : Prop := w.gt Num.zero = true ∧ w.le Num.one = true

/-- A weight is a finite positive value whose code does not exceed that of 1. -/
theorem Num.isWeight_iff {w : Num F} :
    w.IsWeight ↔ ∃ m : Fin F.magCount, w = .fin false m ∧ 0 < m.val ∧ m.val ≤ F.oneCode.val := by
  rw [Num.IsWeight, Num.gt_iff, Num.le_iff, Num.one_eq_fin, Num.zero, Num.signedZero_key, Num.key_fin]
  constructor
  · rintro ⟨⟨hnan, -, hpos⟩, -, -, hle⟩
    have hlt := F.oneCode.isLt
    cases w with
    | nan => cases hnan
    | inf s =>
      rw [Num.key_inf] at hpos hle
      cases s with
      | true => simp only [if_true] at hpos; omega
      | false => simp only [Bool.false_eq_true, if_false] at hle; omega
    | fin s m =>
      rw [Num.key_fin] at hpos hle
      cases s with
      | true => simp only [if_true] at hpos; omega
      | false => exact ⟨m, rfl, Int.ofNat_lt.1 hpos, Int.ofNat_le.1 hle⟩
  · rintro ⟨m, rfl, hpos, hle⟩
    exact ⟨⟨rfl, rfl, Int.ofNat_lt.2 hpos⟩, rfl, rfl, Int.ofNat_le.2 hle⟩

/-- A pole strictly between 0 and 1 is a weight. -/
theorem Num.isWeight_of_pole {c : Num F} (h0 : c.gt Num.zero = true) (h1 : c.lt Num.one = true) :
    c.IsWeight :=
  ⟨h0, (Num.le_iff_lt_or _ _).2 (.inl h1)⟩

/-- A sum of a positive number of units that does not exceed 1 is a weight: rounding passes neither
one unit nor 1. -/
theorem Num.isWeight_ofSum (b : Bool) {u : Nat} (hpos : 0 < u) (hle : u ≤ 2 ^ F.unitExp) :
    (Num.ofSum b u : Num F).IsWeight := by
  have hlow : 1 ≤ Num.roundCode F u 1 :=
    Num.le_roundCode_of_le Nat.one_pos (by rw [Num.magUnits_one]; omega)
  have hhigh : Num.roundCode F u 1 ≤ F.oneCode :=
    Num.roundCode_le_of_le Nat.one_pos (by rw [Num.magUnits_oneCode]; omega)
  have hround : (Num.ofSum b u : Num F) = Num.round false u 1 := by
    rw [Num.ofSum_eq_round, if_neg (by omega), decide_eq_false (by omega), Int.natAbs_natCast]
  exact Num.isWeight_iff.2 ⟨⟨_, hhigh.trans_lt F.oneCode.isLt⟩,
    hround.trans (Num.round_eq_fin_iff.2 ⟨rfl, rfl⟩), hlow, hhigh⟩

/-- 1 − c of a pole c strictly between 0 and 1 is a weight (R174). -/
theorem Num.isWeight_one_sub {c : Num F} (h0 : c.gt Num.zero = true) (h1 : c.lt Num.one = true) :
    (Num.one.sub c).IsWeight := by
  obtain ⟨m, rfl, -, -⟩ := Num.isWeight_iff.1 (Num.isWeight_of_pole h0 h1)
  rw [Num.one_eq_fin, Num.lt_fin_iff] at h1
  have hlt : Num.magUnits F m < Num.magUnits F F.oneCode := Int.ofNat_lt.1 h1
  have hone := Num.magUnits_oneCode F
  have hsum : (Num.one : Num F).sub (.fin false m) =
      Num.ofSum false (Num.magUnits F F.oneCode - Num.magUnits F m : Nat) := by
    rw [Nat.cast_sub hlt.le, Num.one_eq_fin]; rfl
  rw [hsum]
  exact Num.isWeight_ofSum false (by omega) (by omega)

/-! ### The operations of the one-pole formula on weights -/

theorem Num.IsWeight.neg_inf_mul {w : Num F} (hw : w.IsWeight) :
    (Num.inf true).mul w = .inf true := by
  obtain ⟨m, rfl, hpos, -⟩ := Num.isWeight_iff.1 hw
  exact if_neg hpos.ne'

theorem Num.IsWeight.zero_mul {w : Num F} (hw : w.IsWeight) : Num.zero.mul w = Num.zero := by
  obtain ⟨m, rfl, -, -⟩ := Num.isWeight_iff.1 hw
  exact Num.zero_mul_fin false m

/-- A weight does not make a finite value overflow. -/
theorem Num.IsWeight.fin_mul {w : Num F} (hw : w.IsWeight) (s : Bool) (n : Fin F.magCount) :
    ∃ k, (Num.fin s n).mul w = .fin s k := by
  obtain ⟨m, rfl, -, hle⟩ := Num.isWeight_iff.1 hw
  have hunits : Num.magUnits F m ≤ 2 ^ F.unitExp :=
    Num.magUnits_oneCode F ▸ (Num.magUnits_strictMono F).monotone hle
  have hcode := Num.roundCode_le_of_le (F := F) (Nat.two_pow_pos F.unitExp)
    (Nat.mul_comm (Num.magUnits F n) (Num.magUnits F m) ▸ Nat.mul_le_mul_right _ hunits)
  rw [Num.mul_fin_fin, Bool.xor_false]
  exact ⟨⟨_, hcode.trans_lt n.isLt⟩, Num.round_eq_fin_iff.2 ⟨rfl, rfl⟩⟩

/-- −∞ absorbs every weighted value but +∞ and NaN. -/
theorem Num.IsWeight.neg_inf_add_mul {w x : Num F} (hw : w.IsWeight) (hinf : x ≠ .inf false)
    (hnan : x ≠ .nan) : (Num.inf true).add (x.mul w) = .inf true := by
  cases x with
  | nan => exact absurd rfl hnan
  | inf s =>
    cases s with
    | false => exact absurd rfl hinf
    | true => rw [hw.neg_inf_mul]; rfl
  | fin s n => obtain ⟨k, hk⟩ := hw.fin_mul s n; rw [hk]; rfl

/-- −∞ exceeds no value, and no comparison with NaN holds (R15). -/
theorem Num.neg_inf_gt (x : Num F) : (Num.inf true).gt x = false := by
  refine (Num.lt_eq_false_iff _ _).2 fun hx _ => ?_
  cases x with
  | nan => cases hx
  | inf s =>
    cases s <;> simp only [Num.key_inf, Bool.false_eq_true, if_true, if_false] <;> omega
  | fin s m => exact (Num.key_fin_bounds s m).1.le

/-! ### Ratio 1 -/

theorem Num.one_div_one (F : Fmt) : (Num.one : Num F).div Num.one = Num.one := by
  have hunits := Num.magUnits_oneCode F
  have hpos : 0 < Num.magUnits F F.oneCode := hunits ▸ Nat.two_pow_pos _
  rw [Num.one_eq_fin, Num.div_fin_fin _ _ _ (mt Num.magUnits_eq_zero.2 hpos.ne')]
  exact Num.round_of_exact false hpos (by rw [hunits])

theorem Num.one_sub_one (F : Fmt) : (Num.one : Num F).sub Num.one = Num.zero := by
  rw [Num.one_eq_fin, Num.sub_eq_zero_of_eq rfl]
  rfl

/-- A finite value times +0 is a zero. -/
theorem Num.isZero_mul_zero {x : Num F} (hx : x.isFinite = true) : (x.mul Num.zero).isZero = true := by
  cases x with
  | nan => cases hx
  | inf s => cases hx
  | fin s m => rw [Num.zero, Num.signedZero, Num.mul_eq_zero_of_zero (.inr rfl)]; rfl

@[simp] theorem Num.isFinite_neg (x : Num F) : x.neg.isFinite = x.isFinite := by cases x <;> rfl

/-! ### Signs of products and gains -/

theorem Num.signBit_round (neg : Bool) (n d : Nat) :
    (Num.round neg n d : Num F).signBit = neg := by
  rw [Num.round_eq_ofMag, Num.ofMag]
  split <;> rfl

/-- The sign of a product that is not NaN (R13). -/
theorem Num.signBit_mul {x y : Num F} (h : x.mul y ≠ .nan) :
    (x.mul y).signBit = (x.signBit ^^ y.signBit) := by
  cases x with
  | nan => exact absurd rfl h
  | inf s =>
    cases y with
    | nan => exact absurd rfl h
    | inf t => rfl
    | fin t n => exact congrArg Num.signBit (if_neg fun hn => h (if_pos hn))
  | fin s m =>
    cases y with
    | nan => exact absurd rfl h
    | inf t => exact congrArg Num.signBit (if_neg fun hm => h (if_pos hm))
    | fin t n => exact Num.signBit_round _ _ _

@[simp] theorem Num.signBit_inf (s : Bool) : (Num.inf s : Num F).signBit = s := rfl
@[simp] theorem Num.signBit_zero : (Num.zero : Num F).signBit = false := rfl
@[simp] theorem Num.signBit_ofNat (n : Nat) : (Num.ofNat n : Num F).signBit = false :=
  Num.signBit_round _ _ _

@[simp] theorem Magnitude.signBit_toNum (m : Magnitude F) : m.toNum.signBit = false := by
  rw [Magnitude.toNum, Num.ofMag]
  split <;> rfl

/-- A power is never negative, for any TF (R23). -/
theorem TF.signBit_fpow (tf : TF F) (a b : Num F) : (tf.fpow a b).signBit = false := by
  cases b with
  | nan => rfl
  | inf neg => cases neg <;> simp [TF.fpow, apply_ite Num.signBit]
  | fin neg m =>
    cases hn : (Num.fin neg m).exactExponent <;> simp [TF.fpow, apply_ite Num.signBit, Num.one, hn]

end Sys2Proof

namespace Sys2Proof.Machine

variable {F : Fmt}

/-! ### The five steps -/

/-- The one-pole formula holds −∞ under inputs that are neither +∞ nor NaN (R174, R181). -/
theorem onePole_neg_inf {input c : Num F} (h0 : c.gt Num.zero = true) (h1 : c.lt Num.one = true)
    (hinf : input ≠ .inf false) (hnan : input ≠ .nan) :
    onePole (.inf true) input c = .inf true := by
  rw [onePole, (Num.isWeight_of_pole h0 h1).neg_inf_mul,
    (Num.isWeight_one_sub h0 h1).neg_inf_add_mul hinf hnan]

/-- The one-pole formula holds +0 at the input +0 (R176). -/
theorem onePole_zero {c : Num F} (h0 : c.gt Num.zero = true) (h1 : c.lt Num.one = true) :
    onePole Num.zero Num.zero c = Num.zero := by
  rw [onePole, (Num.isWeight_of_pole h0 h1).zero_mul, (Num.isWeight_one_sub h0 h1).zero_mul]
  exact Num.add_zero_of_ne nofun

theorem targetReduction_of_not_gt {v : Settings F} {env : Num F} (h : env.gt v.thr = false) :
    targetReduction v env = Num.zero :=
  if_neg (Bool.not_eq_true _ ▸ h)

/-- At ratio 1 the slope of the curve is +0 (R175). -/
theorem targetReduction_ratio_one {v : Settings F} {env : Num F} (hr : v.ratio = Num.one)
    (h : env.gt v.thr = true) : targetReduction v env = (env.sub v.thr).neg.mul Num.zero := by
  rw [targetReduction, if_pos h, hr, Num.one_div_one, Num.one_sub_one]

/-! ### The statements about bc_process -/

/-- Settles O48: a gain is a power of ten, which has no sign. -/
theorem compressorKeepsInputSign : Obligations.CompressorKeepsInputSign := by
  intro F p bc v x hy
  exact (Num.signBit_mul hy).trans (by rw [TF.dbToGain, TF.signBit_fpow, Bool.xor_false])

/-- Settles O49: −∞ absorbs the envelope step, does not exceed the threshold, and so leaves the
reduction at the +0 it smooths. -/
theorem minusInfinityEnvelopeAbsorbs : Obligations.MinusInfinityEnvelopeAbsorbs := by
  intro F p v x _ hatt0 hatt1 hrel0 hrel1 hinf hnan
  have henv : envelopeStep v (.inf true) (levelDb p x) = .inf true := by
    unfold envelopeStep
    split
    · exact onePole_neg_inf hatt0 hatt1 hinf hnan
    · exact onePole_neg_inf hrel0 hrel1 hinf hnan
  have htarget : targetReduction v (.inf true) = Num.zero :=
    targetReduction_of_not_gt (Num.neg_inf_gt _)
  have hgr : reductionStep v Num.zero Num.zero = Num.zero := by
    rw [reductionStep, Num.lt_self]
    exact onePole_zero hrel0 hrel1
  simp only [bcProcess, henv, htarget, hgr]

/-- Settles O50: below the threshold the target is +0, above it a finite difference times +0. -/
theorem ratioOneNeverReduces : Obligations.RatioOneNeverReduces := by
  intro F v env hr h
  cases hgt : env.gt v.thr with
  | false => rw [targetReduction_of_not_gt hgt]; rfl
  | true =>
    have hfin : (env.sub v.thr).isFinite = true := h.resolve_left (by simp [hgt])
    rw [targetReduction_ratio_one hr hgt]
    exact Num.isZero_mul_zero (by rwa [Num.isFinite_neg])

/-! ### The Band Compressor commands -/

/-- A band's number is the field that names it (R44, R108). -/
theorem ofField_index (b : Band) : Band.ofField (BitVec.ofNat 2 b.index) = some b := by
  cases b <;> rfl

/-- Settles O45: BC.SET succeeds (`bcSet_eq_ok`), and `settingsResolve` writes R177 out. -/
theorem bcSetResolvesSnapshot : Obligations.BcSetResolvesSnapshot := by
  intro s e b thr ratio att rel makeup hf hrate
  exact exec_answered _ (o := .bcSet) rfl hf (bcSet_eq_ok (ofField_index b) hrate _ _ _ _ _)

/-- Settles O46: the effect of BC.STEP is `bcProcess`, which is the five steps of R172. -/
theorem bcStepRunsFiveSteps : Obligations.BcStepRunsFiveSteps := by
  intro s e c b x ch v hf hrate hn hch hset
  have heffect : HasEffect Config.params (.bcStep c (BitVec.ofNat 2 b.index) x) c s.regs
      ⟨ch.putBc b (bcProcess Config.params (ch.bc.get b) v (Num.ofWord x)).2,
        [.num (bcProcess Config.params (ch.bc.get b) v (Num.ofWord x)).1], none⟩ :=
    ⟨⟨e, hrate⟩, hn, ch, hch, Option.bind_eq_some_iff.2
      ⟨b, ofField_index b, Option.bind_eq_some_iff.2 ⟨v, hset, rfl⟩⟩⟩
  exact exec_answered _ (o := .bcStep) rfl hf (heffect.rule_ok rfl)

end Sys2Proof.Machine
end

section
/-! SUPPORT. The statements of 43_engine.md: BLK.BEG (R193), SAMPLE (R194, R195), from what a command that
names a channel does to its bank (`HasEffect.rule_ok`), and BLK.END (R197). -/

namespace Sys2Proof.Machine

variable {F : Fmt} {r : Regs F} {e : RateRegs F}

/-! ### The rules of the block commands -/

/-- BLK.BEG of an initialised block succeeds (R193). -/
theorem blkBeg_eq_ok (he : r.rate = some e) :
    Regs.blkBeg r = .ok ({ r with blockPeak := Num.zero }, []) := by
  simp only [Regs.blkBeg, needRate_ok.2 he, except_ok_bind, except_pure]

/-- The outcome of R197 with a UI attached. -/
theorem blkEnd_eq_ok_of_ui (he : r.rate = some e) (hui : r.ui = true) :
    Regs.blkEnd r = .ok (r.pkUpdate e.decayW r.blockPeak, []) := by
  simp only [Regs.blkEnd, needRate_ok.2 he, hui, except_ok_bind, if_true, except_pure]

/-- The outcome of R197 without a UI. -/
theorem blkEnd_eq_ok_of_no_ui (he : r.rate = some e) (hui : r.ui = false) :
    Regs.blkEnd r = .ok (r, []) := by
  simp only [Regs.blkEnd, needRate_ok.2 he, hui, except_ok_bind, Bool.false_eq_true, if_false,
    except_pure]

/-! ### The Engine commands -/

/-- Settles O33: with INITED 1 the rule of BLK.BEG succeeds (`blkBeg_eq_ok`). -/
theorem blkBegClearsBlockPeak : Obligations.BlkBegClearsBlockPeak :=
  fun _ _ hf hrate => exec_answered .blkBeg (o := .blkBeg) rfl hf (blkBeg_eq_ok hrate)

/-- Settles O34: the effect of SAMPLE is `engineSample`, which writes R194 out, and its output enters
BLOCK_PEAK by `blockPeakNext`. -/
theorem sampleRunsWholeChain : Obligations.SampleRunsWholeChain := by
  intro s e c x ch sl sm sh hf hrate hn hch hset
  have heffect : HasEffect Config.params (.sample c x) c s.regs
      ⟨(engineSample Config.params sl sm sh ch (Num.ofWord x)).2,
        [.num (engineSample Config.params sl sm sh ch (Num.ofWord x)).1],
        some (engineSample Config.params sl sm sh ch (Num.ofWord x)).1⟩ :=
    ⟨⟨e, hrate⟩, hn, ch, hch, by rw [hset]; rfl⟩
  exact exec_answered _ (o := .sample) rfl hf (heffect.rule_ok rfl)

/-- Settles O35: with a UI the rule of BLK.END is `pkUpdate` of BLOCK_PEAK, which writes R212 out;
without one it changes no register. -/
theorem blkEndUpdatesMeterForUi : Obligations.BlkEndUpdatesMeterForUi := by
  intro s e hf hrate
  cases hui : s.regs.ui with
  | true =>
    exact exec_answered .blkEnd (o := .blkEnd) rfl hf (blkEnd_eq_ok_of_ui hrate hui)
  | false =>
    exact exec_answered .blkEnd (o := .blkEnd) rfl hf (blkEnd_eq_ok_of_no_ui hrate hui)

end Sys2Proof.Machine
end

section
/-! SUPPORT. The statements of 44_peak_meter.md: PK.ATT (R210), PK.UPD (R212, R213), PK.READ (R214). -/

namespace Sys2Proof.Machine

variable {F : Fmt} {r : Regs F} {e : RateRegs F}

/-- PK.UPD of an initialised block succeeds, whatever UI is (R213). -/
theorem pkUpd_eq_ok (he : r.rate = some e) (p : Num F) :
    Regs.pkUpd p r = .ok (r.pkUpdate e.decayW p, []) := by
  simp only [Regs.pkUpd, needRate_ok.2 he, except_ok_bind, except_pure]

/-! ### The Peak Meter commands -/

/-- Settles O51: the rule of PK.ATT has no check, so it succeeds with INITED 0 too. -/
theorem pkAttSetsUiFlag : Obligations.PkAttSetsUiFlag :=
  fun _ f hf => exec_answered (.pkAtt f) (o := .pkAtt) rfl hf rfl

/-- Settles O52: with INITED 1 the rule of PK.UPD is `pkUpdate` of its operand (`pkUpd_eq_ok`), which
writes R212 out. -/
theorem pkUpdAttacksOrDecays : Obligations.PkUpdAttacksOrDecays :=
  fun _ _ w hf hrate => exec_answered (.pkUpd w) (o := .pkUpd) rfl hf (pkUpd_eq_ok hrate _)

/-- Settles O53: the rule of PK.READ has no check and keeps the registers; that PEAK is the last value
stored is a clause of the invariant (R89), which every step keeps. -/
theorem pkReadReturnsLastStored : Obligations.PkReadReturnsLastStored :=
  fun _ hf => ⟨exec_answered .pkRead (o := .pkRead) rfl hf rfl, fun hinv => hinv.peakLast⟩

end Sys2Proof.Machine
end

section
/-! SUPPORT. The register map of 45_readback.md R227: an address names at most one register and every
register has one address, said once as `ofAddr_eq_some`; which register of a bank an index names (R41,
R44); and what a read of a name answers (R226, R228). -/

namespace Sys2Proof.Machine

open Safety

variable {F : Fmt} {r : Regs F}

/-! ### Indices and offsets -/

theorem index_lt (b : Band) : b.index < 3 := by cases b <;> decide

theorem setOffset_le (f : SetField) : f.offset ≤ 4 := by cases f <;> decide

theorem bqOffset_le (f : BqField) : f.offset ≤ 6 := by cases f <;> decide

theorem bcOffset_le (f : BcField) : f.offset ≤ 1 := by cases f <;> decide

theorem ofIndex_eq_some {n : Nat} {b : Band} : Band.ofIndex n = some b ↔ n = b.index := by
  constructor
  · intro h
    unfold Band.ofIndex at h
    split at h <;> cases h <;> rfl
  · rintro rfl
    cases b <;> rfl

theorem setOfOffset_eq_some {n : Nat} {f : SetField} :
    SetField.ofOffset n = some f ↔ n = f.offset := by
  constructor
  · intro h
    unfold SetField.ofOffset at h
    split at h <;> cases h <;> rfl
  · rintro rfl
    cases f <;> rfl

theorem bqOfOffset_eq_some {n : Nat} {f : BqField} :
    BqField.ofOffset n = some f ↔ n = f.offset := by
  constructor
  · intro h
    unfold BqField.ofOffset at h
    split at h <;> cases h <;> rfl
  · rintro rfl
    cases f <;> rfl

theorem bcOfOffset_eq_some {n : Nat} {f : BcField} :
    BcField.ofOffset n = some f ↔ n = f.offset := by
  constructor
  · intro h
    unfold BcField.ofOffset at h
    split at h <;> cases h <;> rfl
  · rintro rfl
    cases f <;> rfl

/-- Every offset 0 to 4 of a snapshot is mapped (R227). -/
theorem exists_setOffset {n : Nat} (h : n ≤ 4) : ∃ f : SetField, f.offset = n := by
  interval_cases n
  exacts [⟨.thr, rfl⟩, ⟨.ratio, rfl⟩, ⟨.att, rfl⟩, ⟨.rel, rfl⟩, ⟨.makeup, rfl⟩]

/-! ### The address map -/

theorem ofGlobal_set (b : Band) (f : SetField) :
    RegName.ofGlobal (0x10 + 8 * b.index + f.offset) = some (.set b f) := by
  cases b <;> cases f <;> rfl

/-- A global address names the register that has it. -/
theorem ofGlobal_eq_some {a : Nat} (ha : a < 0x10000) {n : RegName} :
    RegName.ofGlobal a = some n ↔ a = n.addrNat := by
  constructor
  · intro h
    unfold RegName.ofGlobal at h
    split at h
    case h_10 =>
      split at h
      case isFalse => cases h
      case isTrue hlo =>
        obtain ⟨b, hb, h⟩ := Option.bind_eq_some_iff.1 h
        obtain ⟨f, hf, h⟩ := Option.bind_eq_some_iff.1 h
        cases h
        have hb := ofIndex_eq_some.1 hb
        have hf := setOfOffset_eq_some.1 hf
        simp only [RegName.addrNat]
        omega
    all_goals cases h; rfl
  · intro h
    cases n with
    | set b f => exact h ▸ ofGlobal_set b f
    | bq c k f => simp only [RegName.addrNat] at h; omega
    | bc c b f => simp only [RegName.addrNat] at h; omega
    | _ => subst h; rfl

theorem ofBank_bq (c : BitVec 8) (k : BitVec 3) (f : BqField) :
    RegName.ofBank c (8 * k.toNat + f.offset) = some (.bq c k f) := by
  have hf := bqOffset_le f
  have hk := k.isLt
  have hmod : (8 * k.toNat + f.offset) % 8 = f.offset := by omega
  have hdiv : (8 * k.toNat + f.offset) / 8 = k.toNat := by omega
  rw [RegName.ofBank, if_pos (by omega), hmod, hdiv, bqOfOffset_eq_some.2 rfl, BitVec.ofNat_toNat,
    BitVec.setWidth_eq]
  rfl

theorem ofBank_bc (c : BitVec 8) (b : Band) (f : BcField) :
    RegName.ofBank c (0x40 + 2 * b.index + f.offset) = some (.bc c b f) := by
  cases b <;> cases f <;> rfl

/-- An offset in the bank of channel c names the register that has its address. -/
theorem ofBank_eq_some {c : BitVec 8} {off : Nat} (hoff : off < 0x100) {n : RegName} :
    RegName.ofBank c off = some n ↔ 0x10000 + 0x100 * c.toNat + off = n.addrNat := by
  constructor
  · intro h
    unfold RegName.ofBank at h
    split at h
    case isTrue hlo =>
      obtain ⟨f, hf, h⟩ := Option.bind_eq_some_iff.1 h
      cases h
      have hf := bqOfOffset_eq_some.1 hf
      simp only [RegName.addrNat, BitVec.toNat_ofNat]
      omega
    case isFalse hhi =>
      obtain ⟨b, hb, h⟩ := Option.bind_eq_some_iff.1 h
      obtain ⟨f, hf, h⟩ := Option.bind_eq_some_iff.1 h
      cases h
      have hb := ofIndex_eq_some.1 hb
      have hf := bcOfOffset_eq_some.1 hf
      simp only [RegName.addrNat]
      omega
  · intro h
    cases n with
    | bq c' k f =>
      have hf := bqOffset_le f
      have hk := k.isLt
      simp only [RegName.addrNat] at h
      obtain rfl : c' = c := BitVec.eq_of_toNat_eq (by omega)
      obtain rfl : off = 8 * k.toNat + f.offset := by omega
      exact ofBank_bq c' k f
    | bc c' b f =>
      have hb := index_lt b
      have hf := bcOffset_le f
      simp only [RegName.addrNat] at h
      obtain rfl : c' = c := BitVec.eq_of_toNat_eq (by omega)
      obtain rfl : off = 0x40 + 2 * b.index + f.offset := by omega
      exact ofBank_bc c' b f
    | set b f =>
      have hb := index_lt b
      have hf := setOffset_le f
      simp only [RegName.addrNat] at h
      omega
    | _ => simp only [RegName.addrNat] at h; omega

/-- The map ends below 0x20000 (R227). -/
theorem addrNat_lt (n : RegName) : n.addrNat < 0x20000 := by
  cases n with
  | set b f =>
    have hb := index_lt b
    have hf := setOffset_le f
    simp only [RegName.addrNat]; omega
  | bq c k f =>
    have hc := c.isLt
    have hk := k.isLt
    have hf := bqOffset_le f
    simp only [RegName.addrNat]; omega
  | bc c b f =>
    have hc := c.isLt
    have hb := index_lt b
    have hf := bcOffset_le f
    simp only [RegName.addrNat]; omega
  | _ => simp only [RegName.addrNat]; omega

theorem addr_toNat (n : RegName) : n.addr.toNat = n.addrNat := by
  have h := addrNat_lt n
  rw [RegName.addr, BitVec.toNat_ofNat]
  omega

/-- An address names a register exactly if it is that register's address (R227). -/
theorem ofAddr_eq_some {addr : BitVec 24} {n : RegName} :
    RegName.ofAddr addr = some n ↔ addr.toNat = n.addrNat := by
  simp only [RegName.ofAddr]
  split
  case isTrue hlo => exact ofGlobal_eq_some hlo
  case isFalse hlo =>
    split
    case isTrue hhi =>
      rw [ofBank_eq_some (Nat.mod_lt _ (by decide)), BitVec.toNat_ofNat]
      omega
    case isFalse hhi =>
      have hn := addrNat_lt n
      simp only [reduceCtorEq, false_iff]
      omega

/-! ### Indices name registers -/

theorem bqAt_iff {f : BiquadBank F} {n : Nat} {q : Biquad F} :
    BqAt f n q ↔ ∃ k : BitVec 3, k.toNat = n ∧ f.get k = q := by
  constructor
  · intro h
    cases h
    exacts [⟨0, rfl, rfl⟩, ⟨1, rfl, rfl⟩, ⟨2, rfl, rfl⟩, ⟨3, rfl, rfl⟩, ⟨4, rfl, rfl⟩,
      ⟨5, rfl, rfl⟩, ⟨6, rfl, rfl⟩, ⟨7, rfl, rfl⟩]
  · rintro ⟨k, rfl, rfl⟩
    exact forall_biquadIndex (P := fun k => BqAt f k.toNat (f.get k)).2
      ⟨.lowLp0, .lowLp1, .midHp0, .midHp1, .midLp0, .midLp1, .highHp0, .highHp1⟩ k

theorem bcAt_iff {f : CompBank F} {n : Nat} {q : Compressor F} :
    BcAt f n q ↔ ∃ b : Band, b.index = n ∧ f.get b = q := by
  constructor
  · intro h
    cases h
    exacts [⟨.low, rfl, rfl⟩, ⟨.mid, rfl, rfl⟩, ⟨.high, rfl, rfl⟩]
  · rintro ⟨b, rfl, rfl⟩
    cases b
    exacts [.low, .mid, .high]

theorem setAt_iff {f : SettingsFile F} {n : Nat} {q : Option (Settings F)} :
    SetAt f n q ↔ ∃ b : Band, b.index = n ∧ f.get b = q := by
  constructor
  · intro h
    cases h
    exacts [⟨.low, rfl, rfl⟩, ⟨.mid, rfl, rfl⟩, ⟨.high, rfl, rfl⟩]
  · rintro ⟨b, rfl, rfl⟩
    cases b
    exacts [.low, .mid, .high]

/-- A file of registers with `num` numbering its indices, before (`At`, `get`) and after (`At'`,
`get'`) a write of `v` at `j`: the write shows at the number of `j` and leaves all other numbers. The
one argument behind the Biquads, the compressors and the snapshots. -/
theorem write_at_number {ι V : Type} [DecidableEq ι] {num : ι → Nat} {At At' : Nat → V → Prop}
    {get get' : ι → V}
    (hAt : ∀ {n q}, At n q ↔ ∃ i, num i = n ∧ get i = q)
    (hAt' : ∀ {n q}, At' n q ↔ ∃ i, num i = n ∧ get' i = q) {j : ι} {v : V}
    (hput : ∀ i, get' i = if i = j then v else get i) :
    At (num j) (get j) ∧ At' (num j) v ∧ ∀ n q, n ≠ num j → (At' n q ↔ At n q) := by
  refine ⟨hAt.2 ⟨j, rfl, rfl⟩, hAt'.2 ⟨j, rfl, by rw [hput, if_pos rfl]⟩, fun n q hn => ?_⟩
  rw [hAt, hAt']
  refine exists_congr fun i => and_congr_right fun hi => ?_
  have hij : i ≠ j := fun h => hn (h ▸ hi.symm)
  rw [hput, if_neg hij]

/-! ### What a read answers -/

theorem read_set_ok {b : Band} {v : Settings F} (h : r.set.get b = some v) (f : SetField) :
    r.read (.set b f) = .ok (.num (v.field f)) := by
  simp only [Regs.read, h, Option.map_some, readSet]

theorem read_set_unset {b : Band} (h : r.set.get b = none) (f : SetField) :
    r.read (.set b f) = .error .unset := by
  simp only [Regs.read, h, Option.map_none, readSet]

theorem read_bq_ok {c : BitVec 8} {ch : Channel F} (h : r.chan? c = some ch) (k : BitVec 3)
    (f : BqField) : r.read (.bq c k f) = .ok (.num ((ch.bq.get k).field f)) := by
  simp only [Regs.read, h, Option.map_some, readBank]

theorem read_bc_ok {c : BitVec 8} {ch : Channel F} (h : r.chan? c = some ch) (b : Band)
    (f : BcField) : r.read (.bc c b f) = .ok (.num ((ch.bc.get b).field f)) := by
  simp only [Regs.read, h, Option.map_some, readBank]

theorem read_bq_beyond {c : BitVec 8} (h : r.nch.toNat ≤ c.toNat) (k : BitVec 3) (f : BqField) :
    r.read (.bq c k f) = .error .addr := by
  simp only [Regs.read, chan?_none_of_ge h, Option.map_none, readBank]

theorem read_bc_beyond {c : BitVec 8} (h : r.nch.toNat ≤ c.toNat) (b : Band) (f : BcField) :
    r.read (.bc c b f) = .error .addr := by
  simp only [Regs.read, chan?_none_of_ge h, Option.map_none, readBank]

/-- The registers guarded by INITED are unset while it is 0 (R53). -/
theorem read_rate_unset (h : r.rate = none) :
    r.read .fs = .error .unset ∧ r.read .decayW = .error .unset := by
  simp only [Regs.read, h, Option.map_none, readSet, and_self]

/-- The registers guarded by XO_VALID are unset while it is 0 (R53). -/
theorem read_xo_unset (h : r.xo = none) :
    r.read .lowFreq = .error .unset ∧ r.read .highFreq = .error .unset := by
  simp only [Regs.read, h, Option.map_none, readSet, and_self]

/-- The registers guarded by INITED read as their values (R227). -/
theorem read_rate_ok {e : RateRegs F} (h : r.rate = some e) :
    r.read .fs = .ok (.num e.fs) ∧ r.read .decayW = .ok (.num e.decayW) := by
  simp only [Regs.read, h, Option.map_some, readSet, and_self]

/-- The registers guarded by XO_VALID read as their values (R227). -/
theorem read_xo_ok {f : XoRegs F} (h : r.xo = some f) :
    r.read .lowFreq = .ok (.num f.lowFreq) ∧ r.read .highFreq = .ok (.num f.highFreq) := by
  simp only [Regs.read, h, Option.map_some, readSet, and_self]

/-! ### The rule of REG.RD -/

/-- REG.RD of an address no register has raises F_ADDR (R228). -/
theorem regRd_unnamed {addr : BitVec 24} (h : RegName.ofAddr addr = none) :
    Regs.regRd addr r = .error .addr := by
  simp only [Regs.regRd, h]

/-- REG.RD of a register's address is a read of that register (R226). -/
theorem regRd_named {addr : BitVec 24} {n : RegName} (h : n.addrNat = addr.toNat) :
    Regs.regRd addr r = r.read n >>= fun w => .ok (r, [w]) := by
  simp only [Regs.regRd, ofAddr_eq_some.2 h.symm, except_pure]

theorem regRd_eq_ok {addr : BitVec 24} {n : RegName} {w : ResultWord F}
    (h : n.addrNat = addr.toNat) (hw : r.read n = .ok w) :
    Regs.regRd addr r = .ok (r, [w]) := by
  rw [regRd_named h, hw, except_ok_bind]

theorem regRd_eq_error {addr : BitVec 24} {n : RegName} {f : FaultCode}
    (h : n.addrNat = addr.toNat) (hf : r.read n = .error f) :
    Regs.regRd addr r = .error f := by
  rw [regRd_named h, hf, except_error_bind]

end Sys2Proof.Machine
end

section
/-! SUPPORT. The statements of 45_readback.md: the register map read both ways (R227, R115), the faults of
REG.RD (R228), and its word for every row of the table (R226, R227). -/

namespace Sys2Proof.Machine

open Safety

variable {F : Fmt} {r : Regs F}

/-! ### The map -/

/-- Settles O5: both directions are `ofAddr_eq_some`. -/
theorem addressMapReadsBackNames : Obligations.AddressMapReadsBackNames :=
  ⟨fun n => ofAddr_eq_some.2 (addr_toNat n), fun _ n h =>
    BitVec.eq_of_toNat_eq ((addr_toNat n).trans (ofAddr_eq_some.1 h).symm)⟩

/-! ### Faults -/

/-- A register that has an address is in the table of R227, or its bank does not exist. -/
theorem addrMapped_or_read_error (r : Regs F) (n : RegName) :
    AddrMapped r.nch.toNat n.addrNat ∨ r.read n = .error .addr := by
  cases n with
  | set b f =>
    have hb := index_lt b
    have hf := setOffset_le f
    refine .inl (.inr (.inl ?_))
    simp only [RegName.addrNat]; omega
  | bq c k f =>
    obtain hc | hc := Nat.lt_or_ge c.toNat r.nch.toNat
    · have hk := k.isLt
      have hf := bqOffset_le f
      refine .inl (.inr (.inr ?_))
      simp only [RegName.addrNat]; omega
    · exact .inr (read_bq_beyond hc k f)
  | bc c b f =>
    obtain hc | hc := Nat.lt_or_ge c.toNat r.nch.toNat
    · have hb := index_lt b
      have hf := bcOffset_le f
      refine .inl (.inr (.inr ?_))
      simp only [RegName.addrNat]; omega
    · exact .inr (read_bc_beyond hc b f)
  | _ => exact .inl (.inl (by decide))

/-- REG.RD of an address outside the table raises F_ADDR (R228). -/
theorem regRd_unmapped {addr : BitVec 24} (h : ¬ AddrMapped r.nch.toNat addr.toNat) :
    Regs.regRd addr r = .error .addr := by
  cases hn : RegName.ofAddr addr with
  | none => exact regRd_unnamed hn
  | some n =>
    have haddr : n.addrNat = addr.toNat := (ofAddr_eq_some.1 hn).symm
    exact regRd_eq_error haddr ((addrMapped_or_read_error r n).resolve_left (haddr ▸ h))

/-- An address of an unset register names a register whose read raises F_UNSET (R228). -/
theorem exists_read_unset {a : Nat} (h : AddrUnset r a) :
    ∃ n : RegName, n.addrNat = a ∧ r.read n = .error .unset := by
  obtain ⟨rfl | rfl, hrate⟩ | ⟨rfl | rfl, hxo⟩ | ⟨i, o, ho, rfl, hset⟩ := h
  · exact ⟨.fs, rfl, (read_rate_unset hrate).1⟩
  · exact ⟨.decayW, rfl, (read_rate_unset hrate).2⟩
  · exact ⟨.lowFreq, rfl, (read_xo_unset hxo).1⟩
  · exact ⟨.highFreq, rfl, (read_xo_unset hxo).2⟩
  · obtain ⟨b, rfl, hb⟩ := setAt_iff.1 hset
    obtain ⟨f, rfl⟩ := exists_setOffset ho
    exact ⟨.set b f, rfl, read_set_unset hb f⟩

/-- Settles O29: outside the table the rule of REG.RD raises F_ADDR (`regRd_unmapped`), and an unset
register's read raises F_UNSET (`exists_read_unset`). -/
theorem unmappedAndUnsetReadsFault : Obligations.UnmappedAndUnsetReadsFault := by
  intro s addr _ hf
  refine ⟨fun hmap => ?_, fun hunset => ?_⟩
  · exact exec_faulted (.regRd addr) (o := .regRd) rfl hf (regRd_unmapped hmap)
  · obtain ⟨n, haddr, hread⟩ := exists_read_unset hunset
    exact exec_faulted (.regRd addr) (o := .regRd) rfl hf (regRd_eq_error haddr hread)

/-! ### Words -/

theorem exists_read_set {n : Nat} {v : Settings F} (h : SetAt r.set n (some v)) (f : SetField) :
    ∃ m : RegName, m.addrNat = 0x10 + 8 * n + f.offset ∧ r.read m = .ok (.num (v.field f)) := by
  obtain ⟨b, rfl, hb⟩ := setAt_iff.1 h
  exact ⟨.set b f, rfl, read_set_ok hb f⟩

theorem exists_read_bq {c : BitVec 8} {n : Nat} {ch : Channel F} {q : Biquad F}
    (hc : r.chan? c = some ch) (h : BqAt ch.bq n q) (f : BqField) :
    ∃ m : RegName, m.addrNat = 0x10000 + 0x100 * c.toNat + 8 * n + f.offset ∧
      r.read m = .ok (.num (q.field f)) := by
  obtain ⟨k, rfl, rfl⟩ := bqAt_iff.1 h
  exact ⟨.bq c k f, rfl, read_bq_ok hc k f⟩

theorem exists_read_bc {c : BitVec 8} {n : Nat} {ch : Channel F} {q : Compressor F}
    (hc : r.chan? c = some ch) (h : BcAt ch.bc n q) (f : BcField) :
    ∃ m : RegName, m.addrNat = 0x10000 + 0x100 * c.toNat + 0x40 + 2 * n + f.offset ∧
      r.read m = .ok (.num (q.field f)) := by
  obtain ⟨b, rfl, rfl⟩ := bcAt_iff.1 h
  exact ⟨.bc c b f, rfl, read_bc_ok hc b f⟩

/-- Every row of the table of R227 is the read of a register that has the row's address. -/
theorem exists_read_of_registerWord {a : Nat} {w : ResultWord F} (h : RegisterWord r a w) :
    ∃ n : RegName, n.addrNat = a ∧ r.read n = .ok w := by
  cases h with
  | fault => exact ⟨.fault, rfl, rfl⟩
  | status => exact ⟨.status, rfl, rfl⟩
  | nch => exact ⟨.nch, rfl, rfl⟩
  | fs e he => exact ⟨.fs, rfl, (read_rate_ok he).1⟩
  | lowFreq f hf => exact ⟨.lowFreq, rfl, (read_xo_ok hf).1⟩
  | highFreq f hf => exact ⟨.highFreq, rfl, (read_xo_ok hf).2⟩
  | decayW e he => exact ⟨.decayW, rfl, (read_rate_ok he).2⟩
  | blockPeak => exact ⟨.blockPeak, rfl, rfl⟩
  | peak => exact ⟨.peak, rfl, rfl⟩
  | thr b v hv => exact exists_read_set hv .thr
  | ratio b v hv => exact exists_read_set hv .ratio
  | att b v hv => exact exists_read_set hv .att
  | rel b v hv => exact exists_read_set hv .rel
  | makeup b v hv => exact exists_read_set hv .makeup
  | b0 c k ch q hc hq => exact exists_read_bq hc hq .b0
  | b1 c k ch q hc hq => exact exists_read_bq hc hq .b1
  | b2 c k ch q hc hq => exact exists_read_bq hc hq .b2
  | a1 c k ch q hc hq => exact exists_read_bq hc hq .a1
  | a2 c k ch q hc hq => exact exists_read_bq hc hq .a2
  | z1 c k ch q hc hq => exact exists_read_bq hc hq .z1
  | z2 c k ch q hc hq => exact exists_read_bq hc hq .z2
  | env c b ch q hc hq => exact exists_read_bc hc hq .env
  | gr c b ch q hc hq => exact exists_read_bc hc hq .gr

/-- Settles O55: a row's address names the register whose read is the row's word
(`exists_read_of_registerWord`), and reads and writes by index follow the numbering of R41 and R44
(`write_at_number`). -/
theorem regRdReturnsMappedWord : Obligations.RegRdReturnsMappedWord := by
  refine ⟨fun s addr w hf hw => ?_, fun F f k v => ?_, fun F f b v => ?_, fun F f b v => ?_⟩
  · obtain ⟨n, haddr, hread⟩ := exists_read_of_registerWord hw
    exact exec_answered (.regRd addr) (o := .regRd) rfl hf (regRd_eq_ok haddr hread)
  · exact write_at_number bqAt_iff bqAt_iff
      fun k' => biquad_get_put f k k' v
  · exact write_at_number bcAt_iff bcAt_iff fun b' => comp_get_put f b b' v
  · exact write_at_number setAt_iff setAt_iff fun b' => settings_get_put f b b' v

end Sys2Proof.Machine
end

section
/-! SUPPORT. The statements of 60_exceptions.md: what FAULT holds after a command (R240, R241), the only
way out of the fault state (R249), and the checks of R238 in their order: INITED (R242), the channel
(R243), the snapshots (R244) and the clamp bounds of XO.UPD (R246). That operands do not decide a fault
(R237) follows check by check. -/

namespace Sys2Proof.Machine

open Safety

/-! ### The fault state -/

/-- The fault state's answer as R241 writes it out. -/
theorem refuse_eq_answered (s : State) (op : BitVec 8) :
    s.refuse op = answered s s.regs (respHeader op s.regs.fault) [] := rfl

theorem exec_refused {s : State} (hf : s.regs.fault ≠ 0#8) (i : Instr) :
    exec i s = .next (s.refuse i.opcode.code) := by
  rw [exec_eq, runCommand_refuse hf]

theorem illegalCommand_refused {s : State} (hf : s.regs.fault ≠ 0#8) (op : BitVec 8) :
    illegalCommand op s = s.refuse op := runCommand_refuse hf

/-- A step that finds an illegal command takes its words off the port and performs it (R109). -/
theorem step_of_illegal {s : State} {why : IllegalCause} {op : BitVec 8} {rest : List Word}
    (h : fetch s = .illegal why op rest) :
    step s = .next (illegalCommand op (s.withCmd rest)) := by
  simp only [step, h]

/-- No outside event but the assertion of reset writes FAULT (R52). -/
theorem apply_fault (ev : Input) (s : State) :
    (ev.apply s).regs.fault = s.regs.fault ∨ (ev = .resetOn ∧ (ev.apply s).regs = Regs.reset) := by
  cases ev with
  | word w =>
    simp only [Input.apply, arrive]
    split <;> exact .inl rfl
  | uiRead => exact .inl rfl
  | resetOn => exact .inr ⟨rfl, rfl⟩
  | resetOff => exact .inl rfl

/-- Settles O20: a success leaves FAULT (`rule_response`), so a command that does not leave it at 0 has
taken a fault, and an illegal one always does. -/
theorem faultingCommandChangesOnlyFault : Obligations.FaultingCommandChangesOnlyFault := by
  refine ⟨fun i s t h hf ht => ?_, fun op s hf => ?_⟩
  · obtain ⟨hne, -⟩ | ⟨f, -, -, rfl⟩ | ⟨r, rs, -, hr, rfl⟩ := exec_cases h
    · exact absurd hf hne
    · exact ⟨f, raise_eq_faulted s _ f⟩
    · exact absurd ((rule_response hr).1.trans hf) ht
  · have hrun : illegalCommand op s = s.raise op .illegal := runCommand_error hf rfl
    exact hrun.trans (raise_eq_faulted s op .illegal)

/-- Settles O21: legal and illegal commands are refused alike (`exec_refused`,
`illegalCommand_refused`). -/
theorem faultStateRefusesEveryCommand : Obligations.FaultStateRefusesEveryCommand := by
  intro s hf
  refine ⟨fun i => ?_, fun why op rest hfetch => ?_⟩
  · rw [exec_refused hf, refuse_eq_answered]
  · rw [step_of_illegal hfetch, illegalCommand_refused (s := s.withCmd rest) hf, refuse_eq_answered]
    rfl

/-- Settles O22: a step performs a command, which the fault state refuses, or takes an outside event
(`apply_fault`). -/
theorem onlyHardwareResetClearsFault : Obligations.OnlyHardwareResetClearsFault := by
  intro s t h hf
  obtain ⟨i, rest, -, hs⟩ | ⟨why, op, rest, -, hs⟩ | ⟨-, hs⟩ := step_cases s
  · rw [hs, exec_refused (s := s.withCmd rest) hf] at h
    cases h; exact .inl rfl
  · rw [hs, illegalCommand_refused (s := s.withCmd rest) hf] at h
    cases h; exact .inl rfl
  · rw [hs] at h
    cases h
    obtain ⟨-, ht⟩ | ⟨ev, tl, hev, ht⟩ := takeInput_cases s
    · exact .inl (by rw [ht])
    · rw [ht]
      obtain hkeep | ⟨rfl, hreset⟩ := apply_fault ev { s with ports := { s.ports with inputs := tl } }
      · exact .inl hkeep
      · exact .inr ⟨hreset, tl, hev⟩

/-! ### Checks and the faults they raise -/

section
variable {F : Fmt} {p : Params F} {m c : BitVec 8} {r : Regs F}

/-- A check that passes goes on with what it read. -/
theorem bind_eq_of_ok {ε α β : Type} {x : Except ε α} {a : α} {k : α → Except ε β} (h : x = .ok a) :
    (x >>= k) = k a := by
  rw [h, except_ok_bind]

/-- A check that fails ends the command. -/
theorem bind_eq_of_error {ε α β : Type} {x : Except ε α} {e : ε} {k : α → Except ε β}
    (h : x = .error e) : (x >>= k) = .error e := by
  rw [h, except_error_bind]

/-- A legal band field names a band (R108). -/
theorem exists_needBand_ok {b : BitVec 2} (hb : b ≠ 3#2) : ∃ v, needBand b = .ok v := by
  obtain ⟨v, hv⟩ := Option.ne_none_iff_exists'.1 (mt ofField_none.1 hb)
  exact ⟨v, needBand_ok.2 hv⟩

theorem bandLegal_iff {b : BitVec 2} : bandLegal b = true ↔ b ≠ 3#2 := bne_iff_ne

/-- A read faults with F_ADDR or F_UNSET alone (R228). -/
theorem read_error {n : RegName} {f : FaultCode} (h : r.read n = .error f) :
    f = .addr ∨ f = .unset := by
  have hset {v : Option (Num F)} (h : readSet v = .error f) : f = .unset := by
    cases v <;> cases h; rfl
  have hbank {v : Option (Num F)} (h : readBank v = .error f) : f = .addr := by
    cases v <;> cases h; rfl
  cases n with
  | fs | lowFreq | highFreq | decayW | set _ _ => exact .inr (hset h)
  | bq _ _ _ | bc _ _ _ => exact .inl (hbank h)
  | _ => cases h

/-- REG.RD faults with F_ADDR or F_UNSET alone (R228). -/
theorem regRd_error {addr : BitVec 24} {f : FaultCode} (h : Regs.regRd addr r = .error f) :
    f = .addr ∨ f = .unset := by
  cases hn : RegName.ofAddr addr with
  | none =>
    rw [regRd_unnamed hn] at h
    cases h; exact .inl rfl
  | some n =>
    rw [regRd_named (ofAddr_eq_some.1 hn).symm] at h
    cases hr : r.read n with
    | error g => rw [hr] at h; cases h; exact read_error hr
    | ok w => rw [hr] at h; cases h

/-- INIT faults with F_PARAM alone (R245). -/
theorem init_error {nch : BitVec 8} {fs : Num F} {f : FaultCode}
    (h : Regs.init p m nch fs r = .error f) : f = .param := by
  unfold Regs.init at h
  split at h <;> cases h
  rfl

/-- A command that reads SET[b] raises F_UNSET when it is unset, or when the checks after it do
(R244). -/
theorem needSet_bind_eq_unset {α : Type} {b : Band} {k : Settings F → Except FaultCode α}
    (h : r.set.get b = none ∨ ∀ v, k v = .error .unset) : (r.needSet b >>= k) = .error .unset := by
  cases hb : r.set.get b with
  | none => exact bind_eq_of_error (needSet_error.2 ⟨hb, rfl⟩)
  | some v =>
    rw [bind_eq_of_ok (needSet_ok.2 hb)]
    exact h.resolve_left (by simp [hb]) v

/-- SAMPLE with a snapshot unset raises F_UNSET (R195, R244). -/
theorem sample_unset {e : RateRegs F} {ch : Channel F} (he : r.rate = some e)
    (hch : r.chan? c = some ch) (h : r.set.low = none ∨ r.set.mid = none ∨ r.set.high = none)
    (x : Num F) : Regs.sample p c x r = .error .unset := by
  unfold Regs.sample
  rw [bind_eq_of_ok (needRate_ok.2 he), bind_eq_of_ok (needChan_ok.2 (chan?_some.1 hch))]
  obtain hlow | hmid | hhigh := h
  · exact needSet_bind_eq_unset (.inl hlow)
  · exact needSet_bind_eq_unset (.inr fun _ => needSet_bind_eq_unset (.inl hmid))
  · exact needSet_bind_eq_unset (.inr fun _ => needSet_bind_eq_unset (.inr fun _ =>
      needSet_bind_eq_unset (.inl hhigh)))

/-- BC.STEP of a band whose snapshot is unset raises F_UNSET (R179, R244). -/
theorem bcStep_unset {e : RateRegs F} {ch : Channel F} {b : BitVec 2} {v : Band}
    (he : r.rate = some e) (hch : r.chan? c = some ch) (hb : Band.ofField b = some v)
    (hv : r.set.get v = none) (x : Num F) : Regs.bcStep p c b x r = .error .unset := by
  unfold Regs.bcStep
  rw [bind_eq_of_ok (needBand_ok.2 hb), bind_eq_of_ok (needRate_ok.2 he),
    bind_eq_of_ok (needChan_ok.2 (chan?_some.1 hch))]
  exact needSet_bind_eq_unset (.inl hv)

/-- Bounds of xo_clamp that are not in order raise F_RANGE (R153, R246): a clamp that succeeded would
have both pairs in order (`xoClamp_ok`). -/
theorem xoClamp_eq_range {lo hi fs : Num F} :
    let nyq := fs.div Num.two
    let lmin := Num.ofDec Config.lowMinHz
    let lmax := nyq.mul (Num.ofDec Config.lowMaxFrac)
    let hmin := (lo.clamp lmin lmax).add (Num.ofDec Config.sepMinHz)
    let hmax := nyq.mul (Num.ofDec Config.highMaxFrac)
    lmin.le lmax = false ∨ hmin.le hmax = false → xoClamp lo hi fs = .error .range := by
  intro nyq lmin lmax hmin hmax h
  cases hx : xoClamp lo hi fs with
  | error f => rw [xoClamp_error hx]
  | ok v =>
    obtain ⟨hlo, hlow, hhi, -⟩ := xoClamp_ok (low := v.1) (high := v.2) hx
    rw [hlow] at hhi
    obtain h | h := h
    · exact absurd (hlo.symm.trans h) (by decide)
    · exact absurd (hhi.symm.trans h) (by decide)

/-- A recomputing XO.UPD whose bounds are not in order raises F_RANGE (R154, R246). -/
theorem xoUpd_range {e : RateRegs F} {lo hi : Num F} (he : r.rate = some e)
    (hm : xoMustRecompute r.xo lo hi = true) (hc : xoClamp lo hi e.fs = .error .range) :
    Regs.xoUpd p lo hi r = .error .range := by
  unfold Regs.xoUpd
  rw [bind_eq_of_ok (needRate_ok.2 he), if_pos hm]
  exact bind_eq_of_error hc

end

/-! ### The first checks of a rule -/

variable {p : Params Config.fmt} {m c : BitVec 8} {i : Instr} {r : Regs Config.fmt}

/-- The first two checks of a legal command that names channel c: INITED, then the channel (R238). -/
theorem rule_checks_channel (hc : Instr.channel? i = some c) (hwf : i.WellFormed = true) :
    ∃ k, Instr.rule p m i r = r.needRate >>= fun _ => r.needChan c >>= k := by
  cases i with
  | bcStep _ b x =>
    cases hc
    obtain ⟨v, hv⟩ := exists_needBand_ok (bandLegal_iff.1 hwf)
    exact ⟨_, bind_eq_of_ok hv⟩
  | sample _ _ | bqSetlp _ _ _ _ | bqSethp _ _ _ _ | bqStep _ _ _ | xoSplit _ _ =>
    cases hc
    exact ⟨_, rfl⟩
  | _ => cases hc

/-! ### INITED -/

/-- The commands that R242 accepts before the first INIT. -/
def Opcode.RunsUninit (o : Opcode) : Prop := o = .init ∨ o = .pkAtt ∨ o = .pkRead ∨ o = .regRd

/-- The first check of every other legal command is INITED (R238, R242). -/
theorem rule_checks_rate (ho : ¬ Opcode.RunsUninit i.opcode) (hwf : i.WellFormed = true) :
    ∃ k, Instr.rule p m i r = r.needRate >>= k := by
  cases hc : Instr.channel? i with
  | some c =>
    obtain ⟨k, hk⟩ := rule_checks_channel hc hwf
    exact ⟨_, hk⟩
  | none =>
    cases i with
    | bcSet b _ _ _ _ _ =>
      obtain ⟨v, hv⟩ := exists_needBand_ok (bandLegal_iff.1 hwf)
      exact ⟨_, bind_eq_of_ok hv⟩
    | blkBeg | blkEnd | xoUpd _ _ | pkUpd _ => exact ⟨_, rfl⟩
    | init _ _ | pkAtt _ | pkRead | regRd _ => simp [Opcode.RunsUninit, Instr.opcode] at ho
    | _ => cases hc

/-- The faults of the commands that run before the first INIT; F_UNINIT is none of them (R242). -/
theorem rule_error_of_runsUninit (ho : Opcode.RunsUninit i.opcode) {f : FaultCode}
    (h : Instr.rule p m i r = .error f) : f = .param ∨ f = .addr ∨ f = .unset := by
  cases i with
  | init nch fs => exact .inl (init_error h)
  | regRd addr => exact .inr (regRd_error h)
  | pkAtt _ => cases h
  | pkRead => cases h
  | _ => simp [Opcode.RunsUninit, Instr.opcode] at ho

/-- Settles O24: INITED is the first check of the commands that need it (`rule_checks_rate`), and no
fault of the other four is F_UNINIT. -/
theorem uninitialisedCommandsFault : Obligations.UninitialisedCommandsFault := by
  intro i s hf hrate hwf
  split
  case isTrue ho =>
    intro t h
    obtain ⟨hne, -⟩ | ⟨f, -, hr, rfl⟩ | ⟨_, _, -, hr, rfl⟩ := exec_cases h
    · exact absurd hf hne
    · have hcode : f.code ≠ 2#8 := by
        obtain rfl | rfl | rfl := rule_error_of_runsUninit ho hr <;> decide
      exact hcode
    · rw [complete_regs, (rule_response hr).1, hf]
      decide
  case isFalse ho =>
    obtain ⟨k, hk⟩ := rule_checks_rate ho hwf
    exact exec_faulted i rfl hf (hk.trans (bind_eq_of_error (needRate_error.2 ⟨hrate, rfl⟩)))

/-! ### The channel -/

/-- Settles O25: the channel is the check after INITED of every command that names one
(`rule_checks_channel`). -/
theorem missingChannelFaults : Obligations.MissingChannelFaults := by
  intro s e c hf he hc
  have hfault (i : Instr) {o : Opcode} (ho : i.opcode = o) (hi : Instr.channel? i = some c)
      (hwf : i.WellFormed = true) : exec i s = .next (faulted s (respHeader o.code 3) 3) := by
    obtain ⟨k, hk⟩ := rule_checks_channel hi hwf
    refine exec_faulted i ho hf (f := .channel) (hk.trans ?_)
    rw [bind_eq_of_ok (needRate_ok.2 he)]
    exact bind_eq_of_error (needChan_error.2 ⟨chan?_none_of_ge hc, rfl⟩)
  exact ⟨fun x => hfault (.sample c x) (o := .sample) rfl rfl rfl,
    fun k freq fs => hfault (.bqSetlp c k freq fs) (o := .bqSetlp) rfl rfl rfl,
    fun k freq fs => hfault (.bqSethp c k freq fs) (o := .bqSethp) rfl rfl rfl,
    fun k x => hfault (.bqStep c k x) (o := .bqStep) rfl rfl rfl,
    fun x => hfault (.xoSplit c x) (o := .xoSplit) rfl rfl rfl,
    fun b x hb => hfault (.bcStep c b x) (o := .bcStep) rfl rfl (bandLegal_iff.2 hb)⟩

/-! ### The snapshots -/

/-- Settles O26, by the rules of SAMPLE (`sample_unset`) and of BC.STEP (`bcStep_unset`). -/
theorem unsetSettingsFault : Obligations.UnsetSettingsFault := by
  intro s e c ch x hf he hch
  have hstep {b : BitVec 2} {v : Band} (hb : Band.ofField b = some v)
      (hv : s.regs.set.get v = none) : exec (.bcStep c b x) s = .next (faulted s 0x31000004 4) :=
    exec_faulted (.bcStep c b x) (o := .bcStep) rfl hf (bcStep_unset he hch hb hv _)
  exact ⟨fun h => exec_faulted (.sample c x) (o := .sample) rfl hf (sample_unset he hch h _),
    fun h => hstep (v := .low) rfl h, fun h => hstep (v := .mid) rfl h,
    fun h => hstep (v := .high) rfl h⟩

/-! ### The clamp bounds -/

/-- Settles O28: XO.UPD recomputes, and its clamp raises F_RANGE (`xoClamp_eq_range`). -/
theorem crossedClampBoundsFault : Obligations.CrossedClampBoundsFault := by
  intro s e reqLo reqHi hf he hm h
  exact exec_faulted (.xoUpd reqLo reqHi) (o := .xoUpd) rfl hf
    (xoUpd_range he hm (xoClamp_eq_range h))

/-! ### Operands -/

/-- The code that a sequence of checks and effects leaves in FAULT, 0 where it succeeds (R52, R239). -/
def faultOf {α : Type} : Except FaultCode α → BitVec 8
  | .ok _ => 0#8
  | .error f => f.code

/-- FAULT after a command is what it was, or what the command's rule leaves in it. -/
theorem exec_fault {i : Instr} {s t : State} (h : exec i s = .next t) :
    t.regs.fault = if s.regs.fault = 0#8
      then faultOf (Instr.rule Config.params s.nchMax i s.regs) else s.regs.fault := by
  obtain ⟨hf, rfl⟩ | ⟨f, hf, hr, rfl⟩ | ⟨r, rs, hf, hr, rfl⟩ := exec_cases h
  · rw [if_neg hf]; rfl
  · rw [if_pos hf, hr]; rfl
  · rw [if_pos hf, hr]
    exact (rule_response hr).1.trans hf

/-- Two sequences that begin with one check and fault alike after it fault alike. -/
theorem faultOf_bind_congr {α β : Type} {x : Except FaultCode α} {k k' : α → Except FaultCode β}
    (h : ∀ a, faultOf (k a) = faultOf (k' a)) : faultOf (x >>= k) = faultOf (x >>= k') := by
  cases x with
  | error f => rfl
  | ok a => exact h a

/-- Whether and how a rule faults does not depend on the operand words its command was built from:
every check of another command than XO.UPD reads header fields and registers (R237). -/
theorem faultOf_rule_build {o : Opcode} (ho : o ≠ .xoUpd) (h : Word) (w w' : Nat → Word) :
    faultOf (Instr.rule p m (o.build h w) r) = faultOf (Instr.rule p m (o.build h w') r) := by
  cases o with
  | xoUpd => exact absurd rfl ho
  | init =>
    simp only [Opcode.build, Instr.rule, Regs.init]
    split <;> rfl
  | pkUpd => exact faultOf_bind_congr fun _ => rfl
  | bqSetlp | bqSethp | bqStep | xoSplit =>
    exact faultOf_bind_congr fun _ => faultOf_bind_congr fun _ => rfl
  | bcSet => exact faultOf_bind_congr fun _ => faultOf_bind_congr fun _ => rfl
  | sample =>
    exact faultOf_bind_congr fun _ => faultOf_bind_congr fun _ => faultOf_bind_congr fun _ =>
      faultOf_bind_congr fun _ => faultOf_bind_congr fun _ => rfl
  | bcStep =>
    exact faultOf_bind_congr fun _ => faultOf_bind_congr fun _ => faultOf_bind_congr fun _ =>
      faultOf_bind_congr fun _ => rfl
  | blkBeg | blkEnd | pkAtt | pkRead | regRd => rfl

theorem opcode_code_injective : Function.Injective Opcode.code := fun o o' h =>
  Option.some.inj (by rw [← ofCode_code o, h, ofCode_code])

/-- Commands with one header word have one opcode (R102, R107). -/
theorem opcode_eq_of_headerWord_eq {i j : Instr} (h : i.headerWord = j.headerWord) :
    i.opcode = j.opcode :=
  opcode_code_injective (by rw [← opField_headerWord, h, opField_headerWord])

/-- Commands with one header word fault alike: both are what one row builds from that header
(`build_encode`), with other operand words. -/
theorem faultOf_rule_eq_of_headerWord_eq {i j : Instr} (ho : i.opcode ≠ .xoUpd)
    (h : i.headerWord = j.headerWord) :
    faultOf (Instr.rule p m i r) = faultOf (Instr.rule p m j r) := by
  have hbuild := faultOf_rule_build (p := p) (m := m) (r := r) ho i.headerWord
    (fun n => (i.operands ++ []).getD n 0) (fun n => (j.operands ++ []).getD n 0)
  rwa [build_encode, opcode_eq_of_headerWord_eq h, h, build_encode] at hbuild

/-- Settles O30: FAULT after a command is what its rule leaves in it (`exec_fault`), which the header
word decides (`faultOf_rule_eq_of_headerWord_eq`). -/
theorem operandValuesDoNotFault : Obligations.OperandValuesDoNotFault := by
  intro i j s t u hij ho hi hj
  have hhead : i.headerWord = j.headerWord := by simpa [encode_eq_cons] using hij
  rw [exec_fault hi, exec_fault hj, faultOf_rule_eq_of_headerWord_eq ho hhead]

end Sys2Proof.Machine
end

section
/-! SUPPORT. The statements of 70_reset_and_hazards.md and of no one family: who writes the compressors
(R261), what a step does between commands (R260), that every step answers a state (R199), and INIT beyond
NCH_MAX (R245). -/

namespace Sys2Proof.Machine

section
variable {F : Fmt} {r : Regs F}

/-! ### The compressors -/

/-- The compressors of all channels (R44). -/
def Regs.compressors (r : Regs F) : List (CompBank F) := r.chans.map (·.bc)

/-- A bank put in the place of one with the same compressors changes no compressor. -/
theorem compressors_putChan {c : BitVec 8} {ch ch' : Channel F} (hch : r.chans[c.toNat]? = some ch)
    (hbc : ch'.bc = ch.bc) : (r.putChan c ch').compressors = r.compressors := by
  obtain ⟨hlt, rfl⟩ := List.getElem?_eq_some_iff.1 hch
  have hlt' : c.toNat < (r.chans.map (·.bc)).length := by simpa using hlt
  calc (r.chans.set c.toNat ch').map (·.bc)
      = (r.chans.map (·.bc)).set c.toNat (r.chans.map (·.bc))[c.toNat] := by
        rw [List.map_set, hbc, List.getElem_map]
    _ = r.chans.map (·.bc) := List.set_getElem_self hlt'

/-- Filters designed anew in every bank change no compressor (R151, R261). -/
theorem compressors_map_bq (g : Channel F → BiquadBank F) :
    (r.chans.map fun ch => { ch with bq := g ch }).map (·.bc) = r.compressors := List.map_map

end

/-- The rule of another command than INIT, SAMPLE and BC.STEP leaves the compressors: it replaces a bank
by one with the same compressors, designs every bank's filters anew, or leaves the banks (R261). -/
theorem rule_compressors {p : Params Config.fmt} {m : BitVec 8} {i : Instr}
    {r r' : Regs Config.fmt} {rs : List (ResultWord Config.fmt)}
    (h : Instr.rule p m i r = .ok (r', rs)) (hinit : i.opcode ≠ .init) (hsample : i.opcode ≠ .sample)
    (hstep : i.opcode ≠ .bcStep) : r'.compressors = r.compressors := by
  cases i with
  | init _ _ => exact absurd rfl hinit
  | sample _ _ => exact absurd rfl hsample
  | bcStep _ _ _ => exact absurd rfl hstep
  | bqSetlp _ _ _ _ =>
    obtain ⟨_, _, -, -, hch, -, rfl⟩ := bqSetlp_ok h
    exact compressors_putChan hch rfl
  | bqSethp _ _ _ _ =>
    obtain ⟨_, _, -, -, hch, -, rfl⟩ := bqSethp_ok h
    exact compressors_putChan hch rfl
  | bqStep _ _ _ =>
    obtain ⟨_, _, -, -, hch, -, rfl⟩ := bqStep_ok h
    exact compressors_putChan hch rfl
  | xoSplit _ _ =>
    obtain ⟨_, _, -, -, hch, -, rfl⟩ := xoSplit_ok h
    exact compressors_putChan hch rfl
  | xoUpd _ _ =>
    obtain ⟨_, -, ⟨-, rfl, -⟩ | ⟨_, _, -, -, -, rfl⟩⟩ := xoUpd_ok h
    · rfl
    · exact compressors_map_bq _
  | blkBeg => obtain ⟨-, -, rfl⟩ := blkBeg_ok h; rfl
  | blkEnd =>
    obtain ⟨_, -, -, rfl⟩ := blkEnd_ok h
    split <;> rfl
  | bcSet _ _ _ _ _ _ => obtain ⟨_, _, -, -, -, rfl⟩ := bcSet_ok h; rfl
  | pkAtt _ => obtain ⟨-, rfl⟩ := pkAtt_ok h; rfl
  | pkUpd _ => obtain ⟨_, -, -, rfl⟩ := pkUpd_ok h; rfl
  | pkRead => obtain ⟨-, rfl⟩ := pkRead_ok h; rfl
  | regRd _ => obtain ⟨_, _, -, -, -, rfl⟩ := regRd_ok h; rfl

/-- Settles O47: a refused or faulting command leaves the banks, and a success is `rule_compressors`. -/
theorem onlyThreeCommandsWriteCompressors : Obligations.OnlyThreeCommandsWriteCompressors := by
  intro i s t h hinit hsample hstep
  obtain ⟨-, rfl⟩ | ⟨_, -, -, rfl⟩ | ⟨_, _, -, hr, rfl⟩ := exec_cases h
  · rfl
  · rfl
  · exact rule_compressors hr hinit hsample hstep

/-! ### Between commands -/

/-- No command can be taken while reset is asserted or no whole command has arrived (R110, R260). -/
theorem fetch_eq_needMore_iff {s : State} :
    fetch s = .needMore ↔ s.ports.inReset = true ∨ decode s.ports.cmd = .needMore := by
  cases h : s.ports.inReset <;> simp [fetch, h]

/-- A step that can take no command takes the next outside event. -/
theorem step_of_needMore {s : State} (hf : fetch s = .needMore) : step s = .next (takeInput s) := by
  obtain ⟨_, _, hf', -⟩ | ⟨_, _, _, hf', -⟩ | ⟨-, hs⟩ := step_cases s
  · cases hf.symm.trans hf'
  · cases hf.symm.trans hf'
  · exact hs

/-- With no outside event left nothing happens (R256). -/
theorem takeInput_of_nil {s : State} (hin : s.ports.inputs = []) : takeInput s = s := by
  simp only [takeInput, hin]

/-- The next outside event is taken from the list and happens. -/
theorem takeInput_of_cons {s : State} {ev : Input} {tl : List Input}
    (hin : s.ports.inputs = ev :: tl) :
    takeInput s = ev.apply { s with ports := { s.ports with inputs := tl } } := by
  simp only [takeInput, hin]

/-- An arriving word reaches the command port alone, and not even that while reset is asserted
(log entry 8). -/
theorem arrive_eq (w : Word) (s : State) :
    arrive w s = s.withCmd (if s.ports.inReset then s.ports.cmd else s.ports.cmd ++ [w]) := by
  unfold arrive
  split <;> rfl

/-- Settles O14: the step takes the next event (`step_of_needMore`), and an arriving word is
`arrive_eq`. -/
theorem stepTakesOutsideEvent : Obligations.StepTakesOutsideEvent := by
  intro s hwait
  have hs : step s = .next (takeInput s) := step_of_needMore (fetch_eq_needMore_iff.2 hwait)
  refine ⟨fun hin => ?_, fun w tl hin => ?_, fun tl hin => ?_, fun tl hin => ?_⟩
  · rw [hs, takeInput_of_nil hin]
  · rw [hs, takeInput_of_cons hin, Input.apply, arrive_eq]; rfl
  · rw [hs, takeInput_of_cons hin]; rfl
  · rw [hs, takeInput_of_cons hin]; rfl

/-- Settles O17: a legal command is one transaction, which answers a state whether it completes, faults
or is refused (`exec_eq`). -/
theorem everyStepCompletes : Obligations.EveryStepCompletes := by
  intro s
  obtain ⟨i, rest, -, hs⟩ | ⟨_, _, _, -, hs⟩ | ⟨-, hs⟩ := step_cases s
  · exact ⟨_, hs.trans (exec_eq i (s.withCmd rest))⟩
  · exact ⟨_, hs⟩
  · exact ⟨_, hs⟩

/-! ### INIT beyond NCH_MAX -/

/-- INIT beyond NCH_MAX raises F_PARAM (R245). -/
theorem init_eq_error {F : Fmt} {p : Params F} {m nch : BitVec 8} {r : Regs F}
    (hn : m.toNat < nch.toNat) (fs : Num F) : Regs.init p m nch fs r = .error .param := if_pos hn

/-- Settles O27, by `init_eq_error`. -/
theorem initBeyondMaximumFaults : Obligations.InitBeyondMaximumFaults :=
  fun nch fs _ hf hn =>
    exec_faulted (.init nch fs) (o := .init) rfl hf (init_eq_error hn (Num.ofWord fs))

end Sys2Proof.Machine
end
